-- ==== Sys2Proof/Word.lean ====
section
/-! DEFINITION. The value types of the spec (00_scope.md R11): bytes, byte strings, link and network
addresses, protocol numbers. Its `Time`, seconds, is `Nat` here. Addresses are byte strings, not numbers
(20_memory.md R53), so they are records of bytes. -/

namespace Sys2Proof

/-- `Byte` of R11. -/
abbrev Byte := BitVec 8

/-- `Bytes` of R11: a packet buffer's value (40_byte_buffer.md R130). -/
abbrev Bytes := List Byte

/-- A 16-bit header field or checksum. -/
abbrev Word16 := BitVec 16

/-- `Proto8` of R11: an IP protocol number. -/
abbrev Proto8 := BitVec 8

/-- `Proto16` of R11: a Frame Dispatcher protocol number. -/
abbrev Proto16 := BitVec 16

/-- `Mac` of R11: a link address, six bytes, `b0` at the lowest offset. -/
structure Mac where
  b0 : Byte
  b1 : Byte
  b2 : Byte
  b3 : Byte
  b4 : Byte
  b5 : Byte
  deriving DecidableEq, Repr

/-- `Ip` of R11: a network address, four bytes, `b0` at the lowest offset. -/
structure Ip where
  b0 : Byte
  b1 : Byte
  b2 : Byte
  b3 : Byte
  deriving DecidableEq, Repr

/-- `00:00:00:00:00:00`, the target link address of a request (30_encoding.md R89). -/
def Mac.zero : Mac := ⟨0, 0, 0, 0, 0, 0⟩

/-- `BROADCAST_MAC` of 00_scope.md R7. -/
def Mac.broadcast : Mac := ⟨0xff, 0xff, 0xff, 0xff, 0xff, 0xff⟩

/-- `0.0.0.0`. -/
def Ip.zero : Ip := ⟨0, 0, 0, 0⟩

end Sys2Proof
end

