-- ==== Sys2Proof/Config.lean ====
section
/-! DEFINITION. The configuration of 00_scope.md R7 (a record the environment supplies before reset,
held in read-only registers, 10_state.md R24), its well-formedness R8, the parameters R7 fixes, and
the free values: what the spec leaves open with no value among its choices. -/

namespace Sys2Proof

/-- `MF_BIT` of R7: bit 13 or bit 15 (OPEN, 90_conflicts.md C1, log entry 23). -/
inductive MfBit where
  | bit13
  | bit15
  deriving DecidableEq, Repr

/-- `IHL_POLICY` of R7 (OPEN, 92_eei_decisions.md D10, log entry 5). -/
inductive IhlPolicy where
  | fixed20
  | ihl
  deriving DecidableEq, Repr

/-- The configurable parameters of R7. A capacity `none` is "unbounded". -/
structure Config where
  localIp : Ip
  localMac : Mac
  mtu : Nat
  ttlDefault : Byte
  mfBit : MfBit
  idInit : Nat
  arpTimeout : Nat
  arpPendingInterval : Nat
  arpCapacity : Option Nat
  pendingCapacity : Option Nat
  protoArp : Proto16
  protoIp : Proto16
  codeProtoUnreach : Byte
  codePortUnreach : Byte
  ihlPolicy : IhlPolicy
  deriving DecidableEq, Repr

/-- `IP_HDR_LEN`, fixed by R7. -/
abbrev ipHdrLen : Nat := 20
/-- `ARP_LEN` of 30_encoding.md R87. -/
abbrev arpLen : Nat := 28
/-- `ICMP_HDR_LEN` of 30_encoding.md R94. -/
abbrev icmpHdrLen : Nat := 8
/-- `IPPROTO_ICMP`, fixed by R7. -/
abbrev ipProtoIcmp : Proto8 := 1
/-- `IPPROTO_OTHER`, fixed by R7. -/
abbrev ipProtoOther : Proto8 := 17
/-- `ARP_HTYPE`, fixed by R7. -/
abbrev arpHtype : Word16 := 1
/-- `ARP_PTYPE`, fixed by R7. -/
abbrev arpPtype : Word16 := 0x0800
/-- `ARP_HLEN`, fixed by R7. -/
abbrev arpHlen : Byte := 6
/-- `ARP_PLEN`, fixed by R7. -/
abbrev arpPlen : Byte := 4
/-- `ARP_OP_REQUEST`, fixed by R7. -/
abbrev arpOpRequest : Word16 := 1
/-- `ARP_OP_REPLY`, fixed by R7. -/
abbrev arpOpReply : Word16 := 2
/-- `ICMP_ECHO_REQUEST`, fixed by R7. -/
abbrev icmpEchoRequest : Byte := 8
/-- `ICMP_ECHO_REPLY`, fixed by R7. -/
abbrev icmpEchoReply : Byte := 0
/-- `ICMP_UNREACH`, fixed by R7. -/
abbrev icmpUnreach : Byte := 3

/-- Well-formedness of a configuration (R8): the constraints of R7 that the types above do not carry. -/
def Config.wf (c : Config) : Bool :=
  decide (ipHdrLen + 8 ≤ c.mtu) && decide (c.mtu ≤ 65535)
    && decide ((c.mtu - ipHdrLen) % 8 = 0) && decide (c.arpPendingInterval < c.arpTimeout)

/-- `M`, the maximum fragment payload (46_ip_outbound.md R210). -/
def Config.maxPayload (c : Config) : Nat := c.mtu - ipHdrLen

/-- The configuration at reset: the defaults of R7. `LOCAL_IP`, `LOCAL_MAC` and `IHL_POLICY` have no
default in the spec: their values here are a DESIGN CHOICE (log entries 4 and 5; unsafe). -/
def Config.atReset : Config where
  localIp := Ip.zero
  localMac := Mac.zero
  mtu := 1500
  ttlDefault := 64
  mfBit := .bit13
  idInit := 0
  arpTimeout := 60
  arpPendingInterval := 1
  arpCapacity := none
  pendingCapacity := none
  protoArp := 0x0806
  protoIp := 0x0800
  codeProtoUnreach := 2
  codePortUnreach := 3
  ihlPolicy := .fixed20

/-- FREE VALUE (log entry 8): the `k`-th drawn byte of a new header or padding (40_byte_buffer.md R131,
R133). No body: nothing can be proved of it. -/
opaque Config.freeByte : Nat → Byte

/-- FREE VALUE (log entry 7): how far the time input advances at the `k`-th access when the environment
has fixed no advance (20_memory.md R60). No body: nothing can be proved of it. -/
opaque Config.freeTick : Nat → Nat

end Sys2Proof
end

