-- ==== Sys2Proof/Syntax.lean ====
section
/-! DEFINITION. The operations of NETCORE as syntax: `Instr`, one constructor for each row of
spec/opcode_table.json (30_encoding.md R84, R102), and the transactions that carry them (R81 to R83).
The spec has no instruction words (R80): what is decoded is a transaction, that is, the port or call
interface it arrives on, its sideband fields and the bytes of the packet in it (log entry 1). -/

namespace Sys2Proof

/-- The two instances of the expiring map (41_expiring_map.md). -/
inductive TableId where
  | cache
  | pending
  deriving DecidableEq, Repr

/-- A value for one of the two tables: a `Mac` for `CACHE`, a datagram for `PENDING` (R140). -/
inductive TableValue where
  | cache (mac : Mac)
  | pending (datagram : Bytes)
  deriving DecidableEq, Repr

/-- The table a value belongs to. -/
def TableValue.table : TableValue → TableId
  | .cache _ => .cache
  | .pending _ => .pending

/-- A `for_each` visitor, as far as the spec tells visitors apart (93_implementation_defined.md U5):
does it modify the table? -/
inductive Visitor where
  | readOnly
  | mutating
  deriving DecidableEq, Repr

/-- The four address fields of an ARP packet, in the order of 30_encoding.md R87. -/
structure ArpAddresses where
  sha : Mac
  spa : Ip
  tha : Mac
  tpa : Ip
  deriving DecidableEq, Repr

/-- All fields of an ARP packet (R87). -/
structure ArpPacket where
  htype : Word16
  ptype : Word16
  hlen : Byte
  plen : Byte
  oper : Word16
  addresses : ArpAddresses
  deriving DecidableEq, Repr

/-- The fields of an IPv4 header other than version and protocol (30_encoding.md R90). -/
structure Ipv4Fields where
  ihl : BitVec 4
  tos : Byte
  tlen : Word16
  id : Word16
  fo : Word16
  ttl : Byte
  hcs : Word16
  src : Ip
  dst : Ip
  deriving DecidableEq, Repr

/-- All fields of an IPv4 header (R90). -/
structure Ipv4Header where
  ver : BitVec 4
  proto : Proto8
  fields : Ipv4Fields
  deriving DecidableEq, Repr

/-- The operations, one constructor for each row of spec/opcode_table.json. A row that a packet
pattern selects holds the packet's other fields. -/
inductive Instr where
  /-- RESET (70_reset_and_hazards.md R280) -/
  | reset
  /-- FD.DELIVER (42_frame_dispatcher.md R150), a protocol number other than the two below -/
  | fdDeliver (payload : Bytes) (protocolNumber : Proto16) (sourceLink : Mac)
  /-- FD.DELIVER/ARP: FD.DELIVER with protocol number 0x0806 -/
  | fdDeliverArp (payload : Bytes) (sourceLink : Mac)
  /-- FD.DELIVER/IP: FD.DELIVER with protocol number 0x0800 -/
  | fdDeliverIp (payload : Bytes) (sourceLink : Mac)
  /-- IP.SEND as a port (46_ip_outbound.md R211) -/
  | ipSend (buffer : Bytes) (destination : Ip) (protocol : Proto8)
  /-- ICMP.SEND_UNREACHABLE as a port (47_icmp.md R235) -/
  | icmpSendUnreachable (original : Bytes) (destination : Ip) (code : Byte)
  /-- IP.REGISTER (45_ip_inbound.md R190) -/
  | ipRegister (protocol : Proto8)
  /-- FD.TRANSMIT (42_frame_dispatcher.md R151) -/
  | fdTransmit (payload : Bytes) (destinationLink : Mac) (protocolNumber : Proto16)
  /-- FD.REGISTER (R152) -/
  | fdRegister (protocolNumber : Proto16)
  /-- FD.POLL, the receive step (R153) -/
  | fdPoll
  /-- BUF.ADD_HEADER (40_byte_buffer.md R131) -/
  | bufAddHeader (b : Bytes) (n : Nat)
  /-- BUF.REMOVE_HEADER (R132) -/
  | bufRemoveHeader (b : Bytes) (n : Nat)
  /-- BUF.ADD_PADDING (R133) -/
  | bufAddPadding (b : Bytes) (n : Nat)
  /-- BUF.REMOVE_PADDING (R134) -/
  | bufRemovePadding (b : Bytes) (n : Nat)
  /-- MAP.INIT (41_expiring_map.md R140) of one of the two instances (log entry 12) -/
  | mapInit (table : TableId) (keySize valueSize : Nat) (capacity : Option Nat) (expirySeconds : Nat) (copyFn : Bool)
  /-- MAP.GET (R141) -/
  | mapGet (table : TableId) (key : Ip)
  /-- MAP.SET (R142); the value names the table -/
  | mapSet (key : Ip) (value : TableValue)
  /-- MAP.DELETE (R143) -/
  | mapDelete (table : TableId) (key : Ip)
  /-- MAP.FOR_EACH (R144) -/
  | mapForEach (table : TableId) (visitor : Visitor)
  /-- CKSUM16 (43_checksum.md R160) -/
  | cksum16 (b : Bytes)
  /-- CKSUM16.VERIFY (R162) -/
  | cksum16Verify (b : Bytes) (off : Nat)
  /-- ARP.INIT (44_arp.md R170) -/
  | arpInit
  /-- ARP.SEND_REQUEST (R171) -/
  | arpSendRequest (targetIp : Ip)
  /-- ARP.RESOLVE_AND_SEND (R172) -/
  | arpResolveAndSend (datagram : Bytes) (destination : Ip)
  /-- ARP.SEND_REPLY (R173) -/
  | arpSendReply (targetIp : Ip) (targetLink : Mac)
  /-- ARP.ON_PACKET (R176) of a packet that the two rows below do not select -/
  | arpOnPacket (packet : Bytes) (sourceLink : Mac)
  /-- ARP.ON_PACKET/REQUEST: leading bytes 00 01 08 00 06 04 00 01; `trailer` is what follows offset 27 -/
  | arpOnPacketRequest (addresses : ArpAddresses) (trailer : Bytes) (sourceLink : Mac)
  /-- ARP.ON_PACKET/REPLY: leading bytes 00 01 08 00 06 04 00 02 -/
  | arpOnPacketReply (addresses : ArpAddresses) (trailer : Bytes) (sourceLink : Mac)
  /-- IP.INIT (45_ip_inbound.md R191) -/
  | ipInit
  /-- IP.ON_DATAGRAM (R192) of a buffer that the three rows below do not select -/
  | ipOnDatagram (buffer : Bytes) (sourceLink : Mac)
  /-- IP.ON_DATAGRAM/V4: version 4, a protocol other than 1 and 17; `rest` is what follows offset 19 -/
  | ipOnDatagramV4 (proto : Proto8) (fields : Ipv4Fields) (rest : Bytes) (sourceLink : Mac)
  /-- IP.ON_DATAGRAM/PROTO_ICMP: version 4, protocol 1 -/
  | ipOnDatagramProtoIcmp (fields : Ipv4Fields) (rest : Bytes) (sourceLink : Mac)
  /-- IP.ON_DATAGRAM/PROTO_OTHER: version 4, protocol 17 -/
  | ipOnDatagramProtoOther (fields : Ipv4Fields) (rest : Bytes) (sourceLink : Mac)
  /-- UP.DELIVER (30_encoding.md R82) -/
  | upDeliver (protocol : Proto8) (payload : Bytes) (source : Ip)
  /-- IP.SEND/call: IP.SEND as an internal call (R211) -/
  | ipSendCall (buffer : Bytes) (destination : Ip) (protocol : Proto8)
  /-- IP.ENCAPSULATE_AND_RESOLVE (46_ip_outbound.md R214) -/
  | ipEncapsulateAndResolve (chunk : Bytes) (destination : Ip) (protocol : Proto8) (ident boff : Nat) (mf : Bool)
  /-- ICMP.INIT (47_icmp.md R230) -/
  | icmpInit
  /-- ICMP.ON_MESSAGE (R232) of a message that the row below does not select -/
  | icmpOnMessage (buffer : Bytes) (source : Ip)
  /-- ICMP.ON_MESSAGE/ECHO_REQUEST: type 8; `payload` is what follows offset 7 -/
  | icmpOnMessageEchoRequest (code : Byte) (ics ident seq : Word16) (payload : Bytes) (source : Ip)
  /-- ICMP.SEND_UNREACHABLE/call: as an internal call (R235) -/
  | icmpSendUnreachableCall (original : Bytes) (destination : Ip) (code : Byte)
  deriving DecidableEq, Repr

/-- Which port (R81, R82) or call interface (R84) carries a transaction. -/
inductive Selector where
  | reset | fdDeliver | ipSend | icmpSendUnreachable | ipRegister
  | fdTransmit | fdRegister | fdPoll
  | bufAddHeader | bufRemoveHeader | bufAddPadding | bufRemovePadding
  | mapInit | mapGet | mapSet | mapDelete | mapForEach
  | cksum16 | cksum16Verify
  | arpInit | arpSendRequest | arpResolveAndSend | arpSendReply | arpOnPacket
  | ipInit | ipOnDatagram | upDeliver | ipSendCall | ipEncapsulateAndResolve
  | icmpInit | icmpOnMessage | icmpSendUnreachableCall
  deriving DecidableEq, Repr

/-- One field of a transaction, not yet checked against the operand's type. -/
inductive Field where
  | bytes (b : Bytes)
  | num (n : Nat)
  | flag (b : Bool)
  | absent
  deriving DecidableEq, Repr

/-- A transaction: a selector and its fields in the order of spec/opcode_table.json. -/
structure Transaction where
  sel : Selector
  fields : List Field
  deriving DecidableEq, Repr

/-- Why a transaction is no transaction of the spec: its fields have not the types of R81, R84, R11. -/
inductive Reject where
  /-- the number or kind of the fields is not the row's -/
  | fieldShape
  /-- a link address that is not 6 bytes -/
  | macLength
  /-- a network address that is not 4 bytes -/
  | ipLength
  /-- a number too large for its field's width -/
  | fieldRange
  deriving DecidableEq, Repr

end Sys2Proof
end

