-- ==== Sys2Proof/Decode.lean ====
section
/-! DEFINITION. The byte layouts of the three wire formats (30_encoding.md R87, R90, R94), the decoder
of transactions (the dispatch of R86, to the rows of R102), and after it the encoder. -/

namespace Sys2Proof

/-! ### Byte order and fields: every multi-byte field is big-endian (20_memory.md R53, log entry 21) -/

/-- `b[i]` of 00_scope.md R9. Callers have checked `i < b.length` (20_memory.md R56). -/
def byteAt (b : Bytes) (i : Nat) : Byte := b.getD i 0

/-- The 2-byte field at `off`. -/
def u16At (b : Bytes) (off : Nat) : Word16 := byteAt b off ++ byteAt b (off + 1)

/-- The 4-byte address at `off`, copied byte for byte. -/
def ipAt (b : Bytes) (off : Nat) : Ip :=
  ⟨byteAt b off, byteAt b (off + 1), byteAt b (off + 2), byteAt b (off + 3)⟩

/-- The 6-byte address at `off`, copied byte for byte. -/
def macAt (b : Bytes) (off : Nat) : Mac :=
  ⟨byteAt b off, byteAt b (off + 1), byteAt b (off + 2), byteAt b (off + 3), byteAt b (off + 4), byteAt b (off + 5)⟩

/-- `MemWrite16` of 44_arp.md R174: high byte first. -/
def be16 (w : Word16) : Bytes := [w.extractLsb' 8 8, w.extractLsb' 0 8]

/-- The bytes of a network address. -/
def Ip.toBytes (a : Ip) : Bytes := [a.b0, a.b1, a.b2, a.b3]

/-- The bytes of a link address. -/
def Mac.toBytes (m : Mac) : Bytes := [m.b0, m.b1, m.b2, m.b3, m.b4, m.b5]

/-- A byte string read big-endian as a natural (R10). -/
def beNat (b : Bytes) : Nat := b.foldl (fun acc x => acc * 256 + x.toNat) 0

/-- The `n` bytes of `v`, big-endian (R10). -/
def beBytes : Nat → Nat → Bytes
  | 0, _ => []
  | n + 1, v => beBytes n (v / 256) ++ [BitVec.ofNat 8 v]

/-! ### The wire formats -/

/-- An ARP packet's fields at the offsets of R87. -/
def ArpPacket.read (b : Bytes) : ArpPacket where
  htype := u16At b 0
  ptype := u16At b 2
  hlen := byteAt b 4
  plen := byteAt b 5
  oper := u16At b 6
  addresses := { sha := macAt b 8, spa := ipAt b 14, tha := macAt b 18, tpa := ipAt b 24 }

/-- An ARP packet's 28 bytes (R87). -/
def ArpPacket.toBytes (p : ArpPacket) : Bytes :=
  be16 p.htype ++ be16 p.ptype ++ [p.hlen, p.plen] ++ be16 p.oper
    ++ p.addresses.sha.toBytes ++ p.addresses.spa.toBytes ++ p.addresses.tha.toBytes ++ p.addresses.tpa.toBytes

/-- The packet with the constant fixed fields of R89 and a given opcode. -/
def ArpPacket.fixed (oper : Word16) (a : ArpAddresses) : ArpPacket :=
  { htype := arpHtype, ptype := arpPtype, hlen := arpHlen, plen := arpPlen, oper := oper, addresses := a }

/-- Do the four fields with one constant each hold it (R88)? -/
def ArpPacket.constantsOk (p : ArpPacket) : Bool :=
  p.htype == arpHtype && p.ptype == arpPtype && p.hlen == arpHlen && p.plen == arpPlen

/-- An IPv4 header's fields at the offsets of R90. -/
def Ipv4Header.read (b : Bytes) : Ipv4Header where
  ver := (byteAt b 0).extractLsb' 4 4
  proto := byteAt b 9
  fields := {
    ihl := (byteAt b 0).extractLsb' 0 4
    tos := byteAt b 1
    tlen := u16At b 2
    id := u16At b 4
    fo := u16At b 6
    ttl := byteAt b 8
    hcs := u16At b 10
    src := ipAt b 12
    dst := ipAt b 16 }

/-- The 20 bytes of an IPv4 header (R90), version in the high nibble (R91). -/
def Ipv4Header.toBytes (h : Ipv4Header) : Bytes :=
  [h.ver ++ h.fields.ihl, h.fields.tos] ++ be16 h.fields.tlen ++ be16 h.fields.id ++ be16 h.fields.fo
    ++ [h.fields.ttl, h.proto] ++ be16 h.fields.hcs ++ h.fields.src.toBytes ++ h.fields.dst.toBytes

/-- The 8 bytes of an ICMP header (R94). -/
def icmpHeaderBytes (type code : Byte) (ics ident seq : Word16) : Bytes :=
  [type, code] ++ be16 ics ++ be16 ident ++ be16 seq

/-! ### The decoder -/

/-- A link address field: six bytes. -/
def macOf : Bytes → Except Reject Mac
  | [a, b, c, d, e, f] => .ok ⟨a, b, c, d, e, f⟩
  | _ => .error .macLength

/-- A network address field: four bytes. -/
def ipOf : Bytes → Except Reject Ip
  | [a, b, c, d] => .ok ⟨a, b, c, d⟩
  | _ => .error .ipLength

/-- A number field of `w` bits. -/
def numOf (w n : Nat) : Except Reject (BitVec w) :=
  if n < 2 ^ w then .ok (BitVec.ofNat w n) else .error .fieldRange

/-- The table operand: 0 is `CACHE`, 1 is `PENDING`. -/
def tableOf : Nat → Except Reject TableId
  | 0 => .ok .cache
  | 1 => .ok .pending
  | _ => .error .fieldRange

/-- The value operand of a table. -/
def valueOf (t : TableId) (v : Bytes) : Except Reject TableValue :=
  match t with
  | .cache => do return .cache (← macOf v)
  | .pending => .ok (.pending v)

/-- Level 1 of R86: the rows of FD.DELIVER by protocol number (R102). -/
def deliverRow (payload : Bytes) (p : Proto16) (src : Mac) : Instr :=
  if p = 0x0806 then .fdDeliverArp payload src
  else if p = 0x0800 then .fdDeliverIp payload src
  else .fdDeliver payload p src

/-- Level 2 (ARP) of R86: the rows of ARP.ON_PACKET, after the length check (R102). -/
def arpRow (packet : Bytes) (src : Mac) : Instr :=
  let p := ArpPacket.read packet
  if arpLen ≤ packet.length ∧ p.constantsOk = true ∧ p.oper = arpOpRequest then
    .arpOnPacketRequest p.addresses (packet.drop arpLen) src
  else if arpLen ≤ packet.length ∧ p.constantsOk = true ∧ p.oper = arpOpReply then
    .arpOnPacketReply p.addresses (packet.drop arpLen) src
  else .arpOnPacket packet src

/-- Level 2 (IP) of R86: the rows of IP.ON_DATAGRAM, after the length check (R102). -/
def datagramRow (b : Bytes) (src : Mac) : Instr :=
  let h := Ipv4Header.read b
  if ipHdrLen ≤ b.length ∧ h.ver = 4 then
    if h.proto = ipProtoIcmp then .ipOnDatagramProtoIcmp h.fields (b.drop ipHdrLen) src
    else if h.proto = ipProtoOther then .ipOnDatagramProtoOther h.fields (b.drop ipHdrLen) src
    else .ipOnDatagramV4 h.proto h.fields (b.drop ipHdrLen) src
  else .ipOnDatagram b src

/-- Level 3 (ICMP) of R86: the rows of ICMP.ON_MESSAGE, after the length check (R102). -/
def messageRow (m : Bytes) (src : Ip) : Instr :=
  if icmpHdrLen ≤ m.length ∧ byteAt m 0 = icmpEchoRequest then
    .icmpOnMessageEchoRequest (byteAt m 1) (u16At m 2) (u16At m 4) (u16At m 6) (m.drop icmpHdrLen) src
  else .icmpOnMessage m src

/-- The decoder: a transaction to the operation it carries, total, rejecting by name (R81, R84, R86). -/
def decode (t : Transaction) : Except Reject Instr :=
  match t.sel, t.fields with
  | .reset, [] => .ok .reset
  | .fdDeliver, [.bytes payload, .num p, .bytes src] => do
      return deliverRow payload (← numOf 16 p) (← macOf src)
  | .ipSend, [.bytes b, .bytes d, .num p] => do return .ipSend b (← ipOf d) (← numOf 8 p)
  | .icmpSendUnreachable, [.bytes o, .bytes d, .num c] => do
      return .icmpSendUnreachable o (← ipOf d) (← numOf 8 c)
  | .ipRegister, [.num p] => do return .ipRegister (← numOf 8 p)
  | .fdTransmit, [.bytes payload, .bytes d, .num p] => do
      return .fdTransmit payload (← macOf d) (← numOf 16 p)
  | .fdRegister, [.num p] => do return .fdRegister (← numOf 16 p)
  | .fdPoll, [] => .ok .fdPoll
  | .bufAddHeader, [.bytes b, .num n] => .ok (.bufAddHeader b n)
  | .bufRemoveHeader, [.bytes b, .num n] => .ok (.bufRemoveHeader b n)
  | .bufAddPadding, [.bytes b, .num n] => .ok (.bufAddPadding b n)
  | .bufRemovePadding, [.bytes b, .num n] => .ok (.bufRemovePadding b n)
  | .mapInit, [.num t, .num k, .num v, .absent, .num e, .flag f] => do
      return .mapInit (← tableOf t) k v none e f
  | .mapInit, [.num t, .num k, .num v, .num c, .num e, .flag f] => do
      return .mapInit (← tableOf t) k v (some c) e f
  | .mapGet, [.num t, .bytes k] => do return .mapGet (← tableOf t) (← ipOf k)
  | .mapSet, [.num t, .bytes k, .bytes v] => do
      return .mapSet (← ipOf k) (← valueOf (← tableOf t) v)
  | .mapDelete, [.num t, .bytes k] => do return .mapDelete (← tableOf t) (← ipOf k)
  | .mapForEach, [.num t, .flag m] => do
      return .mapForEach (← tableOf t) (if m then .mutating else .readOnly)
  | .cksum16, [.bytes b] => .ok (.cksum16 b)
  | .cksum16Verify, [.bytes b, .num off] => .ok (.cksum16Verify b off)
  | .arpInit, [] => .ok .arpInit
  | .arpSendRequest, [.bytes t] => do return .arpSendRequest (← ipOf t)
  | .arpResolveAndSend, [.bytes g, .bytes d] => do return .arpResolveAndSend g (← ipOf d)
  | .arpSendReply, [.bytes t, .bytes l] => do return .arpSendReply (← ipOf t) (← macOf l)
  | .arpOnPacket, [.bytes packet, .bytes src] => do return arpRow packet (← macOf src)
  | .ipInit, [] => .ok .ipInit
  | .ipOnDatagram, [.bytes b, .bytes src] => do return datagramRow b (← macOf src)
  | .upDeliver, [.num p, .bytes payload, .bytes src] => do
      return .upDeliver (← numOf 8 p) payload (← ipOf src)
  | .ipSendCall, [.bytes b, .bytes d, .num p] => do return .ipSendCall b (← ipOf d) (← numOf 8 p)
  | .ipEncapsulateAndResolve, [.bytes c, .bytes d, .num p, .num ident, .num boff, .flag mf] => do
      return .ipEncapsulateAndResolve c (← ipOf d) (← numOf 8 p) ident boff mf
  | .icmpInit, [] => .ok .icmpInit
  | .icmpOnMessage, [.bytes m, .bytes src] => do return messageRow m (← ipOf src)
  | .icmpSendUnreachableCall, [.bytes o, .bytes d, .num c] => do
      return .icmpSendUnreachableCall o (← ipOf d) (← numOf 8 c)
  | _, _ => .error .fieldShape

/-! ### The encoder -/

/-- A byte-string field. -/
def macField (m : Mac) : Field := .bytes m.toBytes

/-- A byte-string field. -/
def ipField (a : Ip) : Field := .bytes a.toBytes

/-- A number field. -/
def numField {w : Nat} (v : BitVec w) : Field := .num v.toNat

/-- The table operand. -/
def tableField : TableId → Field
  | .cache => .num 0
  | .pending => .num 1

/-- The value operand of MAP.SET. -/
def valueField : TableValue → Field
  | .cache m => macField m
  | .pending d => .bytes d

/-- The capacity operand of MAP.INIT. -/
def capacityField : Option Nat → Field
  | none => .absent
  | some c => .num c

/-- The packet of an ARP row: the constants, the row's opcode, the addresses, what follows. -/
def arpRowBytes (oper : Word16) (a : ArpAddresses) (trailer : Bytes) : Bytes :=
  (ArpPacket.fixed oper a).toBytes ++ trailer

/-- The datagram of an IPv4 row: version 4, the protocol, the other fields, what follows. -/
def datagramRowBytes (proto : Proto8) (f : Ipv4Fields) (rest : Bytes) : Bytes :=
  ({ ver := 4, proto := proto, fields := f } : Ipv4Header).toBytes ++ rest

/-- The message of the echo-request row: type 8, the other fields, what follows. -/
def echoRequestBytes (code : Byte) (ics ident seq : Word16) (payload : Bytes) : Bytes :=
  icmpHeaderBytes icmpEchoRequest code ics ident seq ++ payload

/-- The encoder: the transaction that carries an operation. -/
def encode : Instr → Transaction
  | .reset => ⟨.reset, []⟩
  | .fdDeliver payload p src => ⟨.fdDeliver, [.bytes payload, numField p, macField src]⟩
  | .fdDeliverArp payload src => ⟨.fdDeliver, [.bytes payload, .num 0x0806, macField src]⟩
  | .fdDeliverIp payload src => ⟨.fdDeliver, [.bytes payload, .num 0x0800, macField src]⟩
  | .ipSend b d p => ⟨.ipSend, [.bytes b, ipField d, numField p]⟩
  | .icmpSendUnreachable o d c => ⟨.icmpSendUnreachable, [.bytes o, ipField d, numField c]⟩
  | .ipRegister p => ⟨.ipRegister, [numField p]⟩
  | .fdTransmit payload d p => ⟨.fdTransmit, [.bytes payload, macField d, numField p]⟩
  | .fdRegister p => ⟨.fdRegister, [numField p]⟩
  | .fdPoll => ⟨.fdPoll, []⟩
  | .bufAddHeader b n => ⟨.bufAddHeader, [.bytes b, .num n]⟩
  | .bufRemoveHeader b n => ⟨.bufRemoveHeader, [.bytes b, .num n]⟩
  | .bufAddPadding b n => ⟨.bufAddPadding, [.bytes b, .num n]⟩
  | .bufRemovePadding b n => ⟨.bufRemovePadding, [.bytes b, .num n]⟩
  | .mapInit t k v c e f => ⟨.mapInit, [tableField t, .num k, .num v, capacityField c, .num e, .flag f]⟩
  | .mapGet t k => ⟨.mapGet, [tableField t, ipField k]⟩
  | .mapSet k v => ⟨.mapSet, [tableField v.table, ipField k, valueField v]⟩
  | .mapDelete t k => ⟨.mapDelete, [tableField t, ipField k]⟩
  | .mapForEach t v => ⟨.mapForEach, [tableField t, .flag (v == .mutating)]⟩
  | .cksum16 b => ⟨.cksum16, [.bytes b]⟩
  | .cksum16Verify b off => ⟨.cksum16Verify, [.bytes b, .num off]⟩
  | .arpInit => ⟨.arpInit, []⟩
  | .arpSendRequest t => ⟨.arpSendRequest, [ipField t]⟩
  | .arpResolveAndSend g d => ⟨.arpResolveAndSend, [.bytes g, ipField d]⟩
  | .arpSendReply t l => ⟨.arpSendReply, [ipField t, macField l]⟩
  | .arpOnPacket packet src => ⟨.arpOnPacket, [.bytes packet, macField src]⟩
  | .arpOnPacketRequest a r src => ⟨.arpOnPacket, [.bytes (arpRowBytes arpOpRequest a r), macField src]⟩
  | .arpOnPacketReply a r src => ⟨.arpOnPacket, [.bytes (arpRowBytes arpOpReply a r), macField src]⟩
  | .ipInit => ⟨.ipInit, []⟩
  | .ipOnDatagram b src => ⟨.ipOnDatagram, [.bytes b, macField src]⟩
  | .ipOnDatagramV4 p f r src => ⟨.ipOnDatagram, [.bytes (datagramRowBytes p f r), macField src]⟩
  | .ipOnDatagramProtoIcmp f r src =>
      ⟨.ipOnDatagram, [.bytes (datagramRowBytes ipProtoIcmp f r), macField src]⟩
  | .ipOnDatagramProtoOther f r src =>
      ⟨.ipOnDatagram, [.bytes (datagramRowBytes ipProtoOther f r), macField src]⟩
  | .upDeliver p payload src => ⟨.upDeliver, [numField p, .bytes payload, ipField src]⟩
  | .ipSendCall b d p => ⟨.ipSendCall, [.bytes b, ipField d, numField p]⟩
  | .ipEncapsulateAndResolve c d p ident boff mf =>
      ⟨.ipEncapsulateAndResolve, [.bytes c, ipField d, numField p, .num ident, .num boff, .flag mf]⟩
  | .icmpInit => ⟨.icmpInit, []⟩
  | .icmpOnMessage m src => ⟨.icmpOnMessage, [.bytes m, ipField src]⟩
  | .icmpOnMessageEchoRequest code ics ident seq payload src =>
      ⟨.icmpOnMessage, [.bytes (echoRequestBytes code ics ident seq payload), ipField src]⟩
  | .icmpSendUnreachableCall o d c => ⟨.icmpSendUnreachableCall, [.bytes o, ipField d, numField c]⟩

/-! ### The opcode table's bit patterns (R102) -/

/-- The transaction whose pattern bits are `w`, a pattern of `nbits` bits as spec/opcode_table.json
numbers it: the leading bytes as one number, the lowest-offset byte most significant (R102), all bits
after the pattern zero. The table has patterns of 16 bits (the protocol number of FD.DELIVER), 8 bits
(byte 0 of an ICMP message), 64 bits (an ARP packet) and 80 bits (an IPv4 header); for its other rows
"no bit pattern exists". -/
def tableTransaction (nbits w : Nat) : Option Transaction :=
  if nbits = 16 then
    some ⟨.fdDeliver, [.bytes [], .num (w % 2 ^ 16), macField Mac.zero]⟩
  else if nbits = 8 then
    some ⟨.icmpOnMessage, [.bytes (beBytes 1 w ++ List.replicate 7 0), ipField Ip.zero]⟩
  else if nbits = 64 then
    some ⟨.arpOnPacket, [.bytes (beBytes 8 w ++ List.replicate 20 0), macField Mac.zero]⟩
  else if nbits = 80 then
    some ⟨.ipOnDatagram, [.bytes (beBytes 10 w ++ List.replicate 10 0), macField Mac.zero]⟩
  else none

/-- The operation that the decoder reads from a pattern word of the opcode table. -/
def decodeTableWord (nbits w : Nat) : Option Instr :=
  (tableTransaction nbits w).bind fun t => (decode t).toOption

end Sys2Proof
end

