-- ==== Sys2Proof/WellFormed.lean ====
section
/-! DEFINITION. Well-formed instructions. The operand types carry the widths (00_scope.md R11); what is
left to check is that a general row is not written where a packet pattern selects a more special one
(30_encoding.md R102: the rows refine one another). Log entry 29. -/

namespace Sys2Proof

/-- Does a row of ARP.ON_PACKET other than the general one select this packet? -/
def selectsArpRow (packet : Bytes) : Bool :=
  decide (arpLen ≤ packet.length) && (ArpPacket.read packet).constantsOk
    && ((ArpPacket.read packet).oper == arpOpRequest || (ArpPacket.read packet).oper == arpOpReply)

/-- Does a row of IP.ON_DATAGRAM other than the general one select this buffer? -/
def selectsDatagramRow (b : Bytes) : Bool :=
  decide (ipHdrLen ≤ b.length) && (Ipv4Header.read b).ver == 4

/-- Does a row of ICMP.ON_MESSAGE other than the general one select this message? -/
def selectsMessageRow (m : Bytes) : Bool :=
  decide (icmpHdrLen ≤ m.length) && byteAt m 0 == icmpEchoRequest

/-- The well-formedness check. -/
def Instr.wellFormed : Instr → Bool
  | .fdDeliver _ p _ => p != 0x0806 && p != 0x0800
  | .arpOnPacket packet _ => !selectsArpRow packet
  | .ipOnDatagram b _ => !selectsDatagramRow b
  | .ipOnDatagramV4 p _ _ _ => p != ipProtoIcmp && p != ipProtoOther
  | .icmpOnMessage m _ => !selectsMessageRow m
  | .reset | .fdDeliverArp .. | .fdDeliverIp .. | .ipSend .. | .icmpSendUnreachable .. | .ipRegister ..
  | .fdTransmit .. | .fdRegister .. | .fdPoll | .bufAddHeader .. | .bufRemoveHeader .. | .bufAddPadding ..
  | .bufRemovePadding .. | .mapInit .. | .mapGet .. | .mapSet .. | .mapDelete .. | .mapForEach ..
  | .cksum16 .. | .cksum16Verify .. | .arpInit | .arpSendRequest .. | .arpResolveAndSend .. | .arpSendReply ..
  | .arpOnPacketRequest .. | .arpOnPacketReply .. | .ipInit | .ipOnDatagramProtoIcmp .. | .ipOnDatagramProtoOther ..
  | .upDeliver .. | .ipSendCall .. | .ipEncapsulateAndResolve .. | .icmpInit | .icmpOnMessageEchoRequest ..
  | .icmpSendUnreachableCall .. => true

end Sys2Proof
end

