-- ==== Sys2Proof/Machine/State.lean ====
section
/-! DEFINITION. The state of NETCORE (10_state.md R20 to R32), the reasons a step can stop, and the
state at reset. State is plain data. Inputs, outputs and returned values, which R31 does not count as
state, are fields too, since a step is a function of one state (log entries 7 to 11). -/

namespace Sys2Proof.Machine

/-- One stored entry of a table: key, value, last-refresh timestamp (10_state.md R27, R28). -/
structure Entry (V : Type) where
  key : Ip
  val : V
  ts : Nat
  deriving DecidableEq, Repr

/-- An expiring map (41_expiring_map.md R145): its horizon, its capacity (`none` is unbounded), its stored
entries with keys strictly rising (`Table.wf`). `ready` says that MAP.INIT has made the table (R140; 70_reset_and_hazards.md R284). -/
structure Table (V : Type) where
  ready : Bool
  horizon : Nat
  capacity : Option Nat
  store : List (Entry V)
  deriving DecidableEq, Repr

/-- A table that MAP.INIT has not made: every key absent. -/
def Table.absent {V : Type} : Table V := { ready := false, horizon := 0, capacity := none, store := [] }

/-- Has RESET completed (70_reset_and_hazards.md R284)? -/
inductive Phase where
  | awaitingReset
  | running
  deriving DecidableEq, Repr

/-- An output transaction (30_encoding.md R82). -/
inductive Output where
  | fdTransmit (payload : Bytes) (destinationLink : Mac) (protocolNumber : Proto16)
  | upDeliver (protocol : Proto8) (payload : Bytes) (source : Ip)
  | fdRegister (protocolNumber : Proto16)
  deriving DecidableEq, Repr

/-- A frame at the Driver, as the Frame Dispatcher hands it on after taking the link header off
(42_frame_dispatcher.md R150, R153; log entry 11). -/
structure Frame where
  payload : Bytes
  protocolNumber : Proto16
  sourceLink : Mac
  deriving DecidableEq, Repr

/-- The twelve disposition causes (60_exceptions.md R250). -/
inductive Cause where
  | arpTooShort
  | arpBadFixedField
  | arpResolutionInFlight
  | ipTooShort
  | ipBadVersion
  | ipBadHeaderLength
  | ipBadChecksum
  | ipNotForUs
  | ipBadTotalLength
  | ipProtoUnreachable
  | icmpTooShort
  | icmpIgnoredType
  deriving DecidableEq, Repr

/-- What an operation returns to its caller (log entry 10). -/
inductive Ret where
  | none
  | bytes (b : Bytes)
  | word (w : Word16)
  | flag (b : Bool)
  | found (v : Option TableValue)
  deriving DecidableEq, Repr

/-- The state. -/
structure State where
  /-- the configuration registers (R24) -/
  cfg : Config
  /-- before RESET has completed, or running (R284) -/
  phase : Phase
  /-- `IDCTR` (R21) -/
  idctr : Nat
  /-- `CACHE` (R27) -/
  cache : Table Mac
  /-- `PENDING` (R28) -/
  pending : Table Bytes
  /-- `REGISTERED` (R25), strictly rising -/
  registered : List Proto8
  /-- `FD_REGISTERED` (R26), strictly rising -/
  fdRegistered : List Proto16
  /-- input transactions presented and not yet taken, the next one first -/
  inbox : List Transaction
  /-- frames waiting at the Driver, the next one first -/
  driver : List Frame
  /-- the last answer of the time input (20_memory.md R60) -/
  clock : Nat
  /-- the coming advances of the time input that the environment has fixed; after them they are free -/
  ticks : List Nat
  /-- how many free values have been drawn -/
  draws : Nat
  /-- output transactions emitted, oldest first (20_memory.md R66) -/
  outbox : List Output
  /-- disposition causes of this invocation, in order (60_exceptions.md R251: for testing only) -/
  causes : List Cause
  /-- the value the last operation returned -/
  ret : Ret
  deriving DecidableEq, Repr

/-- Where the spec says that a model faults. -/
inductive Fault where
  /-- raised by a MemRead or MemWrite outside its buffer or of a value too wide for its field
  (00_scope.md R10, 20_memory.md R56): CKSUM16.VERIFY, IP.ENCAPSULATE_AND_RESOLVE and the ICMP builders. Safe. -/
  | memoryRange
  /-- raised by BUF.REMOVE_HEADER and BUF.REMOVE_PADDING of more bytes than the buffer holds
  (40_byte_buffer.md R132, R134; 93_implementation_defined.md U4). Safe. -/
  | removeBeyondBuffer
  deriving DecidableEq, Repr

/-- Where the spec says that a model refuses (60_exceptions.md R257, 93_implementation_defined.md). -/
inductive Refusal where
  /-- raised by `exec` for an operation that has no meaning yet. Safe. -/
  | notModelled (mnemonic : String)
  /-- raised by every operation under an ill-formed configuration (00_scope.md R8). Safe. -/
  | illFormedConfig
  /-- raised by the input ports before RESET has completed (70_reset_and_hazards.md R284, U8). Safe. -/
  | beforeReset
  /-- raised by a second RESET (R284, U8). Safe. -/
  | secondReset
  /-- raised by IP.SEND of more than 65515 bytes (46_ip_outbound.md R212(a), U7). Safe. -/
  | payloadTooLong
  /-- raised by ICMP.SEND_UNREACHABLE on a buffer without a complete header (47_icmp.md R235, U7). Safe. -/
  | noCompleteHeader
  /-- raised by MAP.SET on a bounded table with no free slot (U1). Safe. -/
  | tableFull
  /-- raised by MAP.GET, MAP.SET, MAP.DELETE and MAP.FOR_EACH on a table that MAP.INIT has not made (R284). Safe. -/
  | tableNotReady
  /-- raised by MAP.INIT on a table already in use (U15). Safe. -/
  | tableInUse
  /-- raised by MAP.FOR_EACH with a visitor that modifies the table (U5). Safe. -/
  | mutatingVisitor
  /-- raised by a step whose next transaction has not the fields of its row (30_encoding.md R81). Safe. -/
  | malformedTransaction (why : Reject)
  deriving DecidableEq, Repr

/-- The state when reset is released, before the initialisation sequence has run (10_state.md R32).
`cfg` at the defaults of R7 and log entries 4 and 5; the model's own fields empty or zero (log entries 7 to 11). -/
def State.reset : State where
  cfg := Config.atReset
  phase := .awaitingReset
  idctr := Config.atReset.idInit
  cache := Table.absent
  pending := Table.absent
  registered := []
  fdRegistered := []
  inbox := []
  driver := []
  clock := 0
  ticks := []
  draws := 0
  outbox := []
  causes := []
  ret := .none

end Sys2Proof.Machine
end

