-- ==== Sys2Proof/Machine/Flags.lean ====
section
/-! DEFINITION. Flags. The block has no status flags (10_state.md R23). The one flag it computes is a
packet field: the more-fragments flag in the flags+offset field (30_encoding.md R92). -/

namespace Sys2Proof.Machine

/-- `2^MF_BIT` (R92). -/
def moreFragments : MfBit → Nat
  | .bit13 => 0x2000
  | .bit15 => 0x8000

/-- The flags+offset field `fo` of a fragment at byte offset `boff` (R92). -/
def flagsOffset (b : MfBit) (mf : Bool) (boff : Nat) : Nat :=
  (if mf then moreFragments b else 0) + boff / 8

end Sys2Proof.Machine
end

