-- ==== Sys2Proof/Machine/Operands.lean ====
section
/-! DEFINITION. Operations on byte strings: field access (00_scope.md R10), the Byte Buffer
(40_byte_buffer.md), the checksum (43_checksum.md), the inbound header length (45_ip_inbound.md R193),
the fragment plan (46_ip_outbound.md R213), and the packets the engines build. All are pure. `none`
stands where the spec's access has no meaning. -/

namespace Sys2Proof.Machine

/-! ### Fields (R10) -/

/-- `MemRead(b, off, n)`; `none` when the range is not inside the buffer. -/
def memRead (b : Bytes) (off n : Nat) : Option Nat :=
  if off + n ≤ b.length then some (beNat ((b.drop off).take n)) else none

/-- `b` with the bytes `v` from offset `off` on; used with `off + v.length ≤ b.length`. -/
def putBytes (b : Bytes) (off : Nat) (v : Bytes) : Bytes := b.take off ++ v ++ b.drop (off + v.length)

/-- `MemWrite(b, off, n, v)`; `none` when the range is not inside the buffer or `v` does not fit. -/
def memWrite (b : Bytes) (off n v : Nat) : Option Bytes :=
  if off + n ≤ b.length ∧ v < 256 ^ n then some (putBytes b off (beBytes n v)) else none

/-- `b[i .. j)` of R9. -/
def slice (b : Bytes) (i j : Nat) : Bytes := (b.drop i).take (j - i)

/-! ### The Byte Buffer -/

/-- BUF.REMOVE_HEADER (R132); `none` when the buffer holds fewer than `n` bytes. -/
def removeHeader (b : Bytes) (n : Nat) : Option Bytes :=
  if n ≤ b.length then some (b.drop n) else none

/-- BUF.REMOVE_PADDING (R134); `none` when the buffer holds fewer than `n` bytes. -/
def removePadding (b : Bytes) (n : Nat) : Option Bytes :=
  if n ≤ b.length then some (b.take (b.length - n)) else none

/-! ### The checksum -/

/-- The sum of the big-endian 16-bit words of a byte string, an odd trailing byte being the high byte
of a word whose low byte is zero (R160). -/
def wordSum : Bytes → Nat
  | [] => 0
  | [hi] => 256 * hi.toNat
  | hi :: lo :: rest => 256 * hi.toNat + lo.toNat + wordSum rest

/-- The end-around-carry loop of R160, with as much fuel as the sum itself, which each round lessens. -/
def foldCarry : Nat → Nat → Nat
  | 0, s => s
  | fuel + 1, s => if 65536 ≤ s then foldCarry fuel (s % 65536 + s / 65536) else s

/-- CKSUM16 (R160): the complement of the folded sum (log entry 22). -/
def checksum (b : Bytes) : Word16 := BitVec.ofNat 16 (65535 - foldCarry (wordSum b) (wordSum b))

/-- CKSUM16.VERIFY (R162): zero the field in a copy, compute, compare with the saved value. -/
def verifyChecksum (b : Bytes) (off : Nat) : Option Bool := do
  let saved ← memRead b off 2
  let z ← memWrite b off 2 0
  return (checksum z).toNat == saved

/-! ### The inbound header length -/

/-- `InHdrLen(b)` (R193); `none` is the discard `IpBadHeaderLength`. -/
def inHdrLen (policy : IhlPolicy) (b : Bytes) : Option Nat :=
  let ihl := (Ipv4Header.read b).fields.ihl.toNat
  if ihl = 5 then some 20
  else match policy with
    | .fixed20 => some 20
    | .ihl => if ihl < 5 ∨ b.length < 4 * ihl then none else some (4 * ihl)

/-! ### The fragment plan -/

/-- One fragment of a plan: byte offset, payload length, more-fragments flag (R213). -/
structure Fragment where
  boff : Nat
  n : Nat
  mf : Bool
  deriving DecidableEq, Repr

/-- The loop of R213 from byte offset `boff` on. -/
def fragPlanFrom : Nat → Nat → Nat → Nat → List Fragment
  | 0, boff, len, _ => [⟨boff, len - boff, false⟩]
  | fuel + 1, boff, len, m =>
    if m < len - boff then ⟨boff, m, true⟩ :: fragPlanFrom fuel (boff + m) len m
    else [⟨boff, len - boff, false⟩]

/-- `FragPlan(L, M)` (R213); `L` rounds are enough for `M` positive. -/
def fragPlan (len m : Nat) : List Fragment := fragPlanFrom len 0 len m

/-! ### Packets the engines build -/

/-- `ArpBuild(oper, tha, tpa)` (44_arp.md R174). -/
def arpBuild (c : Config) (oper : Word16) (tha : Mac) (tpa : Ip) : Bytes :=
  be16 arpHtype ++ be16 arpPtype ++ [arpHlen] ++ [arpPlen] ++ be16 oper
    ++ c.localMac.toBytes ++ c.localIp.toBytes ++ tha.toBytes ++ tpa.toBytes

/-- The header assembly of IP.ENCAPSULATE_AND_RESOLVE (46_ip_outbound.md R214), line by line, on the
buffer `d` that BUF.ADD_HEADER has already given 20 new bytes in front of `chunk`. -/
def fillHeader (c : Config) (d chunk : Bytes) (dst : Ip) (proto : Proto8) (ident boff : Nat) (mf : Bool) :
    Option Bytes := do
  let d := putBytes d 0 (List.replicate ipHdrLen 0)
  let d := putBytes d 0 [0x45]
  let d := putBytes d 1 [0x00]
  let d ← memWrite d 2 2 (ipHdrLen + chunk.length)
  let d ← memWrite d 4 2 (ident % 65536)
  let d ← memWrite d 6 2 (flagsOffset c.mfBit mf boff)
  let d := putBytes d 8 [c.ttlDefault]
  let d := putBytes d 9 [proto]
  let d := putBytes d 12 c.localIp.toBytes
  let d := putBytes d 16 dst.toBytes
  memWrite d 10 2 (checksum (slice d 0 ipHdrLen)).toNat

/-- The echo reply to a request message `m` (47_icmp.md R232). -/
def echoReply (m : Bytes) : Option Bytes := do
  let r := putBytes m 0 [icmpEchoReply]
  let r := putBytes r 1 [0]
  let r ← memWrite r 2 2 0
  memWrite r 2 2 (checksum r).toNat

/-- The unreachable message about a datagram `o` with header length `hl` (47_icmp.md R235). -/
def unreachableMessage (o : Bytes) (hl : Nat) (code : Byte) : Option Bytes :=
  let q := slice o 0 (min o.length (hl + 8))
  let u : Bytes := [icmpUnreach, code, 0, 0, 0, 0, 0, 0] ++ q
  memWrite u 2 2 (checksum u).toNat

end Sys2Proof.Machine
end

