-- ==== Sys2Proof/Machine/Ops.lean ====
section
/-! DEFINITION. The named operations over the state that the meanings are made of: the time input and
the free bytes, the two tables, the handler sets, the output ports, dispositions, and the guards. -/

namespace Sys2Proof.Machine

/-- What running an operation comes to. -/
abbrev Run := Host.Outcome State Fault Refusal

/-- Run `k` from the state that `r` ends in. -/
def andThen (r : Run) (k : State → Run) : Run :=
  match r with
  | .next s => k s
  | .fault f => .fault f
  | .refused x => .refused x

/-- Go on with a value, or fault where the spec's access has no meaning. -/
def orFault {α : Type} (v : Option α) (f : Fault) (k : α → Run) : Run :=
  match v with
  | some a => k a
  | none => .fault f

/-! ### The time input and the free bytes -/

/-- The answer of the next reading of the time input (20_memory.md R60): not before the last answer, by
what the environment has fixed, or else by a free amount (log entry 7). -/
def nextTime (s : State) : Nat := s.clock + s.ticks.headD (Config.freeTick s.draws)

/-- The state after the time input has been read once. -/
def tick (s : State) : State :=
  { s with clock := nextTime s, ticks := s.ticks.tail, draws := s.draws + 1 }

/-- The next `n` free bytes (40_byte_buffer.md R131, R133; log entry 8). -/
def freeBytes : Nat → Nat → Bytes
  | 0, _ => []
  | n + 1, k => Config.freeByte k :: freeBytes n (k + 1)

/-- The state after `n` free bytes have been drawn. -/
def draw (n : Nat) (s : State) : State := { s with draws := s.draws + n }

/-- BUF.ADD_HEADER (R131). -/
def addHeader (b : Bytes) (n : Nat) (s : State) : Bytes := freeBytes n s.draws ++ b

/-- BUF.ADD_PADDING (R133). -/
def addPadding (b : Bytes) (n : Nat) (s : State) : Bytes := b ++ freeBytes n s.draws

/-! ### One table (41_expiring_map.md) -/

/-- The order of keys: an address read as a number. It orders the stored list and nothing else. -/
def keyNum (a : Ip) : Nat := ((a.b0.toNat * 256 + a.b1.toNat) * 256 + a.b2.toNat) * 256 + a.b3.toNat

/-- The stored entry under a key, live or stale. -/
def Table.lookup {V : Type} (t : Table V) (k : Ip) : Option (Entry V) := t.store.find? fun e => e.key == k

/-- Is an entry live at `now` (R145)? -/
def Entry.live {V : Type} (e : Entry V) (horizon now : Nat) : Bool := decide (now - e.ts ≤ horizon)

/-- What MAP.GET finds at time `now` (R141). -/
def Table.get {V : Type} (t : Table V) (k : Ip) (now : Nat) : Option V :=
  match t.lookup k with
  | none => none
  | some e => if e.live t.horizon now then some e.val else none

/-- Insert or overwrite an entry, keys strictly rising. -/
def insertEntry {V : Type} (e : Entry V) : List (Entry V) → List (Entry V)
  | [] => [e]
  | x :: xs =>
    if keyNum e.key < keyNum x.key then e :: x :: xs
    else if e.key = x.key then e :: xs
    else x :: insertEntry e xs

/-- `T.store(k) <- some (v, now)` (R142). -/
def Table.put {V : Type} (t : Table V) (k : Ip) (v : V) (now : Nat) : Table V :=
  { t with store := insertEntry ⟨k, v, now⟩ t.store }

/-- `T.store(k) <- none` (R143). -/
def Table.erase {V : Type} (t : Table V) (k : Ip) : Table V :=
  { t with store := t.store.filter fun e => e.key != k }

/-- Is there a slot for the key (93_implementation_defined.md U1; log entry 14)? -/
def Table.hasRoom {V : Type} (t : Table V) (k : Ip) : Bool :=
  match t.capacity with
  | none => true
  | some c => (t.lookup k).isSome || decide (t.store.length < c)

/-- The table MAP.INIT makes (R140). -/
def Table.made (V : Type) (capacity : Option Nat) (expirySeconds : Nat) : Table V :=
  { ready := true, horizon := expirySeconds, capacity := capacity, store := [] }

/-- Are the keys of a stored list strictly rising? -/
def keysRising {V : Type} : List (Entry V) → Bool
  | [] => true
  | [_] => true
  | x :: y :: rest => decide (keyNum x.key < keyNum y.key) && keysRising (y :: rest)

/-- The canonical form of a table. -/
def Table.wf {V : Type} (t : Table V) : Bool := keysRising t.store

/-- The canonical form of the block's storage (20_memory.md R50). -/
def Memory.wf (s : State) : Bool := s.cache.wf && s.pending.wf

/-! ### The two instances -/

/-- MAP.INIT on `CACHE` (R140; U15). -/
def cacheInit (capacity : Option Nat) (expirySeconds : Nat) (s : State) : Run :=
  if s.cache.ready then .refused .tableInUse
  else .next { s with cache := Table.made Mac capacity expirySeconds }

/-- MAP.INIT on `PENDING` (R140; U15). -/
def pendingInit (capacity : Option Nat) (expirySeconds : Nat) (s : State) : Run :=
  if s.pending.ready then .refused .tableInUse
  else .next { s with pending := Table.made Bytes capacity expirySeconds }

/-- MAP.GET on `CACHE` (R141): reads the time, writes nothing else. -/
def cacheGet (k : Ip) (s : State) (cont : Option Mac → State → Run) : Run :=
  if s.cache.ready then cont (s.cache.get k (nextTime s)) (tick s) else .refused .tableNotReady

/-- MAP.GET on `PENDING` (R141). -/
def pendingGet (k : Ip) (s : State) (cont : Option Bytes → State → Run) : Run :=
  if s.pending.ready then cont (s.pending.get k (nextTime s)) (tick s) else .refused .tableNotReady

/-- The state after a MAP.SET on `CACHE` that finds room (R142). -/
def putCache (k : Ip) (v : Mac) (s : State) : State :=
  { tick s with cache := s.cache.put k v (nextTime s) }

/-- The state after a MAP.SET on `PENDING` that finds room (R142). -/
def putPending (k : Ip) (v : Bytes) (s : State) : State :=
  { tick s with pending := s.pending.put k v (nextTime s) }

/-- MAP.SET on `CACHE` (R142; U1). -/
def cacheSet (k : Ip) (v : Mac) (s : State) : Run :=
  if s.cache.ready then
    if s.cache.hasRoom k then .next (putCache k v s) else .refused .tableFull
  else .refused .tableNotReady

/-- MAP.SET on `PENDING` (R142; U1). -/
def pendingSet (k : Ip) (v : Bytes) (s : State) : Run :=
  if s.pending.ready then
    if s.pending.hasRoom k then .next (putPending k v s) else .refused .tableFull
  else .refused .tableNotReady

/-- The state after MAP.DELETE on `CACHE` (R143). -/
def dropCache (k : Ip) (s : State) : State := { s with cache := s.cache.erase k }

/-- The state after MAP.DELETE on `PENDING` (R143). -/
def dropPending (k : Ip) (s : State) : State := { s with pending := s.pending.erase k }

/-- MAP.DELETE on `CACHE` (R143). -/
def cacheDelete (k : Ip) (s : State) : Run :=
  if s.cache.ready then .next (dropCache k s) else .refused .tableNotReady

/-- MAP.DELETE on `PENDING` (R143). -/
def pendingDelete (k : Ip) (s : State) : Run :=
  if s.pending.ready then .next (dropPending k s) else .refused .tableNotReady

/-! ### The handler sets -/

/-- A set of numbers with one more member, strictly rising. -/
def insertNum {w : Nat} (v : BitVec w) : List (BitVec w) → List (BitVec w)
  | [] => [v]
  | x :: xs => if v.toNat < x.toNat then v :: x :: xs else if v = x then x :: xs else x :: insertNum v xs

/-- IP.REGISTER (45_ip_inbound.md R190). -/
def registerProtocol (p : Proto8) (s : State) : State := { s with registered := insertNum p s.registered }

/-! ### Outputs, results, dispositions -/

/-- `emit PORT(args)` (00_scope.md R10). -/
def emit (o : Output) (s : State) : State := { s with outbox := s.outbox ++ [o] }

/-- FD.REGISTER (42_frame_dispatcher.md R152). -/
def fdRegister (p : Proto16) (s : State) : State :=
  emit (.fdRegister p) { s with fdRegistered := insertNum p s.fdRegistered }

/-- Note a disposition (60_exceptions.md R251): the operation ends, nothing else is written (R255). -/
def dispose (c : Cause) (s : State) : State := { s with causes := s.causes ++ [c] }

/-- `discard <Cause>` and `drop <Cause>` (R10, R255). -/
def discard (c : Cause) (s : State) : Run := .next (dispose c s)

/-- Return a value to the caller. -/
def giveBack (r : Ret) (s : State) : State := { s with ret := r }

/-! ### Guards -/

/-- Every operation presupposes a well-formed configuration (00_scope.md R8). -/
def whenConfigured (s : State) (k : State → Run) : Run :=
  if s.cfg.wf then k s else .refused .illFormedConfig

/-- An input port takes a transaction only after RESET has completed (70_reset_and_hazards.md R284). -/
def atPort (s : State) (k : State → Run) : Run :=
  whenConfigured s fun s =>
    match s.phase with
    | .running => k s
    | .awaitingReset => .refused .beforeReset

end Sys2Proof.Machine
end

