-- ==== Sys2Proof/Machine/Buffer.lean ====
section
/-! DEFINITION. The meanings of the Byte Buffer operations (40_byte_buffer.md R131 to R134). -/

namespace Sys2Proof.Machine

/-- BUF.ADD_HEADER (R131): `n` bytes of any value in front. -/
def execBufAddHeader (b : Bytes) (n : Nat) (s : State) : Run :=
  whenConfigured s fun s => .next (giveBack (.bytes (addHeader b n s)) (draw n s))

/-- BUF.REMOVE_HEADER (R132). -/
def execBufRemoveHeader (b : Bytes) (n : Nat) (s : State) : Run :=
  whenConfigured s fun s =>
    orFault (removeHeader b n) .removeBeyondBuffer fun r => .next (giveBack (.bytes r) s)

/-- BUF.ADD_PADDING (R133): `n` bytes of any value behind. -/
def execBufAddPadding (b : Bytes) (n : Nat) (s : State) : Run :=
  whenConfigured s fun s => .next (giveBack (.bytes (addPadding b n s)) (draw n s))

/-- BUF.REMOVE_PADDING (R134). -/
def execBufRemovePadding (b : Bytes) (n : Nat) (s : State) : Run :=
  whenConfigured s fun s =>
    orFault (removePadding b n) .removeBeyondBuffer fun r => .next (giveBack (.bytes r) s)

end Sys2Proof.Machine
end

