-- ==== Sys2Proof/Machine/Checksum.lean ====
section
/-! DEFINITION. The meanings of the checksum operations (43_checksum.md R160, R162). -/

namespace Sys2Proof.Machine

/-- CKSUM16 (R160). -/
def execCksum16 (b : Bytes) (s : State) : Run :=
  whenConfigured s fun s => .next (giveBack (.word (checksum b)) s)

/-- CKSUM16.VERIFY (R162). -/
def execCksum16Verify (b : Bytes) (off : Nat) (s : State) : Run :=
  whenConfigured s fun s =>
    orFault (verifyChecksum b off) .memoryRange fun ok => .next (giveBack (.flag ok) s)

end Sys2Proof.Machine
end

