-- ==== Sys2Proof/Machine/Arp.lean ====
section
/-! DEFINITION. The ARP Engine (44_arp.md). -/

namespace Sys2Proof.Machine

/-- ARP.SEND_REQUEST (R171). -/
def sendRequest (target : Ip) (s : State) : State :=
  emit (.fdTransmit (arpBuild s.cfg arpOpRequest Mac.zero target) Mac.broadcast s.cfg.protoArp) s

/-- ARP.SEND_REPLY (R173). -/
def sendReply (target : Ip) (link : Mac) (s : State) : State :=
  emit (.fdTransmit (arpBuild s.cfg arpOpReply link target) link s.cfg.protoArp) s

/-- ARP.INIT (R170): two MAP.INIT, the probe, the registration, in this order (D21). -/
def initArp (s : State) : Run :=
  andThen (cacheInit s.cfg.arpCapacity s.cfg.arpTimeout s) fun s =>
    andThen (pendingInit s.cfg.pendingCapacity s.cfg.arpPendingInterval s) fun s =>
      .next (fdRegister s.cfg.protoArp (sendRequest s.cfg.localIp s))

/-- ARP.RESOLVE_AND_SEND (R172). -/
def resolveAndSend (datagram : Bytes) (dst : Ip) (s : State) : Run :=
  cacheGet dst s fun hit s =>
    match hit with
    | some mac => .next (emit (.fdTransmit datagram mac s.cfg.protoIp) s)
    | none =>
      pendingGet dst s fun held s =>
        match held with
        | some _ => discard .arpResolutionInFlight s
        | none => andThen (pendingSet dst datagram s) fun s => .next (sendRequest dst s)

/-- ARP.ON_PACKET (R176). The frame's source address is not read (D22). The block's own probe looped back, a request
with `spa = tpa = LOCAL_IP`, is answered, as the pseudocode of R176 has it; T-ARP-13 of 95_test_vectors.md has no
output there, and 90_conflicts.md is silent (DEDUCED, log entry 33; unsafe). -/
def onPacket (packet : Bytes) (s : State) : Run :=
  if packet.length < arpLen then discard .arpTooShort s
  else
    let p := ArpPacket.read packet
    if p.constantsOk = false ∨ (p.oper ≠ arpOpRequest ∧ p.oper ≠ arpOpReply) then discard .arpBadFixedField s
    else
      let a := p.addresses
      andThen (cacheSet a.spa a.sha s) fun s =>
        pendingGet a.spa s fun held s =>
          match held with
          | some dgram => .next (dropPending a.spa (emit (.fdTransmit dgram a.sha s.cfg.protoIp) s))
          | none =>
            if p.oper = arpOpRequest ∧ a.tpa = s.cfg.localIp then .next (sendReply a.spa a.sha s)
            else .next s

/-- ARP.INIT. -/
def execArpInit (s : State) : Run := whenConfigured s initArp

/-- ARP.SEND_REQUEST. -/
def execArpSendRequest (target : Ip) (s : State) : Run :=
  whenConfigured s fun s => .next (sendRequest target s)

/-- ARP.RESOLVE_AND_SEND. -/
def execArpResolveAndSend (datagram : Bytes) (dst : Ip) (s : State) : Run :=
  whenConfigured s (resolveAndSend datagram dst)

/-- ARP.SEND_REPLY. -/
def execArpSendReply (target : Ip) (link : Mac) (s : State) : Run :=
  whenConfigured s fun s => .next (sendReply target link s)

/-- ARP.ON_PACKET. -/
def execArpOnPacket (packet : Bytes) (_sourceLink : Mac) (s : State) : Run :=
  whenConfigured s (onPacket packet)

/-- ARP.ON_PACKET/REQUEST: ARP.ON_PACKET of the packet that the row selects. -/
def execArpOnPacketRequest (a : ArpAddresses) (trailer : Bytes) (_sourceLink : Mac) (s : State) : Run :=
  whenConfigured s (onPacket (arpRowBytes arpOpRequest a trailer))

/-- ARP.ON_PACKET/REPLY: ARP.ON_PACKET of the packet that the row selects. -/
def execArpOnPacketReply (a : ArpAddresses) (trailer : Bytes) (_sourceLink : Mac) (s : State) : Run :=
  whenConfigured s (onPacket (arpRowBytes arpOpReply a trailer))

end Sys2Proof.Machine
end

