-- ==== Sys2Proof/Machine/Outbound.lean ====
section
/-! DEFINITION. The IP Engine's outbound path: fragmentation and header encapsulation (46_ip_outbound.md). -/

namespace Sys2Proof.Machine

/-- IP.ENCAPSULATE_AND_RESOLVE (R214). -/
def encapsulateAndResolve (chunk : Bytes) (dst : Ip) (proto : Proto8) (ident boff : Nat) (mf : Bool) (s : State) : Run :=
  orFault (fillHeader s.cfg (addHeader chunk ipHdrLen s) chunk dst proto ident boff mf) .memoryRange fun d =>
    resolveAndSend d dst (draw ipHdrLen s)

/-- The fragment loop of IP.SEND (R211). -/
def sendFragments (buffer : Bytes) (dst : Ip) (proto : Proto8) (ident : Nat) : List Fragment → State → Run
  | [], s => .next s
  | f :: fs, s =>
    andThen (encapsulateAndResolve (slice buffer f.boff (f.boff + f.n)) dst proto ident f.boff f.mf s)
      (sendFragments buffer dst proto ident fs)

/-- The longest payload IP.SEND takes (R212(a)). -/
abbrev maxSend : Nat := 65535 - ipHdrLen

/-- IP.SEND (R211): the identifier is the counter before its increment (D9). -/
def sendDatagram (buffer : Bytes) (dst : Ip) (proto : Proto8) (s : State) : Run :=
  if maxSend < buffer.length then .refused .payloadTooLong
  else
    sendFragments buffer dst proto s.idctr (fragPlan buffer.length s.cfg.maxPayload) { s with idctr := s.idctr + 1 }

/-- IP.SEND at its port. -/
def execIpSend (buffer : Bytes) (dst : Ip) (proto : Proto8) (s : State) : Run :=
  atPort s (sendDatagram buffer dst proto)

/-- IP.SEND as an internal call. -/
def execIpSendCall (buffer : Bytes) (dst : Ip) (proto : Proto8) (s : State) : Run :=
  whenConfigured s (sendDatagram buffer dst proto)

/-- IP.ENCAPSULATE_AND_RESOLVE. -/
def execIpEncapsulateAndResolve (chunk : Bytes) (dst : Ip) (proto : Proto8) (ident boff : Nat) (mf : Bool)
    (s : State) : Run :=
  whenConfigured s (encapsulateAndResolve chunk dst proto ident boff mf)

end Sys2Proof.Machine
end

