-- ==== Sys2Proof/Machine/Icmp.lean ====
section
/-! DEFINITION. The ICMP Engine (47_icmp.md). -/

namespace Sys2Proof.Machine

/-- ICMP.INIT (R230). -/
def initIcmp (s : State) : State := registerProtocol ipProtoIcmp s

/-- ICMP.ON_MESSAGE (R232). -/
def onMessage (m : Bytes) (source : Ip) (s : State) : Run :=
  if m.length < icmpHdrLen then discard .icmpTooShort s
  else if byteAt m 0 ≠ icmpEchoRequest then discard .icmpIgnoredType s
  else orFault (echoReply m) .memoryRange fun r => sendDatagram r source ipProtoIcmp s

/-- ICMP.SEND_UNREACHABLE (R235), refused without a complete header. -/
def sendUnreachable (o : Bytes) (dst : Ip) (code : Byte) (s : State) : Run :=
  if o.length < ipHdrLen then .refused .noCompleteHeader
  else
    match inHdrLen s.cfg.ihlPolicy o with
    | none => .refused .noCompleteHeader
    | some hl =>
      orFault (unreachableMessage o hl code) .memoryRange fun u => sendDatagram u dst ipProtoIcmp s

/-- ICMP.INIT. -/
def execIcmpInit (s : State) : Run := whenConfigured s fun s => .next (initIcmp s)

/-- ICMP.ON_MESSAGE. -/
def execIcmpOnMessage (m : Bytes) (source : Ip) (s : State) : Run :=
  whenConfigured s (onMessage m source)

/-- ICMP.ON_MESSAGE/ECHO_REQUEST: ICMP.ON_MESSAGE of the message that the row selects. -/
def execIcmpOnMessageEchoRequest (code : Byte) (ics ident seq : Word16) (payload : Bytes) (source : Ip)
    (s : State) : Run :=
  whenConfigured s (onMessage (echoRequestBytes code ics ident seq payload) source)

/-- ICMP.SEND_UNREACHABLE at its port. -/
def execIcmpSendUnreachable (o : Bytes) (dst : Ip) (code : Byte) (s : State) : Run :=
  atPort s (sendUnreachable o dst code)

/-- ICMP.SEND_UNREACHABLE as an internal call. -/
def execIcmpSendUnreachableCall (o : Bytes) (dst : Ip) (code : Byte) (s : State) : Run :=
  whenConfigured s (sendUnreachable o dst code)

end Sys2Proof.Machine
end

