-- ==== Sys2Proof/Machine/Inbound.lean ====
section
/-! DEFINITION. The IP Engine's inbound path and registration (45_ip_inbound.md). -/

namespace Sys2Proof.Machine

/-- The dispositions of steps 1 to 5 of R192, all silent, or what passes them: the header length and the
datagram with its padding removed. A fault is an access with no meaning, which no datagram reaches (R56). -/
inductive Inspection where
  | reject (c : Cause)
  | stuck (f : Fault)
  | accept (hl : Nat) (b : Bytes)
  deriving DecidableEq, Repr

/-- Step 5 of R192 (R195). -/
def stripPadding (b : Bytes) (tlen : Nat) : Option Bytes :=
  if tlen < b.length then removePadding b (b.length - tlen) else some b

/-- Steps 1 to 5 of IP.ON_DATAGRAM (R192, R193, R195), in the order that decides the cause (60_exceptions.md R254). -/
def inspect (c : Config) (b : Bytes) : Inspection :=
  if b.length < ipHdrLen then .reject .ipTooShort
  else
    let h := Ipv4Header.read b
    if h.ver ≠ 4 then .reject .ipBadVersion
    else
      match inHdrLen c.ihlPolicy b with
      | none => .reject .ipBadHeaderLength
      | some hl =>
        match verifyChecksum (slice b 0 hl) 10 with
        | none => .stuck .memoryRange
        | some false => .reject .ipBadChecksum
        | some true =>
          if h.fields.dst ≠ c.localIp then .reject .ipNotForUs
          else if h.fields.tlen.toNat < hl then .reject .ipBadTotalLength
          else
            match stripPadding b h.fields.tlen.toNat with
            | none => .stuck .removeBeyondBuffer
            | some b => .accept hl b

/-- Steps 6 and 7 of R192 (R198). -/
def dispatchDatagram (hl : Nat) (b : Bytes) (s : State) : Run :=
  let proto := byteAt b 9
  let src := ipAt b 12
  if proto ∉ s.registered then
    andThen (sendUnreachable b src s.cfg.codeProtoUnreach s) (discard .ipProtoUnreachable)
  else
    orFault (removeHeader b hl) .removeBeyondBuffer fun payload =>
      if proto = ipProtoIcmp then onMessage payload src s
      else .next (emit (.upDeliver proto payload src) s)

/-- IP.ON_DATAGRAM (R192). The frame's source address is not read (D22). -/
def onDatagram (b : Bytes) (s : State) : Run :=
  match inspect s.cfg b with
  | .reject c => discard c s
  | .stuck f => .fault f
  | .accept hl b => dispatchDatagram hl b s

/-- IP.INIT (R191). -/
def initIp (s : State) : State := fdRegister s.cfg.protoIp s

/-- IP.REGISTER at its port (R190). -/
def execIpRegister (p : Proto8) (s : State) : Run :=
  atPort s fun s => .next (registerProtocol p s)

/-- IP.INIT. -/
def execIpInit (s : State) : Run := whenConfigured s fun s => .next (initIp s)

/-- IP.ON_DATAGRAM. -/
def execIpOnDatagram (b : Bytes) (_sourceLink : Mac) (s : State) : Run :=
  whenConfigured s (onDatagram b)

/-- IP.ON_DATAGRAM/V4: IP.ON_DATAGRAM of the datagram that the row selects. -/
def execIpOnDatagramV4 (p : Proto8) (f : Ipv4Fields) (rest : Bytes) (_sourceLink : Mac) (s : State) : Run :=
  whenConfigured s (onDatagram (datagramRowBytes p f rest))

/-- IP.ON_DATAGRAM/PROTO_ICMP: IP.ON_DATAGRAM of the datagram that the row selects. -/
def execIpOnDatagramProtoIcmp (f : Ipv4Fields) (rest : Bytes) (_sourceLink : Mac) (s : State) : Run :=
  whenConfigured s (onDatagram (datagramRowBytes ipProtoIcmp f rest))

/-- IP.ON_DATAGRAM/PROTO_OTHER: IP.ON_DATAGRAM of the datagram that the row selects. -/
def execIpOnDatagramProtoOther (f : Ipv4Fields) (rest : Bytes) (_sourceLink : Mac) (s : State) : Run :=
  whenConfigured s (onDatagram (datagramRowBytes ipProtoOther f rest))

end Sys2Proof.Machine
end

