-- ==== Sys2Proof/Machine/Dispatcher.lean ====
section
/-! DEFINITION. The Frame Dispatcher's operations (42_frame_dispatcher.md), the output ports
(30_encoding.md R82) and RESET (70_reset_and_hazards.md R280, R281). -/

namespace Sys2Proof.Machine

/-- FD.DELIVER (R150). A frame with no handler never reaches the core. -/
def deliver (payload : Bytes) (p : Proto16) (s : State) : Run :=
  if p = s.cfg.protoArp ∧ s.cfg.protoArp ∈ s.fdRegistered then onPacket payload s
  else if p = s.cfg.protoIp ∧ s.cfg.protoIp ∈ s.fdRegistered then onDatagram payload s
  else .next s

/-- FD.POLL (R153): at most one frame from the Driver. -/
def poll (s : State) : Run :=
  match s.driver with
  | [] => .next s
  | f :: rest => atPort { s with driver := rest } (deliver f.payload f.protocolNumber)

/-- Step (1) of RESET (R280): every state item at its reset value (10_state.md R32). -/
def clearState (s : State) : State :=
  { s with
    idctr := s.cfg.idInit
    cache := Table.absent
    pending := Table.absent
    registered := []
    fdRegistered := [] }

/-- The initialisation sequence (R281). -/
def initialise (s : State) : Run :=
  andThen (initArp s) fun s => .next (initIcmp (initIp s))

/-- RESET (R280); a second one is refused (R284). -/
def resetBlock (s : State) : Run :=
  match s.phase with
  | .running => .refused .secondReset
  | .awaitingReset => andThen (initialise (clearState s)) fun s => .next { s with phase := .running }

/-- RESET. -/
def execReset (s : State) : Run := whenConfigured s resetBlock

/-- FD.DELIVER. -/
def execFdDeliver (payload : Bytes) (p : Proto16) (_sourceLink : Mac) (s : State) : Run :=
  atPort s (deliver payload p)

/-- FD.DELIVER/ARP: protocol number 0x0806, as the row's pattern says (R102). -/
def execFdDeliverArp (payload : Bytes) (_sourceLink : Mac) (s : State) : Run :=
  atPort s (deliver payload 0x0806)

/-- FD.DELIVER/IP: protocol number 0x0800, as the row's pattern says (R102). -/
def execFdDeliverIp (payload : Bytes) (_sourceLink : Mac) (s : State) : Run :=
  atPort s (deliver payload 0x0800)

/-- FD.POLL. -/
def execFdPoll (s : State) : Run := whenConfigured s poll

/-- FD.TRANSMIT (R151). -/
def execFdTransmit (payload : Bytes) (link : Mac) (p : Proto16) (s : State) : Run :=
  whenConfigured s fun s => .next (emit (.fdTransmit payload link p) s)

/-- FD.REGISTER (R152). -/
def execFdRegister (p : Proto16) (s : State) : Run :=
  whenConfigured s fun s => .next (fdRegister p s)

/-- UP.DELIVER (R82). -/
def execUpDeliver (p : Proto8) (payload : Bytes) (source : Ip) (s : State) : Run :=
  whenConfigured s fun s => .next (emit (.upDeliver p payload source) s)

end Sys2Proof.Machine
end

