-- ==== Sys2Proof/Machine/Map.lean ====
section
/-! DEFINITION. The meanings of the Expiring Map operations (41_expiring_map.md R140 to R144). -/

namespace Sys2Proof.Machine

/-- MAP.INIT (R140). The sizes and the copy function have no effect in the value semantics of R130 and
R135 (log entry 12). -/
def execMapInit (t : TableId) (_keySize _valueSize : Nat) (capacity : Option Nat) (expirySeconds : Nat)
    (_copyFn : Bool) (s : State) : Run :=
  whenConfigured s fun s =>
    match t with
    | .cache => cacheInit capacity expirySeconds s
    | .pending => pendingInit capacity expirySeconds s

/-- MAP.GET (R141). -/
def execMapGet (t : TableId) (k : Ip) (s : State) : Run :=
  whenConfigured s fun s =>
    match t with
    | .cache => cacheGet k s fun v s => .next (giveBack (.found (v.map .cache)) s)
    | .pending => pendingGet k s fun v s => .next (giveBack (.found (v.map .pending)) s)

/-- MAP.SET (R142). -/
def execMapSet (k : Ip) (v : TableValue) (s : State) : Run :=
  whenConfigured s fun s =>
    match v with
    | .cache mac => cacheSet k mac s
    | .pending d => pendingSet k d s

/-- MAP.DELETE (R143). -/
def execMapDelete (t : TableId) (k : Ip) (s : State) : Run :=
  whenConfigured s fun s =>
    match t with
    | .cache => cacheDelete k s
    | .pending => pendingDelete k s

/-- Has the table been made? -/
def tableReady (t : TableId) (s : State) : Bool :=
  match t with
  | .cache => s.cache.ready
  | .pending => s.pending.ready

/-- MAP.FOR_EACH (R144): "it must not change T"; a mutating visitor is refused (U5; log entry 15). -/
def execMapForEach (t : TableId) (v : Visitor) (s : State) : Run :=
  whenConfigured s fun s =>
    if tableReady t s then
      match v with
      | .readOnly => .next s
      | .mutating => .refused .mutatingVisitor
    else .refused .tableNotReady

end Sys2Proof.Machine
end

