-- ==== Sys2Proof/Machine/Dispatch.lean ====
section
/-! DEFINITION. Each operation to its meaning. -/

namespace Sys2Proof.Machine

def exec (i : Instr) (s : State) : Host.Outcome State Fault Refusal :=
  match i with
  | .reset => Sys2Proof.Machine.execReset s
  | .fdDeliver payload p src => Sys2Proof.Machine.execFdDeliver payload p src s
  | .fdDeliverArp payload src => Sys2Proof.Machine.execFdDeliverArp payload src s
  | .fdDeliverIp payload src => Sys2Proof.Machine.execFdDeliverIp payload src s
  | .ipSend b d p => Sys2Proof.Machine.execIpSend b d p s
  | .icmpSendUnreachable o d c => Sys2Proof.Machine.execIcmpSendUnreachable o d c s
  | .ipRegister p => Sys2Proof.Machine.execIpRegister p s
  | .fdTransmit payload d p => Sys2Proof.Machine.execFdTransmit payload d p s
  | .fdRegister p => Sys2Proof.Machine.execFdRegister p s
  | .fdPoll => Sys2Proof.Machine.execFdPoll s
  | .bufAddHeader b n => Sys2Proof.Machine.execBufAddHeader b n s
  | .bufRemoveHeader b n => Sys2Proof.Machine.execBufRemoveHeader b n s
  | .bufAddPadding b n => Sys2Proof.Machine.execBufAddPadding b n s
  | .bufRemovePadding b n => Sys2Proof.Machine.execBufRemovePadding b n s
  | .mapInit t k v c e f => Sys2Proof.Machine.execMapInit t k v c e f s
  | .mapGet t k => Sys2Proof.Machine.execMapGet t k s
  | .mapSet k v => Sys2Proof.Machine.execMapSet k v s
  | .mapDelete t k => Sys2Proof.Machine.execMapDelete t k s
  | .mapForEach t v => Sys2Proof.Machine.execMapForEach t v s
  | .cksum16 b => Sys2Proof.Machine.execCksum16 b s
  | .cksum16Verify b off => Sys2Proof.Machine.execCksum16Verify b off s
  | .arpInit => Sys2Proof.Machine.execArpInit s
  | .arpSendRequest t => Sys2Proof.Machine.execArpSendRequest t s
  | .arpResolveAndSend g d => Sys2Proof.Machine.execArpResolveAndSend g d s
  | .arpSendReply t l => Sys2Proof.Machine.execArpSendReply t l s
  | .arpOnPacket packet src => Sys2Proof.Machine.execArpOnPacket packet src s
  | .arpOnPacketRequest a r src => Sys2Proof.Machine.execArpOnPacketRequest a r src s
  | .arpOnPacketReply a r src => Sys2Proof.Machine.execArpOnPacketReply a r src s
  | .ipInit => Sys2Proof.Machine.execIpInit s
  | .ipOnDatagram b src => Sys2Proof.Machine.execIpOnDatagram b src s
  | .ipOnDatagramV4 p f r src => Sys2Proof.Machine.execIpOnDatagramV4 p f r src s
  | .ipOnDatagramProtoIcmp f r src => Sys2Proof.Machine.execIpOnDatagramProtoIcmp f r src s
  | .ipOnDatagramProtoOther f r src => Sys2Proof.Machine.execIpOnDatagramProtoOther f r src s
  | .upDeliver p payload src => Sys2Proof.Machine.execUpDeliver p payload src s
  | .ipSendCall b d p => Sys2Proof.Machine.execIpSendCall b d p s
  | .ipEncapsulateAndResolve c d p ident boff mf => Sys2Proof.Machine.execIpEncapsulateAndResolve c d p ident boff mf s
  | .icmpInit => Sys2Proof.Machine.execIcmpInit s
  | .icmpOnMessage m src => Sys2Proof.Machine.execIcmpOnMessage m src s
  | .icmpOnMessageEchoRequest code ics ident seq payload src => Sys2Proof.Machine.execIcmpOnMessageEchoRequest code ics ident seq payload src s
  | .icmpSendUnreachableCall o d c => Sys2Proof.Machine.execIcmpSendUnreachableCall o d c s

end Sys2Proof.Machine
end

