-- ==== Sys2Proof/Machine/Step.lean ====
section
/-! DEFINITION. One step: one top-level invocation (10_state.md R22). -/

namespace Sys2Proof.Machine

/-- The state in which the operation of the next transaction runs: the transaction is taken, and the
notes of the last invocation are gone. -/
def State.taking (s : State) (rest : List Transaction) : State :=
  { s with inbox := rest, causes := [], ret := .none }

/-- Take the next input transaction and run it to completion (00_scope.md R3). With none presented the
block is idle and holds its state (60_exceptions.md R267). -/
def step (s : State) : Host.Outcome State Fault Refusal :=
  match s.inbox with
  | [] => .next s
  | t :: rest =>
    match decode t with
    | .error why => .refused (.malformedTransaction why)
    | .ok i => exec i (s.taking rest)

/-- A block that has been initialised: as it is, or after RESET where RESET has not run (log entry 3). -/
def State.initialised (s : State) : State :=
  match s.phase with
  | .running => s
  | .awaitingReset =>
    match exec .reset s with
    | .next t => t
    | _ => s

/-- `s`, initialised, with the operation of a pattern word of the opcode table presented as the next
transaction. A word of no pattern is presented as a transaction that no row has. -/
def State.withFetchWord (s : State) (nbits w : Nat) : State :=
  { s.initialised with
    inbox := (tableTransaction nbits w).getD ⟨.reset, [.num w]⟩ :: s.initialised.inbox }

end Sys2Proof.Machine
end

