-- ==== Sys2Proof/Safety.lean ====
section
/-! DEFINITION. The terms in which claims are made: which transactions the environment may present,
when the block can serve them, what its tables may hold, and the invariants. -/

namespace Sys2Proof

/-- Is it an input port (30_encoding.md R81), or the host's receive step (42_frame_dispatcher.md R153)?
The other selectors carry operations that only the block itself performs (log entry 2). -/
def Selector.isInput : Selector → Bool
  | .reset | .fdDeliver | .ipSend | .icmpSendUnreachable | .ipRegister | .fdPoll => true
  | .fdTransmit | .fdRegister | .bufAddHeader | .bufRemoveHeader | .bufAddPadding | .bufRemovePadding
  | .mapInit | .mapGet | .mapSet | .mapDelete | .mapForEach | .cksum16 | .cksum16Verify
  | .arpInit | .arpSendRequest | .arpResolveAndSend | .arpSendReply | .arpOnPacket
  | .ipInit | .ipOnDatagram | .upDeliver | .ipSendCall | .ipEncapsulateAndResolve
  | .icmpInit | .icmpOnMessage | .icmpSendUnreachableCall => false

/-- Is the operation one that the environment can start? -/
def Instr.isInput (i : Instr) : Bool := (encode i).sel.isInput

namespace Machine

/-- Only input transactions are presented. -/
def State.InputsOnly (s : State) : Prop := ∀ t ∈ s.inbox, t.sel.isInput = true

/-- The configuration is well-formed and both tables have been made. -/
def State.TablesReady (s : State) : Prop := s.cfg.wf = true ∧ s.cache.ready = true ∧ s.pending.ready = true

/-- RESET has completed, and what it has set up is there (70_reset_and_hazards.md R284). -/
def State.Operational (s : State) : Prop := s.TablesReady ∧ s.phase = .running

/-- Every key has room in both tables, as it always has in unbounded ones (92_eei_decisions.md D13). -/
def State.Roomy (s : State) : Prop := ∀ k, s.cache.hasRoom k = true ∧ s.pending.hasRoom k = true

/-- `s` with the time input and the free values advanced as far as in `t`. -/
def State.atTimeOf (s t : State) : State := { s with clock := t.clock, ticks := t.ticks, draws := t.draws }

/-- The clock after `n` fragments whose destination is found in `CACHE`: each draws its header's bytes
and reads the time once (46_ip_outbound.md R214, 44_arp.md R172). -/
def clockAfterHits : Nat → State → Nat
  | 0, s => s.clock
  | n + 1, s => clockAfterHits n (tick (draw ipHdrLen s))

/-- The IPv4 header of a fragment (30_encoding.md R91 to R93), but for its checksum. -/
def headerOf (c : Config) (dst : Ip) (proto : Proto8) (ident boff len : Nat) (mf : Bool) (hcs : Word16) : Ipv4Header where
  ver := 4
  proto := proto
  fields := {
    ihl := 5
    tos := 0
    tlen := BitVec.ofNat 16 (ipHdrLen + len)
    id := BitVec.ofNat 16 ident
    fo := BitVec.ofNat 16 (flagsOffset c.mfBit mf boff)
    ttl := c.ttlDefault
    hcs := hcs
    src := c.localIp
    dst := dst }

/-- `d` is the datagram of a fragment: its header, with a checksum that verifies, and its payload. -/
def FragmentDatagram (c : Config) (dst : Ip) (proto : Proto8) (ident boff : Nat) (mf : Bool) (chunk d : Bytes) : Prop :=
  ∃ hcs, d = (headerOf c dst proto ident boff chunk.length mf hcs).toBytes ++ chunk ∧
    verifyChecksum (headerOf c dst proto ident boff chunk.length mf hcs).toBytes 10 = some true

/-- The datagram passes steps 1 to 5 of IP.ON_DATAGRAM with header length `hl` (45_ip_inbound.md R192). -/
structure Accepts (c : Config) (b : Bytes) (hl : Nat) : Prop where
  long : ipHdrLen ≤ b.length
  version : (Ipv4Header.read b).ver = 4
  header : inHdrLen c.ihlPolicy b = some hl
  checksum : verifyChecksum (slice b 0 hl) 10 = some true
  forUs : (Ipv4Header.read b).fields.dst = c.localIp
  total : hl ≤ (Ipv4Header.read b).fields.tlen.toNat

/-- The datagram without what follows its declared total length (45_ip_inbound.md R195). -/
def trimmed (b : Bytes) : Bytes := b.take (Ipv4Header.read b).fields.tlen.toNat

/-- A well-formed output of IP.ENCAPSULATE_AND_RESOLVE to `dst` (46_ip_outbound.md R214): the header
fields it writes, a checksum that verifies, a length within the MTU. -/
def DatagramTo (c : Config) (dst : Ip) (d : Bytes) : Prop :=
  ipHdrLen ≤ d.length ∧ d.length ≤ c.mtu ∧
  (Ipv4Header.read d).ver = 4 ∧ (Ipv4Header.read d).fields.ihl = 5 ∧ (Ipv4Header.read d).fields.tos = 0 ∧
  (Ipv4Header.read d).fields.tlen.toNat = d.length ∧ (Ipv4Header.read d).fields.ttl = c.ttlDefault ∧
  (Ipv4Header.read d).fields.src = c.localIp ∧ (Ipv4Header.read d).fields.dst = dst ∧
  verifyChecksum (slice d 0 ipHdrLen) 10 = some true

/-- The members of a handler set strictly rising. -/
def numsRising {w : Nat} : List (BitVec w) → Bool
  | [] => true
  | [_] => true
  | x :: y :: rest => decide (x.toNat < y.toNat) && numsRising (y :: rest)

/-- The canonical form of the whole state: tables and handler sets strictly rising, no timestamp later
than the last answer of the time input (10_state.md R33(d)). -/
structure State.Canonical (s : State) : Prop where
  memory : Memory.wf s = true
  registered : numsRising s.registered = true
  fdRegistered : numsRising s.fdRegistered = true
  cacheTimes : ∀ e ∈ s.cache.store, e.ts ≤ s.clock
  pendingTimes : ∀ e ∈ s.pending.store, e.ts ≤ s.clock

/-- No destination is both resolved and pending, now or at any later time (44_arp.md R179). -/
def State.Exclusive (s : State) : Prop :=
  ∀ k now, s.clock ≤ now → s.cache.get k now = none ∨ s.pending.get k now = none

/-- Every pending datagram is a well-formed datagram to its key (10_state.md R33(a)). -/
def State.PendingWellFormed (s : State) : Prop := ∀ e ∈ s.pending.store, DatagramTo s.cfg e.key e.val

/-- What RESET has set up is still there while the block runs (70_reset_and_hazards.md R282; 10_state.md R33(c)). -/
def State.SetUp (s : State) : Prop :=
  s.phase = .running →
    s.cache.ready = true ∧ s.pending.ready = true ∧
    s.cache.horizon = s.cfg.arpTimeout ∧ s.pending.horizon = s.cfg.arpPendingInterval ∧
    s.cache.capacity = s.cfg.arpCapacity ∧ s.pending.capacity = s.cfg.pendingCapacity ∧
    ipProtoIcmp ∈ s.registered ∧
    ∀ p, p ∈ s.fdRegistered ↔ p = s.cfg.protoArp ∨ p = s.cfg.protoIp

end Machine

end Sys2Proof
end

