-- ==== Sys2Proof/Certificates/Slice0/Obligations.lean ====
section
/-! DEFINITION. The statements about NETCORE for the provers. Each docstring names the rules of spec/
that the statement formalises, and the log entries of the model's choices it rests on. -/

open Sys2Proof Sys2Proof.Machine

/-! ### Encoding, decoding and the step -/

/-- Decoding the transaction of a well-formed operation gives the operation back, for all 40 rows and
every operand (30_encoding.md R86, R102; log entries 1, 29). -/
def Obligations.DecodeInvertsEncode : Prop :=
  ∀ i : Instr, i.wellFormed = true → decode (encode i) = .ok i

/-- A transaction that decodes is the encoding of what it decodes to, which is well-formed: no bit of a
packet is dropped and no transaction has two operations (R86; log entries 1, 29). -/
def Obligations.EncodeInvertsDecode : Prop :=
  ∀ (t : Transaction) (i : Instr), decode t = .ok i → encode i = t ∧ i.wellFormed = true

/-- The pattern words of spec/opcode_table.json select their rows (R102, R86). How a word is presented (the port
that its width selects, no payload, every byte after the pattern zero) is the model's choice, log entry 3, and so
are the rows 0x0806 and 0x0800 whatever the configured protocol numbers, log entry 29. -/
def Obligations.TablePatternsDecode : Prop :=
  decodeTableWord 16 0x0806 = some (.fdDeliverArp [] Mac.zero) ∧
  decodeTableWord 16 0x0800 = some (.fdDeliverIp [] Mac.zero) ∧
  decodeTableWord 64 0x0001080006040001 =
    some (.arpOnPacketRequest ⟨Mac.zero, Ip.zero, Mac.zero, Ip.zero⟩ [] Mac.zero) ∧
  decodeTableWord 64 0x0001080006040002 =
    some (.arpOnPacketReply ⟨Mac.zero, Ip.zero, Mac.zero, Ip.zero⟩ [] Mac.zero) ∧
  decodeTableWord 80 0x40000000000000000001 =
    some (.ipOnDatagramProtoIcmp ⟨0, 0, 0, 0, 0, 0, 0, Ip.zero, Ip.zero⟩ [] Mac.zero) ∧
  decodeTableWord 80 0x40000000000000000011 =
    some (.ipOnDatagramProtoOther ⟨0, 0, 0, 0, 0, 0, 0, Ip.zero, Ip.zero⟩ [] Mac.zero) ∧
  decodeTableWord 80 0x40000000000000000000 =
    some (.ipOnDatagramV4 0 ⟨0, 0, 0, 0, 0, 0, 0, Ip.zero, Ip.zero⟩ [] Mac.zero) ∧
  decodeTableWord 8 0x08 = some (.icmpOnMessageEchoRequest 0 0 0 0 [] Ip.zero)

/-- A step takes the next transaction and runs its operation, with the notes of the last invocation gone;
with no transaction presented the block holds its state; a transaction of no row is refused
(10_state.md R22, 60_exceptions.md R267; log entries 1, 30). The two notes `causes` and `ret`, and that a step
clears them, are the model's choice, log entry 10. -/
def Obligations.StepRunsDecodedOperation : Prop :=
  (∀ (s : State) (i : Instr) (rest : List Transaction), i.wellFormed = true → s.inbox = encode i :: rest →
    step s = exec i { s with inbox := rest, causes := [], ret := .none }) ∧
  (∀ s : State, s.inbox = [] → step s = .next s) ∧
  (∀ (s : State) (t : Transaction) (rest : List Transaction) (why : Reject), s.inbox = t :: rest →
    decode t = .error why → step s = .refused (.malformedTransaction why))

/-! ### Reset and the guards -/

/-- At reset `IDCTR` is `ID_INIT` and the tables and handler sets are empty (10_state.md R32). -/
def Obligations.ResetStateIsEmpty : Prop :=
  State.reset.idctr = State.reset.cfg.idInit ∧
  (∀ k, State.reset.cache.lookup k = none ∧ State.reset.pending.lookup k = none) ∧
  State.reset.registered = [] ∧ State.reset.fdRegistered = []

/-- RESET gives every state item its reset value, runs the initialisation sequence and emits exactly the
probe and the two registrations, in this order; nothing else changes (70_reset_and_hazards.md R280 to R282;
the order is the spec's decision D21). -/
def Obligations.ResetRunsInitialisation : Prop :=
  ∀ s : State, s.cfg.wf = true → s.phase = .awaitingReset →
    ∃ t, exec .reset s = .next t ∧
      t = { s with
        phase := .running
        idctr := s.cfg.idInit
        cache := { ready := true, horizon := s.cfg.arpTimeout, capacity := s.cfg.arpCapacity, store := [] }
        pending := { ready := true, horizon := s.cfg.arpPendingInterval, capacity := s.cfg.pendingCapacity, store := [] }
        registered := t.registered
        fdRegistered := t.fdRegistered
        outbox := s.outbox ++
          [.fdTransmit (ArpPacket.fixed arpOpRequest ⟨s.cfg.localMac, s.cfg.localIp, Mac.zero, s.cfg.localIp⟩).toBytes
            Mac.broadcast s.cfg.protoArp,
           .fdRegister s.cfg.protoArp, .fdRegister s.cfg.protoIp] } ∧
      (∀ p, p ∈ t.registered ↔ p = ipProtoIcmp) ∧
      (∀ p, p ∈ t.fdRegistered ↔ p = s.cfg.protoArp ∨ p = s.cfg.protoIp)

/-- Before RESET has completed no other input has a meaning, and a second RESET has none (R284, U8). That FD.POLL,
which is no port of R81, counts as an input where a frame waits is the model's choice, log entry 18. -/
def Obligations.InputsRefusedOutsideTheirPhase : Prop :=
  (∀ (i : Instr) (s : State), i.isInput = true → i ≠ .reset → i ≠ .fdPoll → s.cfg.wf = true →
    s.phase = .awaitingReset → exec i s = .refused .beforeReset) ∧
  (∀ (s : State) (f : Frame) (rest : List Frame), s.cfg.wf = true → s.phase = .awaitingReset →
    s.driver = f :: rest → exec .fdPoll s = .refused .beforeReset) ∧
  (∀ s : State, s.cfg.wf = true → s.phase = .running → exec .reset s = .refused .secondReset)

/-- Under an ill-formed configuration every operation is refused (00_scope.md R8, 60_exceptions.md R257). -/
def Obligations.IllFormedConfigurationIsRefused : Prop :=
  ∀ (i : Instr) (s : State), s.cfg.wf = false → exec i s = .refused .illFormedConfig

/-! ### Byte Buffer -/

/-- BUF.ADD_HEADER and BUF.ADD_PADDING add `n` bytes, whatever they hold, before and behind the buffer;
nothing else changes but the count of free values (40_byte_buffer.md R131, R133; log entry 8). -/
def Obligations.BufferAddsFreeBytes : Prop :=
  ∀ (b : Bytes) (n : Nat) (s : State), s.cfg.wf = true →
    ∃ h : Bytes, h.length = n ∧
      exec (.bufAddHeader b n) s = .next { s with draws := s.draws + n, ret := .bytes (h ++ b) } ∧
      exec (.bufAddPadding b n) s = .next { s with draws := s.draws + n, ret := .bytes (b ++ h) }

/-- BUF.REMOVE_HEADER and BUF.REMOVE_PADDING remove `n` bytes from the front and from the end; with more
bytes than the buffer holds they fault (R132, R134). -/
def Obligations.BufferRemovesBytes : Prop :=
  ∀ (b : Bytes) (n : Nat) (s : State), s.cfg.wf = true →
    (n ≤ b.length →
      exec (.bufRemoveHeader b n) s = .next { s with ret := .bytes (b.drop n) } ∧
      exec (.bufRemovePadding b n) s = .next { s with ret := .bytes (b.take (b.length - n)) }) ∧
    (b.length < n →
      exec (.bufRemoveHeader b n) s = .fault .removeBeyondBuffer ∧
      exec (.bufRemovePadding b n) s = .fault .removeBeyondBuffer)

/-! ### Expiring map -/

/-- MAP.INIT makes an empty table with the given horizon and capacity, and is refused on a table in use
(41_expiring_map.md R140, U15; log entries 12, 13). -/
def Obligations.MapInitMakesEmptyTable : Prop :=
  ∀ (ks vs : Nat) (c : Option Nat) (e : Nat) (f : Bool) (s : State), s.cfg.wf = true →
    (s.cache.ready = false → exec (.mapInit .cache ks vs c e f) s =
      .next { s with cache := { ready := true, horizon := e, capacity := c, store := [] } }) ∧
    (s.pending.ready = false → exec (.mapInit .pending ks vs c e f) s =
      .next { s with pending := { ready := true, horizon := e, capacity := c, store := [] } }) ∧
    (s.cache.ready = true → exec (.mapInit .cache ks vs c e f) s = .refused .tableInUse) ∧
    (s.pending.ready = true → exec (.mapInit .pending ks vs c e f) s = .refused .tableInUse)

/-- MAP.GET reads the time once and finds the stored value if its age at that time is at most the horizon; it changes
nothing but the position of the time input, so it neither refreshes nor removes an entry (R141, R145; the
age equal to the horizon is live by the spec's decision D12; log entry 7 for the time input, 10 for the result,
24 for the age). -/
def Obligations.MapGetFindsLiveEntries : Prop :=
  ∀ (k : Ip) (s : State), s.cfg.wf = true →
    (s.cache.ready = true → ∃ t, exec (.mapGet .cache k) s = .next t ∧ s.clock ≤ t.clock ∧
      t = { tick s with ret := .found (match s.cache.lookup k with
        | none => none
        | some e => if t.clock - e.ts ≤ s.cache.horizon then some (.cache e.val) else none) }) ∧
    (s.pending.ready = true → ∃ t, exec (.mapGet .pending k) s = .next t ∧ s.clock ≤ t.clock ∧
      t = { tick s with ret := .found (match s.pending.lookup k with
        | none => none
        | some e => if t.clock - e.ts ≤ s.pending.horizon then some (.pending e.val) else none) })

/-- MAP.SET, where there is room, stores the value with the time just read and leaves every other key as it
was (R142; log entry 14). -/
def Obligations.MapSetStoresOneKey : Prop :=
  ∀ (k : Ip) (s : State), s.cfg.wf = true →
    (∀ mac : Mac, s.cache.ready = true → s.cache.hasRoom k = true →
      ∃ t, exec (.mapSet k (.cache mac)) s = .next t ∧ s.clock ≤ t.clock ∧
        t = { s.atTimeOf t with cache := { s.cache with store := t.cache.store } } ∧
        ∀ k', t.cache.lookup k' = if k' = k then some ⟨k, mac, t.clock⟩ else s.cache.lookup k') ∧
    (∀ d : Bytes, s.pending.ready = true → s.pending.hasRoom k = true →
      ∃ t, exec (.mapSet k (.pending d)) s = .next t ∧ s.clock ≤ t.clock ∧
        t = { s.atTimeOf t with pending := { s.pending with store := t.pending.store } } ∧
        ∀ k', t.pending.lookup k' = if k' = k then some ⟨k, d, t.clock⟩ else s.pending.lookup k')

/-- MAP.SET of a new key into a bounded table that is full is refused (U1; log entry 14), and so is a lookup
or a write of a table that MAP.INIT has not made (R284; log entry 13). -/
def Obligations.MapRefusalsAreNamed : Prop :=
  ∀ (k : Ip) (s : State), s.cfg.wf = true →
    (∀ (mac : Mac) (c : Nat), s.cache.ready = true → s.cache.capacity = some c → s.cache.lookup k = none →
      c ≤ s.cache.store.length → exec (.mapSet k (.cache mac)) s = .refused .tableFull) ∧
    (∀ (d : Bytes) (c : Nat), s.pending.ready = true → s.pending.capacity = some c → s.pending.lookup k = none →
      c ≤ s.pending.store.length → exec (.mapSet k (.pending d)) s = .refused .tableFull) ∧
    (∀ mac : Mac, s.cache.ready = false → exec (.mapSet k (.cache mac)) s = .refused .tableNotReady ∧
      exec (.mapGet .cache k) s = .refused .tableNotReady ∧ exec (.mapDelete .cache k) s = .refused .tableNotReady) ∧
    (∀ d : Bytes, s.pending.ready = false → exec (.mapSet k (.pending d)) s = .refused .tableNotReady ∧
      exec (.mapGet .pending k) s = .refused .tableNotReady ∧ exec (.mapDelete .pending k) s = .refused .tableNotReady)

/-- MAP.DELETE makes the key absent, leaves every other key as it was and reads no time; deleting an absent
key changes nothing (R143). -/
def Obligations.MapDeleteRemovesOneKey : Prop :=
  ∀ (k : Ip) (s : State), s.cfg.wf = true →
    (s.cache.ready = true → ∃ t, exec (.mapDelete .cache k) s = .next t ∧
      t = { s with cache := { s.cache with store := t.cache.store } } ∧
      (∀ k', t.cache.lookup k' = if k' = k then none else s.cache.lookup k') ∧ (s.cache.lookup k = none → t = s)) ∧
    (s.pending.ready = true → ∃ t, exec (.mapDelete .pending k) s = .next t ∧
      t = { s with pending := { s.pending with store := t.pending.store } } ∧
      (∀ k', t.pending.lookup k' = if k' = k then none else s.pending.lookup k') ∧ (s.pending.lookup k = none → t = s))

/-- MAP.FOR_EACH with a visitor that only reads changes nothing; a visitor that would modify the table is
refused (R144, U5; log entry 15). -/
def Obligations.ForEachChangesNothing : Prop :=
  ∀ (id : TableId) (s : State), s.cfg.wf = true → tableReady id s = true →
    exec (.mapForEach id .readOnly) s = .next s ∧ exec (.mapForEach id .mutating) s = .refused .mutatingVisitor

/-! ### Checksum -/

/-- CKSUM16 returns `0xffff` exactly for all-zero strings, and otherwise the value that makes the sum of the
words a multiple of 65535 (43_checksum.md R160, R161(b); the complement is the spec's decision D7). -/
def Obligations.ChecksumComplementsTheSum : Prop :=
  ∀ (b : Bytes) (s : State), s.cfg.wf = true →
    ∃ c : Word16, exec (.cksum16 b) s = .next { s with ret := .word c } ∧
      ((∀ x ∈ b, x = 0) → c = 0xffff) ∧
      ((∃ x ∈ b, x ≠ 0) → c ≠ 0xffff ∧ (wordSum b + c.toNat) % 65535 = 0)

/-- CKSUM16.VERIFY compares the stored field with the checksum of the string whose field is zero, and writes
nothing; a field outside the string faults (R162, 20_memory.md R56). R162 gives `off` even: that the operation runs
by its pseudocode at an odd offset too is the model's choice, log entry 16. -/
def Obligations.VerifyComparesWithZeroedField : Prop :=
  ∀ (b : Bytes) (off : Nat) (s : State), s.cfg.wf = true →
    (off + 2 ≤ b.length → exec (.cksum16Verify b off) s =
      .next { s with ret := .flag (decide (checksum (b.take off ++ [0, 0] ++ b.drop (off + 2)) = u16At b off)) }) ∧
    (b.length < off + 2 → exec (.cksum16Verify b off) s = .fault .memoryRange)

/-- Writing the checksum of the zeroed string into the field makes the string verify (R164, for `off` even). That
verification runs by its pseudocode at an odd offset too is the model's choice, log entry 16. -/
def Obligations.ChecksumRoundTrip : Prop :=
  ∀ (b : Bytes) (off : Nat), off + 2 ≤ b.length →
    ∃ z v, memWrite b off 2 0 = some z ∧ memWrite b off 2 (checksum z).toNat = some v ∧
      verifyChecksum v off = some true

/-- Testing that all words, the stored field among them, fold to `0xffff` accepts what CKSUM16.VERIFY accepts
and one input more: a stored `0xffff` where the computed checksum is 0 (R163). -/
def Obligations.SumTestIsNotVerify : Prop :=
  ∀ (b z : Bytes) (off : Nat), off % 2 = 0 → memWrite b off 2 0 = some z →
    verifyChecksum b off =
      some (decide (foldCarry (wordSum b) (wordSum b) = 65535 ∧ ¬ (u16At b off = 0xffff ∧ checksum z = 0))) ∧
    (u16At b off = 0xffff → checksum z = 0 → foldCarry (wordSum b) (wordSum b) = 65535)

/-- A string that verifies no longer does after any one of its bits is inverted (R165). -/
def Obligations.OneFlippedBitIsCaught : Prop :=
  ∀ (b : Bytes) (off i k : Nat), off % 2 = 0 → off + 2 ≤ b.length → i < b.length → k < 8 →
    verifyChecksum b off = some true →
    verifyChecksum (b.set i (byteAt b i ^^^ BitVec.twoPow 8 k)) off = some false

/-! ### ARP Engine -/

/-- ARP.SEND_REQUEST broadcasts the 28-byte request with the local address pair as sender, a zero target link
address and the target network address; it writes no other state (44_arp.md R171). -/
def Obligations.SendRequestBroadcasts : Prop :=
  ∀ (target : Ip) (s : State), s.cfg.wf = true →
    exec (.arpSendRequest target) s = .next { s with outbox := s.outbox ++
      [.fdTransmit (ArpPacket.fixed arpOpRequest ⟨s.cfg.localMac, s.cfg.localIp, Mac.zero, target⟩).toBytes
        Mac.broadcast s.cfg.protoArp] }

/-- ARP.SEND_REPLY sends the 28-byte reply with the local address pair as sender to the given pair; it writes
no other state (R173). -/
def Obligations.SendReplyUnicasts : Prop :=
  ∀ (target : Ip) (link : Mac) (s : State), s.cfg.wf = true →
    exec (.arpSendReply target link) s = .next { s with outbox := s.outbox ++
      [.fdTransmit (ArpPacket.fixed arpOpReply ⟨s.cfg.localMac, s.cfg.localIp, link, target⟩).toBytes
        link s.cfg.protoArp] }

/-- ARP.INIT makes both tables, emits the probe for the local address and registers the ARP protocol number;
on tables already made it is refused (R170; the order is the spec's decision D21; log entry 13). -/
def Obligations.ArpInitMakesTablesAndProbes : Prop :=
  ∀ s : State, s.cfg.wf = true →
    (s.cache.ready = false → s.pending.ready = false →
      ∃ t, exec .arpInit s = .next t ∧
        t = { s with
          cache := { ready := true, horizon := s.cfg.arpTimeout, capacity := s.cfg.arpCapacity, store := [] }
          pending := { ready := true, horizon := s.cfg.arpPendingInterval, capacity := s.cfg.pendingCapacity, store := [] }
          fdRegistered := t.fdRegistered
          outbox := s.outbox ++
            [.fdTransmit (ArpPacket.fixed arpOpRequest ⟨s.cfg.localMac, s.cfg.localIp, Mac.zero, s.cfg.localIp⟩).toBytes
              Mac.broadcast s.cfg.protoArp,
             .fdRegister s.cfg.protoArp] } ∧
        ∀ p, p ∈ t.fdRegistered ↔ p = s.cfg.protoArp ∨ p ∈ s.fdRegistered) ∧
    (s.cache.ready = true ∨ s.pending.ready = true → exec .arpInit s = .refused .tableInUse)

/-- ARP.RESOLVE_AND_SEND: a live mapping sends the datagram to it; without one, a live pending entry drops the
datagram; with neither, the datagram is stored and one request is broadcast. Nothing else changes (R172; the
protocol number of a hit is the spec's decision D26; log entry 10 for the cause, 24 for the age equal to the horizon). -/
def Obligations.ResolveAndSendByCases : Prop :=
  ∀ (d : Bytes) (dst : Ip) (s : State), s.TablesReady →
    (∀ mac, s.cache.get dst (nextTime s) = some mac →
      ∃ t, exec (.arpResolveAndSend d dst) s = .next t ∧
        t = { s.atTimeOf t with outbox := s.outbox ++ [.fdTransmit d mac s.cfg.protoIp] } ∧ t.clock = nextTime s) ∧
    (∀ d', s.cache.get dst (nextTime s) = none → s.pending.get dst (nextTime (tick s)) = some d' →
      ∃ t, exec (.arpResolveAndSend d dst) s = .next t ∧
        t = { s.atTimeOf t with causes := s.causes ++ [.arpResolutionInFlight] } ∧ t.clock = nextTime (tick s)) ∧
    (s.cache.get dst (nextTime s) = none → s.pending.get dst (nextTime (tick s)) = none → s.pending.hasRoom dst = true →
      ∃ t, exec (.arpResolveAndSend d dst) s = .next t ∧
        t = { s.atTimeOf t with
          pending := s.pending.put dst d t.clock
          outbox := s.outbox ++
            [.fdTransmit (ArpPacket.fixed arpOpRequest ⟨s.cfg.localMac, s.cfg.localIp, Mac.zero, dst⟩).toBytes
              Mac.broadcast s.cfg.protoArp] } ∧
        t.clock = nextTime (tick (tick s)))

/-- ARP.ON_PACKET of a valid packet enters the sender's mapping with the time just read; a live pending datagram
for the sender is sent to it and its entry deleted, and a request is then not answered (R176, R177(a); log entry
24 for the age equal to the horizon). -/
def Obligations.OnPacketReleasesPending : Prop :=
  ∀ (a : ArpAddresses) (trailer d : Bytes) (src : Mac) (s : State), s.TablesReady → s.cache.hasRoom a.spa = true →
    s.pending.get a.spa (nextTime (tick s)) = some d →
    ∃ t, t = { s.atTimeOf t with
        cache := s.cache.put a.spa a.sha (nextTime s)
        pending := s.pending.erase a.spa
        outbox := s.outbox ++ [.fdTransmit d a.sha s.cfg.protoIp] } ∧
      exec (.arpOnPacketRequest a trailer src) s = .next t ∧ exec (.arpOnPacketReply a trailer src) s = .next t

/-- ARP.ON_PACKET of a valid packet whose sender has no live pending datagram enters the mapping, and answers
exactly the request for the local address (R176, R177(b), (c)). That the block's own probe looped back is answered too
is the model's choice between R176 and T-ARP-13, log entry 33; log entry 24 for the age equal to the horizon. -/
def Obligations.OnPacketLearnsAndAnswers : Prop :=
  ∀ (a : ArpAddresses) (trailer : Bytes) (src : Mac) (s : State), s.TablesReady → s.cache.hasRoom a.spa = true →
    s.pending.get a.spa (nextTime (tick s)) = none →
    (∃ t, exec (.arpOnPacketReply a trailer src) s = .next t ∧
      t = { s.atTimeOf t with cache := s.cache.put a.spa a.sha (nextTime s) }) ∧
    (∃ t, exec (.arpOnPacketRequest a trailer src) s = .next t ∧
      t = { s.atTimeOf t with
        cache := s.cache.put a.spa a.sha (nextTime s)
        outbox := s.outbox ++
          if a.tpa = s.cfg.localIp then
            [.fdTransmit (ArpPacket.fixed arpOpReply ⟨s.cfg.localMac, s.cfg.localIp, a.sha, a.spa⟩).toBytes
              a.sha s.cfg.protoArp]
          else [] })

/-- A packet that no ARP row selects is discarded: too short, or a bad fixed field; the state is as it was
(R88, R176, 60_exceptions.md R250, R255; the five fields are the spec's decision D18; log entry 10 for the cause). -/
def Obligations.InvalidArpPacketIsDiscarded : Prop :=
  ∀ (packet : Bytes) (src : Mac) (s : State), s.cfg.wf = true → (Instr.arpOnPacket packet src).wellFormed = true →
    exec (.arpOnPacket packet src) s =
      .next { s with causes := s.causes ++ [if packet.length < 28 then .arpTooShort else .arpBadFixedField] }

/-! ### Frame Dispatcher -/

/-- FD.DELIVER runs the row that the protocol number and then the packet select, as its own three rows do; a
frame with no handler reaches nothing. On a block that RESET has set up and whose tables have room every
delivery completes, whatever bytes arrive (R86, R150, 60_exceptions.md R250, 30_encoding.md R85). -/
def Obligations.DeliveryRunsTheSelectedRow : Prop :=
  ∀ (payload : Bytes) (p : Proto16) (src : Mac) (s : State), s.cfg.wf = true → s.phase = .running →
    ((p = s.cfg.protoArp → p ∈ s.fdRegistered →
        exec (.fdDeliver payload p src) s = exec (arpRow payload src) s) ∧
      (p = s.cfg.protoIp → p ≠ s.cfg.protoArp → p ∈ s.fdRegistered →
        exec (.fdDeliver payload p src) s = exec (datagramRow payload src) s) ∧
      ((p ≠ s.cfg.protoArp ∧ p ≠ s.cfg.protoIp) ∨ p ∉ s.fdRegistered → exec (.fdDeliver payload p src) s = .next s)) ∧
    (s.cache.ready = true → s.pending.ready = true → s.Roomy →
      ∃ t, exec (.fdDeliver payload p src) s = .next t ∧
        (p = 0x0806 → exec (.fdDeliverArp payload src) s = .next t) ∧
        (p = 0x0800 → exec (.fdDeliverIp payload src) s = .next t))

/-- FD.POLL takes at most one frame from the Driver and delivers it; it completes on a block that RESET has set up
and whose tables have room (R153; log entry 11). -/
def Obligations.PollDeliversOneFrame : Prop :=
  ∀ s : State, s.cfg.wf = true →
    (s.driver = [] → exec .fdPoll s = .next s) ∧
    (∀ f rest, s.driver = f :: rest →
      exec .fdPoll s = exec (deliverRow f.payload f.protocolNumber f.sourceLink) { s with driver := rest } ∧
      (s.Operational → s.Roomy → ∃ t, exec .fdPoll s = .next t ∧ t.driver = rest))

/-- FD.TRANSMIT and UP.DELIVER as operations emit exactly their transaction (R151, 30_encoding.md R82). -/
def Obligations.OutputPortsEmit : Prop :=
  ∀ (payload : Bytes) (link : Mac) (p16 : Proto16) (p8 : Proto8) (source : Ip) (s : State), s.cfg.wf = true →
    exec (.fdTransmit payload link p16) s = .next { s with outbox := s.outbox ++ [.fdTransmit payload link p16] } ∧
    exec (.upDeliver p8 payload source) s = .next { s with outbox := s.outbox ++ [.upDeliver p8 payload source] }

/-- FD.REGISTER and IP.INIT enter a protocol number into `FD_REGISTERED` and emit the registration; nothing
else changes (R152, 45_ip_inbound.md R191). -/
def Obligations.FrameRegistrationAddsOneNumber : Prop :=
  ∀ (p : Proto16) (s : State), s.cfg.wf = true →
    (∃ t, exec (.fdRegister p) s = .next t ∧
      t = { s with fdRegistered := t.fdRegistered, outbox := s.outbox ++ [.fdRegister p] } ∧
      ∀ q, q ∈ t.fdRegistered ↔ q = p ∨ q ∈ s.fdRegistered) ∧
    (∃ t, exec .ipInit s = .next t ∧
      t = { s with fdRegistered := t.fdRegistered, outbox := s.outbox ++ [.fdRegister s.cfg.protoIp] } ∧
      ∀ q, q ∈ t.fdRegistered ↔ q = s.cfg.protoIp ∨ q ∈ s.fdRegistered)

/-- IP.REGISTER and ICMP.INIT enter a protocol number into `REGISTERED`; nothing else changes and nothing is
emitted (R190, 47_icmp.md R230). -/
def Obligations.ProtocolRegistrationAddsOneNumber : Prop :=
  ∀ (p : Proto8) (s : State), s.cfg.wf = true →
    (s.phase = .running → ∃ t, exec (.ipRegister p) s = .next t ∧ t = { s with registered := t.registered } ∧
      ∀ q, q ∈ t.registered ↔ q = p ∨ q ∈ s.registered) ∧
    (∃ t, exec .icmpInit s = .next t ∧ t = { s with registered := t.registered } ∧
      ∀ q, q ∈ t.registered ↔ q = ipProtoIcmp ∨ q ∈ s.registered)

/-! ### IP Engine, inbound -/

/-- A buffer that no IPv4 row selects is discarded: too short, or a bad version; the state is as it was
(45_ip_inbound.md R192 steps 1 and 2, R255; log entry 10 for the cause). -/
def Obligations.UnselectedDatagramIsDiscarded : Prop :=
  ∀ (b : Bytes) (src : Mac) (s : State), s.cfg.wf = true → (Instr.ipOnDatagram b src).wellFormed = true →
    exec (.ipOnDatagram b src) s =
      .next { s with causes := s.causes ++ [if b.length < 20 then .ipTooShort else .ipBadVersion] }

/-- Steps 2 to 5 of IP.ON_DATAGRAM: the first failing check decides the disposition, which leaves the state as
it was, for each of the three rows (R192, R254, R255; log entry 26 for the total length; log entry 10 for the cause). -/
def Obligations.FirstFailingCheckDecides : Prop :=
  ∀ (p : Proto8) (f : Ipv4Fields) (rest : Bytes) (src : Mac) (s : State) (i : Instr), s.cfg.wf = true →
    (i = .ipOnDatagramV4 p f rest src ∨
      (p = ipProtoIcmp ∧ i = .ipOnDatagramProtoIcmp f rest src) ∨
      (p = ipProtoOther ∧ i = .ipOnDatagramProtoOther f rest src)) →
    let b := datagramRowBytes p f rest
    (inHdrLen s.cfg.ihlPolicy b = none → exec i s = .next { s with causes := s.causes ++ [.ipBadHeaderLength] }) ∧
    (∀ hl, inHdrLen s.cfg.ihlPolicy b = some hl →
      (verifyChecksum (slice b 0 hl) 10 = some false →
        exec i s = .next { s with causes := s.causes ++ [.ipBadChecksum] }) ∧
      (verifyChecksum (slice b 0 hl) 10 = some true →
        (f.dst ≠ s.cfg.localIp → exec i s = .next { s with causes := s.causes ++ [.ipNotForUs] }) ∧
        (f.dst = s.cfg.localIp → f.tlen.toNat < hl →
          exec i s = .next { s with causes := s.causes ++ [.ipBadTotalLength] })))

/-- The inbound header length: 20 where the field says 5 or the policy is `fixed20`; otherwise four times the
field, or no length where that is below 20 or beyond the buffer (R193; log entry 5). -/
def Obligations.HeaderLengthFollowsPolicy : Prop :=
  ∀ (p : Proto8) (f : Ipv4Fields) (rest : Bytes) (policy : IhlPolicy),
    inHdrLen policy (datagramRowBytes p f rest) =
      if f.ihl = 5 ∨ policy = .fixed20 then some 20
      else if f.ihl.toNat < 5 ∨ 20 + rest.length < 4 * f.ihl.toNat then none
      else some (4 * f.ihl.toNat)

/-- An accepted datagram for a registered protocol other than ICMP is delivered upwards: its payload without the
header and without the padding, and its source address; nothing else changes (R192 steps 5 to 7, R195, R198). -/
def Obligations.AcceptedDatagramIsDelivered : Prop :=
  ∀ (p : Proto8) (f : Ipv4Fields) (rest : Bytes) (src : Mac) (hl : Nat) (s : State), s.cfg.wf = true →
    Accepts s.cfg (datagramRowBytes p f rest) hl → p ∈ s.registered → p ≠ ipProtoIcmp →
    let t := { s with outbox := s.outbox ++
      [.upDeliver p ((trimmed (datagramRowBytes p f rest)).drop hl) f.src] }
    exec (.ipOnDatagramV4 p f rest src) s = .next t ∧
    (p = ipProtoOther → exec (.ipOnDatagramProtoOther f rest src) s = .next t)

/-- An accepted datagram of protocol 1, with ICMP registered, goes to the row of ICMP.ON_MESSAGE that its payload
selects, with its source address, and completes where the tables have room (R192 step 7, R198). -/
def Obligations.AcceptedIcmpReachesTheEngine : Prop :=
  ∀ (f : Ipv4Fields) (rest : Bytes) (src : Mac) (hl : Nat) (s : State), s.TablesReady → s.Roomy →
    Accepts s.cfg (datagramRowBytes ipProtoIcmp f rest) hl → ipProtoIcmp ∈ s.registered →
    ∃ t, exec (.ipOnDatagramProtoIcmp f rest src) s = .next t ∧
      exec (messageRow ((trimmed (datagramRowBytes ipProtoIcmp f rest)).drop hl) f.src) s = .next t

/-- An accepted datagram for a protocol that is not registered is answered by ICMP.SEND_UNREACHABLE about the
datagram without its padding, to its source address, and then discarded (R192 step 6, R252; log entry 10). -/
def Obligations.UnregisteredProtocolIsAnswered : Prop :=
  ∀ (p : Proto8) (f : Ipv4Fields) (rest : Bytes) (src : Mac) (hl : Nat) (s : State), s.TablesReady → s.Roomy →
    Accepts s.cfg (datagramRowBytes p f rest) hl → p ∉ s.registered →
    ∃ u, exec (.icmpSendUnreachableCall (trimmed (datagramRowBytes p f rest)) f.src s.cfg.codeProtoUnreach) s = .next u ∧
      u.idctr = s.idctr + 1 ∧
      exec (.ipOnDatagramV4 p f rest src) s = .next { u with causes := u.causes ++ [.ipProtoUnreachable] } ∧
      (p = ipProtoIcmp → exec (.ipOnDatagramProtoIcmp f rest src) s =
        .next { u with causes := u.causes ++ [.ipProtoUnreachable] }) ∧
      (p = ipProtoOther → exec (.ipOnDatagramProtoOther f rest src) s =
        .next { u with causes := u.causes ++ [.ipProtoUnreachable] })

/-! ### IP Engine, outbound -/

/-- The fragment plan: `max(1, ceil(L/M))` fragments; fragment `k` begins at `k * M`; every fragment but the last is
full and flagged, the last holds the rest and is not (46_ip_outbound.md R213(a) to (d); one fragment for an empty
payload is the spec's decision D14). -/
def Obligations.FragmentPlanLaw : Prop :=
  ∀ len m : Nat, 0 < m →
    (fragPlan len m).length = max 1 ((len + m - 1) / m) ∧
    ∀ k f, (fragPlan len m)[k]? = some f →
      f.boff = k * m ∧
      (k + 1 < (fragPlan len m).length → f.n = m ∧ f.mf = true) ∧
      (k + 1 = (fragPlan len m).length → f.n = len - k * m ∧ f.n ≤ m ∧ (0 < len → 0 < f.n) ∧ f.mf = false)

/-- The payloads of the plan, in order, are exactly the buffer (R213(e)). -/
def Obligations.FragmentsCoverTheBuffer : Prop :=
  ∀ (buffer : Bytes) (m : Nat), 0 < m →
    ((fragPlan buffer.length m).map fun f => slice buffer f.boff (f.boff + f.n)).flatten = buffer

/-- IP.ENCAPSULATE_AND_RESOLVE puts the 20-byte header of R91 to R93 before the chunk, with a checksum that
verifies, and hands the datagram to ARP.RESOLVE_AND_SEND; it completes where the destination has room, and writes
no pending entry but the destination's. Where the length or the offset does not fit its field the write has no
meaning and it faults (R214, 00_scope.md R10; log entries 16, 21, 23). -/
def Obligations.EncapsulationBuildsTheHeader : Prop :=
  ∀ (chunk : Bytes) (dst : Ip) (proto : Proto8) (ident boff : Nat) (mf : Bool) (s : State), s.cfg.wf = true →
    (ipHdrLen + chunk.length < 65536 → flagsOffset s.cfg.mfBit mf boff < 65536 →
      (∃ d, FragmentDatagram s.cfg dst proto ident boff mf chunk d ∧
        exec (.ipEncapsulateAndResolve chunk dst proto ident boff mf) s =
          exec (.arpResolveAndSend d dst) { s with draws := s.draws + 20 }) ∧
      (s.TablesReady → s.pending.hasRoom dst = true →
        ∃ t, exec (.ipEncapsulateAndResolve chunk dst proto ident boff mf) s = .next t ∧
          t = { s.atTimeOf t with pending := t.pending, outbox := t.outbox, causes := t.causes } ∧
          ∀ k, k ≠ dst → t.pending.lookup k = s.pending.lookup k)) ∧
    (65536 ≤ ipHdrLen + chunk.length ∨ 65536 ≤ flagsOffset s.cfg.mfBit mf boff →
      exec (.ipEncapsulateAndResolve chunk dst proto ident boff mf) s = .fault .memoryRange)

/-- IP.SEND of at most 65515 bytes completes, as a port and as a call alike; it takes exactly one identifier
whatever the number of fragments, appends to the outputs, and writes no pending entry but the destination's
(R211, R215(a); the destination needs room in a bounded `PENDING`, log entry 14). -/
def Obligations.SendTakesOneIdentifier : Prop :=
  ∀ (buffer : Bytes) (dst : Ip) (proto : Proto8) (s : State), s.TablesReady → s.pending.hasRoom dst = true →
    buffer.length ≤ 65515 →
    ∃ t, exec (.ipSendCall buffer dst proto) s = .next t ∧
      (s.phase = .running → exec (.ipSend buffer dst proto) s = .next t) ∧
      t = { s.atTimeOf t with
        idctr := s.idctr + 1, pending := t.pending, outbox := t.outbox, causes := t.causes } ∧
      s.outbox <+: t.outbox ∧ ∀ k, k ≠ dst → t.pending.lookup k = s.pending.lookup k

/-- IP.SEND of more than 65515 bytes is refused, and so is ICMP.SEND_UNREACHABLE about a buffer without a complete
header (R212(a), 47_icmp.md R235, R257: the spec's decision D15). -/
def Obligations.UnspecifiedCallsAreRefused : Prop :=
  ∀ (dst : Ip) (s : State), s.cfg.wf = true →
    (∀ (buffer : Bytes) (proto : Proto8), 65515 < buffer.length →
      exec (.ipSendCall buffer dst proto) s = .refused .payloadTooLong ∧
      (s.phase = .running → exec (.ipSend buffer dst proto) s = .refused .payloadTooLong)) ∧
    (∀ (o : Bytes) (code : Byte), o.length < ipHdrLen ∨ inHdrLen s.cfg.ihlPolicy o = none →
      exec (.icmpSendUnreachableCall o dst code) s = .refused .noCompleteHeader ∧
      (s.phase = .running → exec (.icmpSendUnreachable o dst code) s = .refused .noCompleteHeader))

/-- IP.SEND to a destination whose mapping stays live until the last fragment transmits every fragment of the plan
to that link address, in order of offset, each with the shared identifier, its own flag and offset and its slice of
the buffer; nothing else changes (R211, R213, R214, R217 first sentence, 20_memory.md R66; that a mapping whose age
equals the horizon is live is the spec's decision D12, log entry 24). -/
def Obligations.SendTransmitsEveryFragment : Prop :=
  ∀ (buffer : Bytes) (dst : Ip) (proto : Proto8) (e : Entry Mac) (s : State), s.TablesReady →
    buffer.length ≤ 65515 → s.cache.lookup dst = some e →
    clockAfterHits (fragPlan buffer.length s.cfg.maxPayload).length s - e.ts ≤ s.cache.horizon →
    ∃ (t : State) (ds : List Bytes), exec (.ipSendCall buffer dst proto) s = .next t ∧
      t = { s.atTimeOf t with
        idctr := s.idctr + 1
        outbox := s.outbox ++ ds.map fun d => .fdTransmit d e.val s.cfg.protoIp } ∧
      List.Forall₂ (fun (f : Fragment) d => FragmentDatagram s.cfg dst proto s.idctr f.boff f.mf
          (slice buffer f.boff (f.boff + f.n)) d)
        (fragPlan buffer.length s.cfg.maxPayload) ds

/-- IP.SEND to a destination neither in `CACHE` nor in `PENDING` stores the first fragment and broadcasts one
request; every later fragment is dropped, as long as the clock does not pass the retry interval (R217, R290; that a
pending entry whose age equals the interval is live is the spec's decision D12, log entry 24; the causes of the dropped
fragments are the model's own note, log entry 10). -/
def Obligations.UnresolvedSendKeepsFirstFragment : Prop :=
  ∀ (buffer : Bytes) (dst : Ip) (proto : Proto8) (s : State), s.TablesReady → s.pending.hasRoom dst = true →
    buffer.length ≤ 65515 →
    s.cache.get dst (nextTime (draw ipHdrLen s)) = none →
    s.pending.get dst (nextTime (tick (draw ipHdrLen s))) = none →
    ∃ (t : State) (d : Bytes), exec (.ipSendCall buffer dst proto) s = .next t ∧
      FragmentDatagram s.cfg dst proto s.idctr 0 (decide (s.cfg.maxPayload < buffer.length))
        (buffer.take s.cfg.maxPayload) d ∧
      (t.clock - nextTime (tick (tick (draw ipHdrLen s))) ≤ s.pending.horizon →
        t = { s.atTimeOf t with
          idctr := s.idctr + 1
          pending := s.pending.put dst d (nextTime (tick (tick (draw ipHdrLen s))))
          outbox := s.outbox ++
            [.fdTransmit (ArpPacket.fixed arpOpRequest ⟨s.cfg.localMac, s.cfg.localIp, Mac.zero, dst⟩).toBytes
              Mac.broadcast s.cfg.protoArp]
          causes := s.causes ++ List.replicate ((fragPlan buffer.length s.cfg.maxPayload).length - 1)
            .arpResolutionInFlight })

/-! ### ICMP Engine -/

/-- An echo request is answered, through IP.SEND to its source, by a reply of type and code 0 with the identifier,
the sequence and the payload of the request and a checksum that verifies, whatever the request's code and
checksum; it completes where the destination has room (47_icmp.md R232, R233(a), (b); code 0 is the spec's decision D16). -/
def Obligations.EchoRequestIsAnswered : Prop :=
  ∀ (code : Byte) (ics ident seq : Word16) (payload : Bytes) (source : Ip) (s : State), s.TablesReady →
    s.pending.hasRoom source = true → icmpHdrLen + payload.length ≤ 65515 →
    ∃ (ck : Word16) (t : State),
      verifyChecksum (icmpHeaderBytes icmpEchoReply 0 ck ident seq ++ payload) 2 = some true ∧
      exec (.ipSendCall (icmpHeaderBytes icmpEchoReply 0 ck ident seq ++ payload) source ipProtoIcmp) s = .next t ∧
      exec (.icmpOnMessageEchoRequest code ics ident seq payload source) s = .next t

/-- A message that is no echo request is discarded: too short, or a type that is ignored; the state is as it was
(R232, 60_exceptions.md R250; log entry 10 for the cause). -/
def Obligations.OtherIcmpIsIgnored : Prop :=
  ∀ (m : Bytes) (source : Ip) (s : State), s.cfg.wf = true → (Instr.icmpOnMessage m source).wellFormed = true →
    exec (.icmpOnMessage m source) s =
      .next { s with causes := s.causes ++ [if m.length < 8 then .icmpTooShort else .icmpIgnoredType] }

/-- ICMP.SEND_UNREACHABLE sends, through IP.SEND, a message of type 3 with the given code, four zero bytes, the
original header and at most 8 bytes after it, and a checksum that verifies; as a port and as a call alike (R235,
30_encoding.md R96; the zero bytes and the short quote are the spec's decisions D16, D17). -/
def Obligations.UnreachableQuotesTheHeader : Prop :=
  ∀ (o : Bytes) (dst : Ip) (code : Byte) (hl : Nat) (s : State), s.TablesReady → s.pending.hasRoom dst = true →
    ipHdrLen ≤ o.length → inHdrLen s.cfg.ihlPolicy o = some hl →
    ∃ (ck : Word16) (t : State),
      verifyChecksum (icmpHeaderBytes icmpUnreach code ck 0 0 ++ o.take (hl + 8)) 2 = some true ∧
      exec (.ipSendCall (icmpHeaderBytes icmpUnreach code ck 0 0 ++ o.take (hl + 8)) dst ipProtoIcmp) s = .next t ∧
      exec (.icmpSendUnreachableCall o dst code) s = .next t ∧
      (s.phase = .running → exec (.icmpSendUnreachable o dst code) s = .next t)

/-- The echo law, for a reply that fits one frame: an echo request delivered under `PROTO_IP`, with valid header, to
the local address, its sender's mapping live, makes exactly one output: the echo reply in one datagram to the sender's
link address; one identifier is taken and nothing else changes (R234, 90_conflicts.md C9; D16 for the reply's code;
that a mapping whose age equals the horizon is live is the spec's decision D12, log entry 24). Where `PROTO_IP` is
0x0800 the row FD.DELIVER_IP does the same (log entry 29). A longer reply: EchoRequestIsAnswered and
SendTransmitsEveryFragment. -/
def Obligations.EndToEndEcho : Prop :=
  ∀ (f : Ipv4Fields) (code : Byte) (ics ident seq : Word16) (payload padding : Bytes) (src : Mac) (e : Entry Mac)
    (s : State), s.Operational → s.cfg.protoArp ≠ s.cfg.protoIp → s.cfg.protoIp ∈ s.fdRegistered →
    ipProtoIcmp ∈ s.registered → f.ihl = 5 → f.dst = s.cfg.localIp → f.tlen.toNat = 28 + payload.length →
    28 + payload.length ≤ s.cfg.mtu →
    verifyChecksum (datagramRowBytes ipProtoIcmp f []) 10 = some true →
    s.cache.lookup f.src = some e → nextTime (draw ipHdrLen s) - e.ts ≤ s.cache.horizon →
    ∃ (t : State) (d : Bytes) (ck : Word16),
      exec (.fdDeliver (datagramRowBytes ipProtoIcmp f
        (echoRequestBytes code ics ident seq payload ++ padding)) s.cfg.protoIp src) s = .next t ∧
      (s.cfg.protoIp = 0x0800 → exec (.fdDeliverIp (datagramRowBytes ipProtoIcmp f
        (echoRequestBytes code ics ident seq payload ++ padding)) src) s = .next t) ∧
      t = { s.atTimeOf t with
        idctr := s.idctr + 1
        outbox := s.outbox ++ [.fdTransmit d e.val s.cfg.protoIp] } ∧
      FragmentDatagram s.cfg f.src ipProtoIcmp s.idctr 0 false
        (icmpHeaderBytes icmpEchoReply 0 ck ident seq ++ payload) d ∧
      verifyChecksum (icmpHeaderBytes icmpEchoReply 0 ck ident seq ++ payload) 2 = some true

/-! ### Whole-machine rules -/

/-- No operation writes the configuration, and only RESET ends the phase before reset (10_state.md R24,
70_reset_and_hazards.md R284). -/
def Obligations.ConfigurationIsReadOnly : Prop :=
  ∀ (i : Instr) (s t : State), exec i s = .next t → t.cfg = s.cfg ∧ (i ≠ .reset → t.phase = s.phase)

/-- Apart from RESET, no operation decreases `IDCTR` or advances it by more than one (10_state.md R21, R33(b)). -/
def Obligations.IdentifierNeverDecreases : Prop :=
  ∀ (i : Instr) (s t : State), i ≠ .reset → exec i s = .next t → t.idctr = s.idctr ∨ t.idctr = s.idctr + 1

/-- Apart from RESET, no operation takes a member out of a handler set (R33(c)). -/
def Obligations.HandlersAreNeverRemoved : Prop :=
  ∀ (i : Instr) (s t : State), i ≠ .reset → exec i s = .next t →
    (∀ p ∈ s.registered, p ∈ t.registered) ∧ ∀ p ∈ s.fdRegistered, p ∈ t.fdRegistered

/-- The time input never goes back, and outputs are only appended (20_memory.md R60, R66; the order of outputs is
the spec's decision D24; log entries 7, 9). -/
def Obligations.TimeAndOutputsOnlyGrow : Prop :=
  ∀ (i : Instr) (s t : State), exec i s = .next t → s.clock ≤ t.clock ∧ s.outbox <+: t.outbox

/-- The IP and ICMP operations teach the ARP cache nothing (45_ip_inbound.md R199, 10_state.md R27). -/
def Obligations.OnlyArpTeachesTheCache : Prop :=
  ∀ (i : Instr) (s t : State), exec i s = .next t →
    (match i with
      | .reset | .fdDeliver .. | .fdDeliverArp .. | .fdPoll | .mapInit .. | .mapSet .. | .mapDelete .. | .arpInit
      | .arpOnPacket .. | .arpOnPacketRequest .. | .arpOnPacketReply .. => False
      | .fdDeliverIp .. => s.cfg.protoArp ≠ 0x0800
      | _ => True) →
    t.cache = s.cache

/-! ### Invariants -/

/-- The state at reset meets every invariant of this file: it is canonical, no destination is both resolved and pending
in it, every pending datagram is well-formed, what RESET sets up is there if the block runs, and every transaction
presented is an input (10_state.md R32, R33; that nothing is presented at reset is the model's choice, log entry 3;
the canonical form is log entries 19 and 20). -/
def Obligations.ResetMeetsTheInvariants : Prop :=
  State.reset.Canonical ∧ State.reset.Exclusive ∧ State.reset.PendingWellFormed ∧ State.reset.SetUp ∧
    State.reset.InputsOnly

/-- Every step, of any operation, keeps the canonical form: tables and handler sets strictly rising, no timestamp in
the future (10_state.md R33(d), 41_expiring_map.md R142; that tables and handler sets are strictly rising lists is the
model's choice, log entries 19 and 20). -/
def Obligations.StepKeepsCanonicalForm : Prop :=
  ∀ s t : State, s.Canonical → step s = .next t → t.Canonical

/-- Every step on an input transaction keeps the ARP state machine's law: no destination is both resolved and
pending (44_arp.md R179). -/
def Obligations.StepKeepsResolvedAndPendingApart : Prop :=
  ∀ s t : State, s.InputsOnly → s.Exclusive → step s = .next t → t.InputsOnly ∧ t.Exclusive

/-- Every step on an input transaction keeps every pending datagram a well-formed datagram to its key
(10_state.md R33(a), 44_arp.md R172, 46_ip_outbound.md R214). -/
def Obligations.StepKeepsPendingDatagramsWellFormed : Prop :=
  ∀ s t : State, s.InputsOnly → s.PendingWellFormed → step s = .next t → t.InputsOnly ∧ t.PendingWellFormed

/-- Every step on an input transaction keeps what RESET has set up: the tables with their horizons and
capacities, ICMP registered, exactly the two frame protocols registered (70_reset_and_hazards.md R282; 10_state.md R33(c)). -/
def Obligations.StepKeepsWhatResetSetUp : Prop :=
  ∀ s t : State, s.InputsOnly → s.SetUp → step s = .next t → t.InputsOnly ∧ t.SetUp
end

