-- ==== Sys2Proof/Laws/Bytes.lean ====
section
/-! SUPPORT. The laws of the wire formats: fields and bytes, and that reading a header's bytes gives the
header back, in both directions (30_encoding.md R87, R90, R94). -/

namespace Sys2Proof

/-! ### Fields and bytes -/

theorem be16_join (w : Word16) : w.extractLsb' 8 8 ++ w.extractLsb' 0 8 = w := by
  apply BitVec.eq_of_getLsbD_eq
  intro i hi
  simp only [BitVec.getLsbD_append, BitVec.getLsbD_extractLsb']
  by_cases h : i < 8
  · simp [h]
  · have : i - 8 < 8 := by omega
    simp [h, this, Nat.add_sub_cancel' (Nat.le_of_not_lt h)]

theorem be16_append (x y : Byte) : be16 (x ++ y) = [x, y] := by
  have hx : (x ++ y).extractLsb' 8 8 = x := by
    apply BitVec.eq_of_getLsbD_eq; intro i hi; simp only [BitVec.getLsbD_extractLsb', BitVec.getLsbD_append]; simp [hi]
  have hy : (x ++ y).extractLsb' 0 8 = y := by
    apply BitVec.eq_of_getLsbD_eq; intro i hi; simp only [BitVec.getLsbD_extractLsb', BitVec.getLsbD_append]; simp [hi]
  simp [be16, hx, hy]

/-- A field's two bytes, as a number's. -/
theorem word16_split (w : Word16) : (BitVec.ofNat 8 (w.toNat / 256) ++ BitVec.ofNat 8 w.toNat : Word16) = w := by
  have h1 : w.extractLsb' 8 8 = BitVec.ofNat 8 (w.toNat / 256) := by
    apply BitVec.eq_of_toNat_eq; simp [Nat.shiftRight_eq_div_pow]
  have h2 : w.extractLsb' 0 8 = BitVec.ofNat 8 w.toNat := by
    apply BitVec.eq_of_toNat_eq; simp
  rw [← h1, ← h2, be16_join]

/-- A field's value: big-endian. -/
theorem word16_toNat (x y : Byte) : (x ++ y : Word16).toNat = 256 * x.toNat + y.toNat := by
  rw [BitVec.toNat_append, Nat.shiftLeft_eq, Nat.mul_comm _ (2 ^ 8),
    ← Nat.two_pow_add_eq_or_of_lt (by simpa using y.isLt)]

theorem nibbles_join (b : Byte) : b.extractLsb' 4 4 ++ b.extractLsb' 0 4 = b := by
  apply BitVec.eq_of_getLsbD_eq
  intro i hi
  simp only [BitVec.getLsbD_append, BitVec.getLsbD_extractLsb']
  by_cases h : i < 4
  · simp [h]
  · have : i - 4 < 4 := by omega
    simp [h, this, Nat.add_sub_cancel' (Nat.le_of_not_lt h)]

@[simp] theorem nibble_high (x y : BitVec 4) : (x ++ y).extractLsb' 4 4 = x := by
  apply BitVec.eq_of_getLsbD_eq; intro i hi; simp only [BitVec.getLsbD_extractLsb', BitVec.getLsbD_append]; simp [hi]

@[simp] theorem nibble_low (x y : BitVec 4) : (x ++ y).extractLsb' 0 4 = y := by
  apply BitVec.eq_of_getLsbD_eq; intro i hi; simp only [BitVec.getLsbD_extractLsb', BitVec.getLsbD_append]; simp [hi]

@[simp] theorem macOf_toBytes (m : Mac) : macOf m.toBytes = .ok m := rfl
@[simp] theorem ipOf_toBytes (a : Ip) : ipOf a.toBytes = .ok a := rfl
@[simp] theorem Mac.length_toBytes (m : Mac) : m.toBytes.length = 6 := rfl
@[simp] theorem Ip.length_toBytes (a : Ip) : a.toBytes.length = 4 := rfl
@[simp] theorem length_be16 (w : Word16) : (be16 w).length = 2 := rfl

theorem macOf_ok {b : Bytes} {m : Mac} (h : macOf b = .ok m) : m.toBytes = b := by
  unfold macOf at h
  split at h
  · cases h; rfl
  · cases h

theorem ipOf_ok {b : Bytes} {a : Ip} (h : ipOf b = .ok a) : a.toBytes = b := by
  unfold ipOf at h
  split at h
  · cases h; rfl
  · cases h

theorem numOf_ok {w n : Nat} {v : BitVec w} (h : numOf w n = .ok v) : v.toNat = n := by
  unfold numOf at h
  split at h
  · cases h; simpa using Nat.mod_eq_of_lt ‹_›
  · cases h

@[simp] theorem numOf_toNat {w : Nat} (v : BitVec w) : numOf w v.toNat = .ok v := by
  simp [numOf, v.isLt]

/-! ### Reading a header's bytes -/

@[simp] theorem ArpPacket.length_toBytes (p : ArpPacket) : p.toBytes.length = arpLen := rfl
@[simp] theorem Ipv4Header.length_toBytes (h : Ipv4Header) : h.toBytes.length = ipHdrLen := rfl
@[simp] theorem length_icmpHeaderBytes (t c : Byte) (k i q : Word16) : (icmpHeaderBytes t c k i q).length = icmpHdrLen := rfl

@[simp] theorem ArpPacket.read_toBytes (p : ArpPacket) (r : Bytes) : ArpPacket.read (p.toBytes ++ r) = p := by
  rcases p with ⟨ht, pt, hl, pl, op, ⟨sha, spa, tha, tpa⟩⟩
  simp [ArpPacket.read, ArpPacket.toBytes, be16, Mac.toBytes, Ip.toBytes, u16At, ipAt, macAt, byteAt, be16_join]

@[simp] theorem Ipv4Header.read_toBytes (h : Ipv4Header) (r : Bytes) : Ipv4Header.read (h.toBytes ++ r) = h := by
  rcases h with ⟨ver, proto, ⟨ihl, tos, tlen, id, fo, ttl, hcs, src, dst⟩⟩
  simp [Ipv4Header.read, Ipv4Header.toBytes, be16, Ip.toBytes, u16At, ipAt, byteAt, be16_join]

/-- A byte string of at least `n + 1` bytes begins with a byte. -/
theorem cons_of_length {b : Bytes} {n : Nat} (h : n + 1 ≤ b.length) : ∃ x r, b = x :: r ∧ n ≤ r.length := by
  cases b with
  | nil => simp at h
  | cons x r => exact ⟨x, r, rfl, by simpa using h⟩

theorem ArpPacket.toBytes_read {b : Bytes} (h : arpLen ≤ b.length) :
    (ArpPacket.read b).toBytes ++ b.drop arpLen = b := by
  obtain ⟨b0, b, rfl, h1⟩ := cons_of_length h
  obtain ⟨b1, b, rfl, h2⟩ := cons_of_length h1
  obtain ⟨b2, b, rfl, h3⟩ := cons_of_length h2
  obtain ⟨b3, b, rfl, h4⟩ := cons_of_length h3
  obtain ⟨b4, b, rfl, h5⟩ := cons_of_length h4
  obtain ⟨b5, b, rfl, h6⟩ := cons_of_length h5
  obtain ⟨b6, b, rfl, h7⟩ := cons_of_length h6
  obtain ⟨b7, b, rfl, h8⟩ := cons_of_length h7
  obtain ⟨b8, b, rfl, h9⟩ := cons_of_length h8
  obtain ⟨b9, b, rfl, h10⟩ := cons_of_length h9
  obtain ⟨b10, b, rfl, h11⟩ := cons_of_length h10
  obtain ⟨b11, b, rfl, h12⟩ := cons_of_length h11
  obtain ⟨b12, b, rfl, h13⟩ := cons_of_length h12
  obtain ⟨b13, b, rfl, h14⟩ := cons_of_length h13
  obtain ⟨b14, b, rfl, h15⟩ := cons_of_length h14
  obtain ⟨b15, b, rfl, h16⟩ := cons_of_length h15
  obtain ⟨b16, b, rfl, h17⟩ := cons_of_length h16
  obtain ⟨b17, b, rfl, h18⟩ := cons_of_length h17
  obtain ⟨b18, b, rfl, h19⟩ := cons_of_length h18
  obtain ⟨b19, b, rfl, h20⟩ := cons_of_length h19
  obtain ⟨b20, b, rfl, h21⟩ := cons_of_length h20
  obtain ⟨b21, b, rfl, h22⟩ := cons_of_length h21
  obtain ⟨b22, b, rfl, h23⟩ := cons_of_length h22
  obtain ⟨b23, b, rfl, h24⟩ := cons_of_length h23
  obtain ⟨b24, b, rfl, h25⟩ := cons_of_length h24
  obtain ⟨b25, b, rfl, h26⟩ := cons_of_length h25
  obtain ⟨b26, b, rfl, h27⟩ := cons_of_length h26
  obtain ⟨b27, b, rfl, h28⟩ := cons_of_length h27
  simp [ArpPacket.read, ArpPacket.toBytes, Mac.toBytes, Ip.toBytes, u16At, ipAt, macAt, byteAt, be16_append]

theorem Ipv4Header.toBytes_read {b : Bytes} (h : ipHdrLen ≤ b.length) :
    (Ipv4Header.read b).toBytes ++ b.drop ipHdrLen = b := by
  obtain ⟨b0, b, rfl, h1⟩ := cons_of_length h
  obtain ⟨b1, b, rfl, h2⟩ := cons_of_length h1
  obtain ⟨b2, b, rfl, h3⟩ := cons_of_length h2
  obtain ⟨b3, b, rfl, h4⟩ := cons_of_length h3
  obtain ⟨b4, b, rfl, h5⟩ := cons_of_length h4
  obtain ⟨b5, b, rfl, h6⟩ := cons_of_length h5
  obtain ⟨b6, b, rfl, h7⟩ := cons_of_length h6
  obtain ⟨b7, b, rfl, h8⟩ := cons_of_length h7
  obtain ⟨b8, b, rfl, h9⟩ := cons_of_length h8
  obtain ⟨b9, b, rfl, h10⟩ := cons_of_length h9
  obtain ⟨b10, b, rfl, h11⟩ := cons_of_length h10
  obtain ⟨b11, b, rfl, h12⟩ := cons_of_length h11
  obtain ⟨b12, b, rfl, h13⟩ := cons_of_length h12
  obtain ⟨b13, b, rfl, h14⟩ := cons_of_length h13
  obtain ⟨b14, b, rfl, h15⟩ := cons_of_length h14
  obtain ⟨b15, b, rfl, h16⟩ := cons_of_length h15
  obtain ⟨b16, b, rfl, h17⟩ := cons_of_length h16
  obtain ⟨b17, b, rfl, h18⟩ := cons_of_length h17
  obtain ⟨b18, b, rfl, h19⟩ := cons_of_length h18
  obtain ⟨b19, b, rfl, h20⟩ := cons_of_length h19
  simp [Ipv4Header.read, Ipv4Header.toBytes, Ip.toBytes, u16At, ipAt, byteAt, be16_append, nibbles_join]

theorem icmpHeaderBytes_read {m : Bytes} (h : icmpHdrLen ≤ m.length) :
    icmpHeaderBytes (byteAt m 0) (byteAt m 1) (u16At m 2) (u16At m 4) (u16At m 6) ++ m.drop icmpHdrLen = m := by
  obtain ⟨b0, m, rfl, h1⟩ := cons_of_length h
  obtain ⟨b1, m, rfl, h2⟩ := cons_of_length h1
  obtain ⟨b2, m, rfl, h3⟩ := cons_of_length h2
  obtain ⟨b3, m, rfl, h4⟩ := cons_of_length h3
  obtain ⟨b4, m, rfl, h5⟩ := cons_of_length h4
  obtain ⟨b5, m, rfl, h6⟩ := cons_of_length h5
  obtain ⟨b6, m, rfl, h7⟩ := cons_of_length h6
  obtain ⟨b7, m, rfl, h8⟩ := cons_of_length h7
  simp [icmpHeaderBytes, u16At, byteAt, be16_append]

/-! ### The rows that a packet selects -/

theorem arpRow_request (a : ArpAddresses) (r : Bytes) (src : Mac) :
    arpRow (arpRowBytes arpOpRequest a r) src = .arpOnPacketRequest a r src := by
  have hd : (arpRowBytes arpOpRequest a r).drop arpLen = r := List.drop_left' rfl
  rw [arpRow, hd]
  simp [arpRowBytes, ArpPacket.fixed, ArpPacket.constantsOk]

theorem arpRow_reply (a : ArpAddresses) (r : Bytes) (src : Mac) :
    arpRow (arpRowBytes arpOpReply a r) src = .arpOnPacketReply a r src := by
  have hd : (arpRowBytes arpOpReply a r).drop arpLen = r := List.drop_left' rfl
  rw [arpRow, hd]
  simp [arpRowBytes, ArpPacket.fixed, ArpPacket.constantsOk]

theorem datagramRow_bytes (p : Proto8) (f : Ipv4Fields) (r : Bytes) (src : Mac) :
    datagramRow (datagramRowBytes p f r) src =
      if p = ipProtoIcmp then .ipOnDatagramProtoIcmp f r src
      else if p = ipProtoOther then .ipOnDatagramProtoOther f r src else .ipOnDatagramV4 p f r src := by
  have hd : (datagramRowBytes p f r).drop ipHdrLen = r := List.drop_left' rfl
  rw [datagramRow, hd]
  simp [datagramRowBytes]

theorem messageRow_echo (c : Byte) (k i q : Word16) (p : Bytes) (src : Ip) :
    messageRow (echoRequestBytes c k i q p) src = .icmpOnMessageEchoRequest c k i q p src := by
  have hl : icmpHdrLen ≤ (echoRequestBytes c k i q p).length := by simp [echoRequestBytes]
  have hd : (echoRequestBytes c k i q p).drop icmpHdrLen = p := List.drop_left' rfl
  rw [messageRow, hd]
  simp only [hl, true_and]
  simp [echoRequestBytes, icmpHeaderBytes, be16, byteAt, u16At, be16_join]

end Sys2Proof
end

