-- ==== Sys2Proof/Laws/Checksum.lean ====
section
/-! SUPPORT. The laws of field writes and of the checksum (00_scope.md R10, 43_checksum.md). -/

namespace Sys2Proof.Machine

/-! ### The end-around carry -/

theorem foldCarry_spec {fuel s : Nat} (h : s ≤ fuel) :
    foldCarry fuel s < 65536 ∧ foldCarry fuel s % 65535 = s % 65535 ∧ (foldCarry fuel s = 0 ↔ s = 0) := by
  induction fuel generalizing s with
  | zero => simp [foldCarry]; omega
  | succ n ih =>
    simp only [foldCarry]
    split
    · have := ih (s := s % 65536 + s / 65536) (by omega)
      omega
    · omega

theorem checksum_toNat (b : Bytes) : (checksum b).toNat = 65535 - foldCarry (wordSum b) (wordSum b) := by
  have := (foldCarry_spec (Nat.le_refl (wordSum b))).1
  simp only [checksum, BitVec.toNat_ofNat]
  omega

/-! ### The sum of words -/

theorem wordSum_eq_zero (b : Bytes) : wordSum b = 0 ↔ ∀ x ∈ b, x = 0 := by
  induction b using wordSum.induct with
  | case1 => simp [wordSum]
  | case2 hi => rw [List.forall_mem_singleton, BitVec.toNat_eq]; simp [wordSum]
  | case3 hi lo rest ih =>
    rw [List.forall_mem_cons, List.forall_mem_cons, ← ih, BitVec.toNat_eq, BitVec.toNat_eq]
    simp [wordSum]
    omega

/-- One byte's share of the sum: the even offsets are the high bytes. -/
def weight (i : Nat) : Nat := if i % 2 = 0 then 256 else 1

/-- Replacing one byte changes the sum by the difference at that byte's weight. -/
theorem wordSum_set (b : Bytes) (i : Nat) (x : Byte) (h : i < b.length) :
    wordSum (b.set i x) + weight i * (byteAt b i).toNat = wordSum b + weight i * x.toNat := by
  induction b using wordSum.induct generalizing i with
  | case1 => simp at h
  | case2 hi =>
    obtain rfl : i = 0 := by simpa using h
    simp [wordSum, byteAt, weight]; omega
  | case3 hi lo rest ih =>
    match i with
    | 0 => simp [wordSum, byteAt, weight]; omega
    | 1 => simp [wordSum, byteAt, weight]; omega
    | i + 2 =>
      have := ih i (by simpa using h)
      have hw : weight (i + 2) = weight i := by simp [weight]
      have hb : byteAt (hi :: lo :: rest) (i + 2) = byteAt rest i := by simp [byteAt]
      simp only [List.set_cons_succ, wordSum, hw, hb]
      omega

/-! ### Field writes -/

@[simp] theorem length_beBytes (n v : Nat) : (beBytes n v).length = n := by
  induction n generalizing v <;> simp [beBytes, *]

theorem beBytes_two (v : Nat) : beBytes 2 v = [BitVec.ofNat 8 (v / 256), BitVec.ofNat 8 v] := by simp [beBytes]

theorem length_putBytes {b v : Bytes} {off : Nat} (h : off + v.length ≤ b.length) :
    (putBytes b off v).length = b.length := by
  simp [putBytes]; omega

/-- A two-byte write is a replacement of two bytes. -/
theorem putBytes_two {b : Bytes} {off : Nat} (h : off + 2 ≤ b.length) (x y : Byte) :
    putBytes b off [x, y] = (b.set off x).set (off + 1) y := by
  apply List.ext_getElem
  · rw [length_putBytes (by simpa using h)]; simp
  · intro i h1 h2
    simp only [putBytes, List.getElem_set, List.append_assoc, List.length_cons, List.length_nil]
    by_cases h3 : i < off
    · have e1 : off + 1 ≠ i := by omega
      have e2 : off ≠ i := by omega
      simp [h3, e1, e2, Nat.lt_of_lt_of_le h3 (by omega : off ≤ b.length)]
    · by_cases h4 : i = off
      · subst h4
        simp [Nat.min_eq_left (by omega : i ≤ b.length)]
      · by_cases h5 : i = off + 1
        · subst h5
          simp [Nat.min_eq_left (by omega : off ≤ b.length)]
        · have e1 : off + 1 ≠ i := by omega
          have e2 : off ≠ i := by omega
          have e4 : ¬ i - off < 2 := by omega
          have e5 : ¬ i - off = 0 := by omega
          have e6 : off + 2 + (i - off - 2) = i := by omega
          simp [List.getElem_append, e1, e2, Nat.min_eq_left (by omega : off ≤ b.length), List.getElem_cons, e5,
            show ¬ i - off - 1 = 0 by omega, show off + 2 + (i - off - 1 - 1) = i by omega, h3]

/-- A field reads back what was written. -/
theorem u16At_putBytes {b : Bytes} {off : Nat} (h : off + 2 ≤ b.length) (x y : Byte) :
    u16At (putBytes b off [x, y]) off = x ++ y := by
  rw [putBytes_two h]
  have h0 : off < b.length := by omega
  have h1 : off + 1 < b.length := by omega
  simp [u16At, byteAt, h0, h1]

/-- The second of two writes to a field is the one that stays. -/
theorem putBytes_putBytes {b : Bytes} {off : Nat} (h : off + 2 ≤ b.length) (x y x' y' : Byte) :
    putBytes (putBytes b off [x, y]) off [x', y'] = putBytes b off [x', y'] := by
  rw [putBytes_two (by rw [length_putBytes (by simpa using h)]; exact h), putBytes_two h, putBytes_two h]
  apply List.ext_getElem (by simp)
  intro i _ _
  simp only [List.getElem_set]
  split <;> simp_all

theorem memRead_two {b : Bytes} {off : Nat} (h : off + 2 ≤ b.length) :
    memRead b off 2 = some (u16At b off).toNat := by
  have h0 : off < b.length := by omega
  have h1 : off + 1 < b.length := by omega
  have hd : (b.drop off).take 2 = [b[off], b[off + 1]] := by
    rw [List.drop_eq_getElem_cons h0, List.drop_eq_getElem_cons h1]; rfl
  simp only [memRead, if_pos h, hd, beNat, u16At, byteAt, List.getD_eq_getElem?_getD, List.getElem?_eq_getElem h0,
    List.getElem?_eq_getElem h1, Option.getD_some, List.foldl_cons, List.foldl_nil, word16_toNat]
  congr 1
  omega

theorem memWrite_two {b : Bytes} {off v : Nat} (h : off + 2 ≤ b.length) (hv : v < 65536) :
    memWrite b off 2 v = some (putBytes b off [BitVec.ofNat 8 (v / 256), BitVec.ofNat 8 v]) := by
  simp [memWrite, h, hv, beBytes_two]

/-- CKSUM16.VERIFY of a field inside the string (R162). -/
theorem verifyChecksum_eq {b : Bytes} {off : Nat} (h : off + 2 ≤ b.length) :
    verifyChecksum b off = some (decide (checksum (putBytes b off [0, 0]) = u16At b off)) := by
  simp [verifyChecksum, memRead_two h, memWrite_two h, BitVec.toNat_inj, Bool.beq_eq_decide_eq]

end Sys2Proof.Machine
end

