-- ==== Sys2Proof/Laws/State.lean ====
section
/-! SUPPORT. What each update of the state does to each field: one lemma a field, so that no proof unfolds
a record update. -/

namespace Sys2Proof.Machine

variable (s : State)

@[simp] theorem tick_cfg : (tick s).cfg = s.cfg := rfl
@[simp] theorem tick_phase : (tick s).phase = s.phase := rfl
@[simp] theorem tick_idctr : (tick s).idctr = s.idctr := rfl
@[simp] theorem tick_cache : (tick s).cache = s.cache := rfl
@[simp] theorem tick_pending : (tick s).pending = s.pending := rfl
@[simp] theorem tick_registered : (tick s).registered = s.registered := rfl
@[simp] theorem tick_fdRegistered : (tick s).fdRegistered = s.fdRegistered := rfl
@[simp] theorem tick_inbox : (tick s).inbox = s.inbox := rfl
@[simp] theorem tick_driver : (tick s).driver = s.driver := rfl
@[simp] theorem tick_clock : (tick s).clock = nextTime s := rfl
@[simp] theorem tick_ticks : (tick s).ticks = s.ticks.tail := rfl
@[simp] theorem tick_draws : (tick s).draws = s.draws + 1 := rfl
@[simp] theorem tick_outbox : (tick s).outbox = s.outbox := rfl
@[simp] theorem tick_causes : (tick s).causes = s.causes := rfl
@[simp] theorem tick_ret : (tick s).ret = s.ret := rfl

@[simp] theorem draw_cfg (n : Nat) : (draw n s).cfg = s.cfg := rfl
@[simp] theorem draw_phase (n : Nat) : (draw n s).phase = s.phase := rfl
@[simp] theorem draw_idctr (n : Nat) : (draw n s).idctr = s.idctr := rfl
@[simp] theorem draw_cache (n : Nat) : (draw n s).cache = s.cache := rfl
@[simp] theorem draw_pending (n : Nat) : (draw n s).pending = s.pending := rfl
@[simp] theorem draw_registered (n : Nat) : (draw n s).registered = s.registered := rfl
@[simp] theorem draw_fdRegistered (n : Nat) : (draw n s).fdRegistered = s.fdRegistered := rfl
@[simp] theorem draw_inbox (n : Nat) : (draw n s).inbox = s.inbox := rfl
@[simp] theorem draw_driver (n : Nat) : (draw n s).driver = s.driver := rfl
@[simp] theorem draw_clock (n : Nat) : (draw n s).clock = s.clock := rfl
@[simp] theorem draw_ticks (n : Nat) : (draw n s).ticks = s.ticks := rfl
@[simp] theorem draw_draws (n : Nat) : (draw n s).draws = s.draws + n := rfl
@[simp] theorem draw_outbox (n : Nat) : (draw n s).outbox = s.outbox := rfl
@[simp] theorem draw_causes (n : Nat) : (draw n s).causes = s.causes := rfl
@[simp] theorem draw_ret (n : Nat) : (draw n s).ret = s.ret := rfl

@[simp] theorem putCache_cfg (k : Ip) (v : Mac) : (putCache k v s).cfg = s.cfg := rfl
@[simp] theorem putCache_phase (k : Ip) (v : Mac) : (putCache k v s).phase = s.phase := rfl
@[simp] theorem putCache_idctr (k : Ip) (v : Mac) : (putCache k v s).idctr = s.idctr := rfl
@[simp] theorem putCache_cache (k : Ip) (v : Mac) : (putCache k v s).cache = s.cache.put k v (nextTime s) := rfl
@[simp] theorem putCache_pending (k : Ip) (v : Mac) : (putCache k v s).pending = s.pending := rfl
@[simp] theorem putCache_registered (k : Ip) (v : Mac) : (putCache k v s).registered = s.registered := rfl
@[simp] theorem putCache_fdRegistered (k : Ip) (v : Mac) : (putCache k v s).fdRegistered = s.fdRegistered := rfl
@[simp] theorem putCache_inbox (k : Ip) (v : Mac) : (putCache k v s).inbox = s.inbox := rfl
@[simp] theorem putCache_driver (k : Ip) (v : Mac) : (putCache k v s).driver = s.driver := rfl
@[simp] theorem putCache_clock (k : Ip) (v : Mac) : (putCache k v s).clock = nextTime s := rfl
@[simp] theorem putCache_ticks (k : Ip) (v : Mac) : (putCache k v s).ticks = s.ticks.tail := rfl
@[simp] theorem putCache_draws (k : Ip) (v : Mac) : (putCache k v s).draws = s.draws + 1 := rfl
@[simp] theorem putCache_outbox (k : Ip) (v : Mac) : (putCache k v s).outbox = s.outbox := rfl
@[simp] theorem putCache_causes (k : Ip) (v : Mac) : (putCache k v s).causes = s.causes := rfl
@[simp] theorem putCache_ret (k : Ip) (v : Mac) : (putCache k v s).ret = s.ret := rfl

@[simp] theorem putPending_cfg (k : Ip) (v : Bytes) : (putPending k v s).cfg = s.cfg := rfl
@[simp] theorem putPending_phase (k : Ip) (v : Bytes) : (putPending k v s).phase = s.phase := rfl
@[simp] theorem putPending_idctr (k : Ip) (v : Bytes) : (putPending k v s).idctr = s.idctr := rfl
@[simp] theorem putPending_cache (k : Ip) (v : Bytes) : (putPending k v s).cache = s.cache := rfl
@[simp] theorem putPending_pending (k : Ip) (v : Bytes) : (putPending k v s).pending = s.pending.put k v (nextTime s) := rfl
@[simp] theorem putPending_registered (k : Ip) (v : Bytes) : (putPending k v s).registered = s.registered := rfl
@[simp] theorem putPending_fdRegistered (k : Ip) (v : Bytes) : (putPending k v s).fdRegistered = s.fdRegistered := rfl
@[simp] theorem putPending_inbox (k : Ip) (v : Bytes) : (putPending k v s).inbox = s.inbox := rfl
@[simp] theorem putPending_driver (k : Ip) (v : Bytes) : (putPending k v s).driver = s.driver := rfl
@[simp] theorem putPending_clock (k : Ip) (v : Bytes) : (putPending k v s).clock = nextTime s := rfl
@[simp] theorem putPending_ticks (k : Ip) (v : Bytes) : (putPending k v s).ticks = s.ticks.tail := rfl
@[simp] theorem putPending_draws (k : Ip) (v : Bytes) : (putPending k v s).draws = s.draws + 1 := rfl
@[simp] theorem putPending_outbox (k : Ip) (v : Bytes) : (putPending k v s).outbox = s.outbox := rfl
@[simp] theorem putPending_causes (k : Ip) (v : Bytes) : (putPending k v s).causes = s.causes := rfl
@[simp] theorem putPending_ret (k : Ip) (v : Bytes) : (putPending k v s).ret = s.ret := rfl

@[simp] theorem dropCache_cfg (k : Ip) : (dropCache k s).cfg = s.cfg := rfl
@[simp] theorem dropCache_phase (k : Ip) : (dropCache k s).phase = s.phase := rfl
@[simp] theorem dropCache_idctr (k : Ip) : (dropCache k s).idctr = s.idctr := rfl
@[simp] theorem dropCache_cache (k : Ip) : (dropCache k s).cache = s.cache.erase k := rfl
@[simp] theorem dropCache_pending (k : Ip) : (dropCache k s).pending = s.pending := rfl
@[simp] theorem dropCache_registered (k : Ip) : (dropCache k s).registered = s.registered := rfl
@[simp] theorem dropCache_fdRegistered (k : Ip) : (dropCache k s).fdRegistered = s.fdRegistered := rfl
@[simp] theorem dropCache_inbox (k : Ip) : (dropCache k s).inbox = s.inbox := rfl
@[simp] theorem dropCache_driver (k : Ip) : (dropCache k s).driver = s.driver := rfl
@[simp] theorem dropCache_clock (k : Ip) : (dropCache k s).clock = s.clock := rfl
@[simp] theorem dropCache_ticks (k : Ip) : (dropCache k s).ticks = s.ticks := rfl
@[simp] theorem dropCache_draws (k : Ip) : (dropCache k s).draws = s.draws := rfl
@[simp] theorem dropCache_outbox (k : Ip) : (dropCache k s).outbox = s.outbox := rfl
@[simp] theorem dropCache_causes (k : Ip) : (dropCache k s).causes = s.causes := rfl
@[simp] theorem dropCache_ret (k : Ip) : (dropCache k s).ret = s.ret := rfl

@[simp] theorem dropPending_cfg (k : Ip) : (dropPending k s).cfg = s.cfg := rfl
@[simp] theorem dropPending_phase (k : Ip) : (dropPending k s).phase = s.phase := rfl
@[simp] theorem dropPending_idctr (k : Ip) : (dropPending k s).idctr = s.idctr := rfl
@[simp] theorem dropPending_cache (k : Ip) : (dropPending k s).cache = s.cache := rfl
@[simp] theorem dropPending_pending (k : Ip) : (dropPending k s).pending = s.pending.erase k := rfl
@[simp] theorem dropPending_registered (k : Ip) : (dropPending k s).registered = s.registered := rfl
@[simp] theorem dropPending_fdRegistered (k : Ip) : (dropPending k s).fdRegistered = s.fdRegistered := rfl
@[simp] theorem dropPending_inbox (k : Ip) : (dropPending k s).inbox = s.inbox := rfl
@[simp] theorem dropPending_driver (k : Ip) : (dropPending k s).driver = s.driver := rfl
@[simp] theorem dropPending_clock (k : Ip) : (dropPending k s).clock = s.clock := rfl
@[simp] theorem dropPending_ticks (k : Ip) : (dropPending k s).ticks = s.ticks := rfl
@[simp] theorem dropPending_draws (k : Ip) : (dropPending k s).draws = s.draws := rfl
@[simp] theorem dropPending_outbox (k : Ip) : (dropPending k s).outbox = s.outbox := rfl
@[simp] theorem dropPending_causes (k : Ip) : (dropPending k s).causes = s.causes := rfl
@[simp] theorem dropPending_ret (k : Ip) : (dropPending k s).ret = s.ret := rfl

@[simp] theorem registerProtocol_cfg (p : Proto8) : (registerProtocol p s).cfg = s.cfg := rfl
@[simp] theorem registerProtocol_phase (p : Proto8) : (registerProtocol p s).phase = s.phase := rfl
@[simp] theorem registerProtocol_idctr (p : Proto8) : (registerProtocol p s).idctr = s.idctr := rfl
@[simp] theorem registerProtocol_cache (p : Proto8) : (registerProtocol p s).cache = s.cache := rfl
@[simp] theorem registerProtocol_pending (p : Proto8) : (registerProtocol p s).pending = s.pending := rfl
@[simp] theorem registerProtocol_registered (p : Proto8) : (registerProtocol p s).registered = insertNum p s.registered := rfl
@[simp] theorem registerProtocol_fdRegistered (p : Proto8) : (registerProtocol p s).fdRegistered = s.fdRegistered := rfl
@[simp] theorem registerProtocol_inbox (p : Proto8) : (registerProtocol p s).inbox = s.inbox := rfl
@[simp] theorem registerProtocol_driver (p : Proto8) : (registerProtocol p s).driver = s.driver := rfl
@[simp] theorem registerProtocol_clock (p : Proto8) : (registerProtocol p s).clock = s.clock := rfl
@[simp] theorem registerProtocol_ticks (p : Proto8) : (registerProtocol p s).ticks = s.ticks := rfl
@[simp] theorem registerProtocol_draws (p : Proto8) : (registerProtocol p s).draws = s.draws := rfl
@[simp] theorem registerProtocol_outbox (p : Proto8) : (registerProtocol p s).outbox = s.outbox := rfl
@[simp] theorem registerProtocol_causes (p : Proto8) : (registerProtocol p s).causes = s.causes := rfl
@[simp] theorem registerProtocol_ret (p : Proto8) : (registerProtocol p s).ret = s.ret := rfl

@[simp] theorem emit_cfg (o : Output) : (emit o s).cfg = s.cfg := rfl
@[simp] theorem emit_phase (o : Output) : (emit o s).phase = s.phase := rfl
@[simp] theorem emit_idctr (o : Output) : (emit o s).idctr = s.idctr := rfl
@[simp] theorem emit_cache (o : Output) : (emit o s).cache = s.cache := rfl
@[simp] theorem emit_pending (o : Output) : (emit o s).pending = s.pending := rfl
@[simp] theorem emit_registered (o : Output) : (emit o s).registered = s.registered := rfl
@[simp] theorem emit_fdRegistered (o : Output) : (emit o s).fdRegistered = s.fdRegistered := rfl
@[simp] theorem emit_inbox (o : Output) : (emit o s).inbox = s.inbox := rfl
@[simp] theorem emit_driver (o : Output) : (emit o s).driver = s.driver := rfl
@[simp] theorem emit_clock (o : Output) : (emit o s).clock = s.clock := rfl
@[simp] theorem emit_ticks (o : Output) : (emit o s).ticks = s.ticks := rfl
@[simp] theorem emit_draws (o : Output) : (emit o s).draws = s.draws := rfl
@[simp] theorem emit_outbox (o : Output) : (emit o s).outbox = s.outbox ++ [o] := rfl
@[simp] theorem emit_causes (o : Output) : (emit o s).causes = s.causes := rfl
@[simp] theorem emit_ret (o : Output) : (emit o s).ret = s.ret := rfl

@[simp] theorem fdRegister_cfg (p : Proto16) : (fdRegister p s).cfg = s.cfg := rfl
@[simp] theorem fdRegister_phase (p : Proto16) : (fdRegister p s).phase = s.phase := rfl
@[simp] theorem fdRegister_idctr (p : Proto16) : (fdRegister p s).idctr = s.idctr := rfl
@[simp] theorem fdRegister_cache (p : Proto16) : (fdRegister p s).cache = s.cache := rfl
@[simp] theorem fdRegister_pending (p : Proto16) : (fdRegister p s).pending = s.pending := rfl
@[simp] theorem fdRegister_registered (p : Proto16) : (fdRegister p s).registered = s.registered := rfl
@[simp] theorem fdRegister_fdRegistered (p : Proto16) : (fdRegister p s).fdRegistered = insertNum p s.fdRegistered := rfl
@[simp] theorem fdRegister_inbox (p : Proto16) : (fdRegister p s).inbox = s.inbox := rfl
@[simp] theorem fdRegister_driver (p : Proto16) : (fdRegister p s).driver = s.driver := rfl
@[simp] theorem fdRegister_clock (p : Proto16) : (fdRegister p s).clock = s.clock := rfl
@[simp] theorem fdRegister_ticks (p : Proto16) : (fdRegister p s).ticks = s.ticks := rfl
@[simp] theorem fdRegister_draws (p : Proto16) : (fdRegister p s).draws = s.draws := rfl
@[simp] theorem fdRegister_outbox (p : Proto16) : (fdRegister p s).outbox = s.outbox ++ [.fdRegister p] := rfl
@[simp] theorem fdRegister_causes (p : Proto16) : (fdRegister p s).causes = s.causes := rfl
@[simp] theorem fdRegister_ret (p : Proto16) : (fdRegister p s).ret = s.ret := rfl

@[simp] theorem dispose_cfg (c : Cause) : (dispose c s).cfg = s.cfg := rfl
@[simp] theorem dispose_phase (c : Cause) : (dispose c s).phase = s.phase := rfl
@[simp] theorem dispose_idctr (c : Cause) : (dispose c s).idctr = s.idctr := rfl
@[simp] theorem dispose_cache (c : Cause) : (dispose c s).cache = s.cache := rfl
@[simp] theorem dispose_pending (c : Cause) : (dispose c s).pending = s.pending := rfl
@[simp] theorem dispose_registered (c : Cause) : (dispose c s).registered = s.registered := rfl
@[simp] theorem dispose_fdRegistered (c : Cause) : (dispose c s).fdRegistered = s.fdRegistered := rfl
@[simp] theorem dispose_inbox (c : Cause) : (dispose c s).inbox = s.inbox := rfl
@[simp] theorem dispose_driver (c : Cause) : (dispose c s).driver = s.driver := rfl
@[simp] theorem dispose_clock (c : Cause) : (dispose c s).clock = s.clock := rfl
@[simp] theorem dispose_ticks (c : Cause) : (dispose c s).ticks = s.ticks := rfl
@[simp] theorem dispose_draws (c : Cause) : (dispose c s).draws = s.draws := rfl
@[simp] theorem dispose_outbox (c : Cause) : (dispose c s).outbox = s.outbox := rfl
@[simp] theorem dispose_causes (c : Cause) : (dispose c s).causes = s.causes ++ [c] := rfl
@[simp] theorem dispose_ret (c : Cause) : (dispose c s).ret = s.ret := rfl

@[simp] theorem giveBack_cfg (r : Ret) : (giveBack r s).cfg = s.cfg := rfl
@[simp] theorem giveBack_phase (r : Ret) : (giveBack r s).phase = s.phase := rfl
@[simp] theorem giveBack_idctr (r : Ret) : (giveBack r s).idctr = s.idctr := rfl
@[simp] theorem giveBack_cache (r : Ret) : (giveBack r s).cache = s.cache := rfl
@[simp] theorem giveBack_pending (r : Ret) : (giveBack r s).pending = s.pending := rfl
@[simp] theorem giveBack_registered (r : Ret) : (giveBack r s).registered = s.registered := rfl
@[simp] theorem giveBack_fdRegistered (r : Ret) : (giveBack r s).fdRegistered = s.fdRegistered := rfl
@[simp] theorem giveBack_inbox (r : Ret) : (giveBack r s).inbox = s.inbox := rfl
@[simp] theorem giveBack_driver (r : Ret) : (giveBack r s).driver = s.driver := rfl
@[simp] theorem giveBack_clock (r : Ret) : (giveBack r s).clock = s.clock := rfl
@[simp] theorem giveBack_ticks (r : Ret) : (giveBack r s).ticks = s.ticks := rfl
@[simp] theorem giveBack_draws (r : Ret) : (giveBack r s).draws = s.draws := rfl
@[simp] theorem giveBack_outbox (r : Ret) : (giveBack r s).outbox = s.outbox := rfl
@[simp] theorem giveBack_causes (r : Ret) : (giveBack r s).causes = s.causes := rfl
@[simp] theorem giveBack_ret (r : Ret) : (giveBack r s).ret = r := rfl

@[simp] theorem sendRequest_cfg (a : Ip) : (sendRequest a s).cfg = s.cfg := rfl
@[simp] theorem sendRequest_phase (a : Ip) : (sendRequest a s).phase = s.phase := rfl
@[simp] theorem sendRequest_idctr (a : Ip) : (sendRequest a s).idctr = s.idctr := rfl
@[simp] theorem sendRequest_cache (a : Ip) : (sendRequest a s).cache = s.cache := rfl
@[simp] theorem sendRequest_pending (a : Ip) : (sendRequest a s).pending = s.pending := rfl
@[simp] theorem sendRequest_registered (a : Ip) : (sendRequest a s).registered = s.registered := rfl
@[simp] theorem sendRequest_fdRegistered (a : Ip) : (sendRequest a s).fdRegistered = s.fdRegistered := rfl
@[simp] theorem sendRequest_inbox (a : Ip) : (sendRequest a s).inbox = s.inbox := rfl
@[simp] theorem sendRequest_driver (a : Ip) : (sendRequest a s).driver = s.driver := rfl
@[simp] theorem sendRequest_clock (a : Ip) : (sendRequest a s).clock = s.clock := rfl
@[simp] theorem sendRequest_ticks (a : Ip) : (sendRequest a s).ticks = s.ticks := rfl
@[simp] theorem sendRequest_draws (a : Ip) : (sendRequest a s).draws = s.draws := rfl
@[simp] theorem sendRequest_outbox (a : Ip) : (sendRequest a s).outbox = s.outbox ++ [.fdTransmit (arpBuild s.cfg arpOpRequest Mac.zero a) Mac.broadcast s.cfg.protoArp] := rfl
@[simp] theorem sendRequest_causes (a : Ip) : (sendRequest a s).causes = s.causes := rfl
@[simp] theorem sendRequest_ret (a : Ip) : (sendRequest a s).ret = s.ret := rfl

@[simp] theorem sendReply_cfg (a : Ip) (m : Mac) : (sendReply a m s).cfg = s.cfg := rfl
@[simp] theorem sendReply_phase (a : Ip) (m : Mac) : (sendReply a m s).phase = s.phase := rfl
@[simp] theorem sendReply_idctr (a : Ip) (m : Mac) : (sendReply a m s).idctr = s.idctr := rfl
@[simp] theorem sendReply_cache (a : Ip) (m : Mac) : (sendReply a m s).cache = s.cache := rfl
@[simp] theorem sendReply_pending (a : Ip) (m : Mac) : (sendReply a m s).pending = s.pending := rfl
@[simp] theorem sendReply_registered (a : Ip) (m : Mac) : (sendReply a m s).registered = s.registered := rfl
@[simp] theorem sendReply_fdRegistered (a : Ip) (m : Mac) : (sendReply a m s).fdRegistered = s.fdRegistered := rfl
@[simp] theorem sendReply_inbox (a : Ip) (m : Mac) : (sendReply a m s).inbox = s.inbox := rfl
@[simp] theorem sendReply_driver (a : Ip) (m : Mac) : (sendReply a m s).driver = s.driver := rfl
@[simp] theorem sendReply_clock (a : Ip) (m : Mac) : (sendReply a m s).clock = s.clock := rfl
@[simp] theorem sendReply_ticks (a : Ip) (m : Mac) : (sendReply a m s).ticks = s.ticks := rfl
@[simp] theorem sendReply_draws (a : Ip) (m : Mac) : (sendReply a m s).draws = s.draws := rfl
@[simp] theorem sendReply_outbox (a : Ip) (m : Mac) : (sendReply a m s).outbox = s.outbox ++ [.fdTransmit (arpBuild s.cfg arpOpReply m a) m s.cfg.protoArp] := rfl
@[simp] theorem sendReply_causes (a : Ip) (m : Mac) : (sendReply a m s).causes = s.causes := rfl
@[simp] theorem sendReply_ret (a : Ip) (m : Mac) : (sendReply a m s).ret = s.ret := rfl

@[simp] theorem initIcmp_cfg : (initIcmp s).cfg = s.cfg := rfl
@[simp] theorem initIcmp_phase : (initIcmp s).phase = s.phase := rfl
@[simp] theorem initIcmp_idctr : (initIcmp s).idctr = s.idctr := rfl
@[simp] theorem initIcmp_cache : (initIcmp s).cache = s.cache := rfl
@[simp] theorem initIcmp_pending : (initIcmp s).pending = s.pending := rfl
@[simp] theorem initIcmp_registered : (initIcmp s).registered = insertNum ipProtoIcmp s.registered := rfl
@[simp] theorem initIcmp_fdRegistered : (initIcmp s).fdRegistered = s.fdRegistered := rfl
@[simp] theorem initIcmp_inbox : (initIcmp s).inbox = s.inbox := rfl
@[simp] theorem initIcmp_driver : (initIcmp s).driver = s.driver := rfl
@[simp] theorem initIcmp_clock : (initIcmp s).clock = s.clock := rfl
@[simp] theorem initIcmp_ticks : (initIcmp s).ticks = s.ticks := rfl
@[simp] theorem initIcmp_draws : (initIcmp s).draws = s.draws := rfl
@[simp] theorem initIcmp_outbox : (initIcmp s).outbox = s.outbox := rfl
@[simp] theorem initIcmp_causes : (initIcmp s).causes = s.causes := rfl
@[simp] theorem initIcmp_ret : (initIcmp s).ret = s.ret := rfl

@[simp] theorem initIp_cfg : (initIp s).cfg = s.cfg := rfl
@[simp] theorem initIp_phase : (initIp s).phase = s.phase := rfl
@[simp] theorem initIp_idctr : (initIp s).idctr = s.idctr := rfl
@[simp] theorem initIp_cache : (initIp s).cache = s.cache := rfl
@[simp] theorem initIp_pending : (initIp s).pending = s.pending := rfl
@[simp] theorem initIp_registered : (initIp s).registered = s.registered := rfl
@[simp] theorem initIp_fdRegistered : (initIp s).fdRegistered = insertNum s.cfg.protoIp s.fdRegistered := rfl
@[simp] theorem initIp_inbox : (initIp s).inbox = s.inbox := rfl
@[simp] theorem initIp_driver : (initIp s).driver = s.driver := rfl
@[simp] theorem initIp_clock : (initIp s).clock = s.clock := rfl
@[simp] theorem initIp_ticks : (initIp s).ticks = s.ticks := rfl
@[simp] theorem initIp_draws : (initIp s).draws = s.draws := rfl
@[simp] theorem initIp_outbox : (initIp s).outbox = s.outbox ++ [.fdRegister s.cfg.protoIp] := rfl
@[simp] theorem initIp_causes : (initIp s).causes = s.causes := rfl
@[simp] theorem initIp_ret : (initIp s).ret = s.ret := rfl

@[simp] theorem clearState_cfg : (clearState s).cfg = s.cfg := rfl
@[simp] theorem clearState_phase : (clearState s).phase = s.phase := rfl
@[simp] theorem clearState_idctr : (clearState s).idctr = s.cfg.idInit := rfl
@[simp] theorem clearState_cache : (clearState s).cache = Table.absent := rfl
@[simp] theorem clearState_pending : (clearState s).pending = Table.absent := rfl
@[simp] theorem clearState_registered : (clearState s).registered = [] := rfl
@[simp] theorem clearState_fdRegistered : (clearState s).fdRegistered = [] := rfl
@[simp] theorem clearState_inbox : (clearState s).inbox = s.inbox := rfl
@[simp] theorem clearState_driver : (clearState s).driver = s.driver := rfl
@[simp] theorem clearState_clock : (clearState s).clock = s.clock := rfl
@[simp] theorem clearState_ticks : (clearState s).ticks = s.ticks := rfl
@[simp] theorem clearState_draws : (clearState s).draws = s.draws := rfl
@[simp] theorem clearState_outbox : (clearState s).outbox = s.outbox := rfl
@[simp] theorem clearState_causes : (clearState s).causes = s.causes := rfl
@[simp] theorem clearState_ret : (clearState s).ret = s.ret := rfl

@[simp] theorem taking_cfg (rest : List Transaction) : ((s.taking rest)).cfg = s.cfg := rfl
@[simp] theorem taking_phase (rest : List Transaction) : ((s.taking rest)).phase = s.phase := rfl
@[simp] theorem taking_idctr (rest : List Transaction) : ((s.taking rest)).idctr = s.idctr := rfl
@[simp] theorem taking_cache (rest : List Transaction) : ((s.taking rest)).cache = s.cache := rfl
@[simp] theorem taking_pending (rest : List Transaction) : ((s.taking rest)).pending = s.pending := rfl
@[simp] theorem taking_registered (rest : List Transaction) : ((s.taking rest)).registered = s.registered := rfl
@[simp] theorem taking_fdRegistered (rest : List Transaction) : ((s.taking rest)).fdRegistered = s.fdRegistered := rfl
@[simp] theorem taking_inbox (rest : List Transaction) : ((s.taking rest)).inbox = rest := rfl
@[simp] theorem taking_driver (rest : List Transaction) : ((s.taking rest)).driver = s.driver := rfl
@[simp] theorem taking_clock (rest : List Transaction) : ((s.taking rest)).clock = s.clock := rfl
@[simp] theorem taking_ticks (rest : List Transaction) : ((s.taking rest)).ticks = s.ticks := rfl
@[simp] theorem taking_draws (rest : List Transaction) : ((s.taking rest)).draws = s.draws := rfl
@[simp] theorem taking_outbox (rest : List Transaction) : ((s.taking rest)).outbox = s.outbox := rfl
@[simp] theorem taking_causes (rest : List Transaction) : ((s.taking rest)).causes = [] := rfl
@[simp] theorem taking_ret (rest : List Transaction) : ((s.taking rest)).ret = Ret.none := rfl

end Sys2Proof.Machine
end

