-- ==== Sys2Proof/Laws/Table.lean ====
section
/-! SUPPORT. The laws of one expiring map: reads after writes, and that every table operation keeps the
canonical form (keys strictly rising). -/

namespace Sys2Proof.Machine

variable {V : Type}

theorem keyNum_injective {a b : Ip} (h : keyNum a = keyNum b) : a = b := by
  rcases a with ⟨a0, a1, a2, a3⟩
  rcases b with ⟨b0, b1, b2, b3⟩
  simp only [keyNum] at h
  have h0 : a0.toNat = b0.toNat := by omega
  have h1 : a1.toNat = b1.toNat := by omega
  have h2 : a2.toNat = b2.toNat := by omega
  have h3 : a3.toNat = b3.toNat := by omega
  simp [BitVec.toNat_inj] at h0 h1 h2 h3
  simp [h0, h1, h2, h3]

/-! ### Reads after writes -/

theorem find_insertEntry (e : Entry V) (l : List (Entry V)) (k : Ip) :
    (insertEntry e l).find? (fun x => x.key == k) =
      if e.key = k then some e else l.find? (fun x => x.key == k) := by
  induction l with
  | nil => by_cases h : e.key = k <;> simp [insertEntry, h]
  | cons x xs ih =>
    simp only [insertEntry]
    split
    · by_cases h : e.key = k <;> simp [List.find?_cons, h]
    · split
      · rename_i heq
        by_cases h : e.key = k
        · simp [h]
        · have hx : (x.key == k) = false := by simpa [← heq] using h
          simp [h, hx]
      · rename_i hne
        by_cases h : e.key = k
        · have hx : (x.key == k) = false := by simpa [← h] using fun hh : x.key = e.key => hne hh.symm
          simpa [List.find?_cons, h, hx] using ih
        · simp only [List.find?_cons, ih, if_neg h]

@[simp] theorem lookup_put_self (t : Table V) (k : Ip) (v : V) (now : Nat) :
    (t.put k v now).lookup k = some ⟨k, v, now⟩ := by
  simp [Table.lookup, Table.put, find_insertEntry]

theorem lookup_put_of_ne (t : Table V) {k k' : Ip} (v : V) (now : Nat) (h : k ≠ k') :
    (t.put k v now).lookup k' = t.lookup k' := by
  simp [Table.lookup, Table.put, find_insertEntry, h]

theorem lookup_erase (t : Table V) (k k' : Ip) :
    (t.erase k).lookup k' = if k' = k then none else t.lookup k' := by
  simp only [Table.lookup, Table.erase, List.find?_filter]
  by_cases hk : k' = k
  · subst hk
    simp
  · simp only [if_neg hk]
    congr 1
    funext x
    by_cases hx : x.key = k'
    · simp [hx, hk]
    · simp [hx]

/-! ### The fields that writes leave alone -/

@[simp] theorem put_ready (t : Table V) (k : Ip) (v : V) (now : Nat) : (t.put k v now).ready = t.ready := rfl
@[simp] theorem put_horizon (t : Table V) (k : Ip) (v : V) (now : Nat) : (t.put k v now).horizon = t.horizon := rfl
@[simp] theorem put_capacity (t : Table V) (k : Ip) (v : V) (now : Nat) : (t.put k v now).capacity = t.capacity := rfl
@[simp] theorem erase_ready (t : Table V) (k : Ip) : (t.erase k).ready = t.ready := rfl
@[simp] theorem erase_horizon (t : Table V) (k : Ip) : (t.erase k).horizon = t.horizon := rfl
@[simp] theorem erase_capacity (t : Table V) (k : Ip) : (t.erase k).capacity = t.capacity := rfl
@[simp] theorem made_ready (c : Option Nat) (e : Nat) : (Table.made V c e).ready = true := rfl
@[simp] theorem made_horizon (c : Option Nat) (e : Nat) : (Table.made V c e).horizon = e := rfl
@[simp] theorem made_capacity (c : Option Nat) (e : Nat) : (Table.made V c e).capacity = c := rfl
@[simp] theorem made_store (c : Option Nat) (e : Nat) : (Table.made V c e).store = [] := rfl
@[simp] theorem made_lookup (c : Option Nat) (e : Nat) (k : Ip) : (Table.made V c e).lookup k = none := rfl
@[simp] theorem absent_lookup (k : Ip) : (Table.absent : Table V).lookup k = none := rfl
@[simp] theorem absent_ready : (Table.absent : Table V).ready = false := rfl
@[simp] theorem absent_store : (Table.absent : Table V).store = [] := rfl

/-! ### What a stored list holds after a write -/

theorem mem_insertEntry {e x : Entry V} {l : List (Entry V)} (h : x ∈ insertEntry e l) : x = e ∨ x ∈ l := by
  induction l with
  | nil => simp_all [insertEntry]
  | cons y ys ih =>
    simp only [insertEntry] at h
    split at h
    · simpa using h
    · split at h
      · rcases List.mem_cons.1 h with h | h
        · exact .inl h
        · exact .inr (List.mem_cons_of_mem _ h)
      · rcases List.mem_cons.1 h with h | h
        · exact .inr (by simp [h])
        · rcases ih h with h | h
          · exact .inl h
          · exact .inr (List.mem_cons_of_mem _ h)

theorem mem_put {t : Table V} {k : Ip} {v : V} {now : Nat} {x : Entry V} (h : x ∈ (t.put k v now).store) :
    x = ⟨k, v, now⟩ ∨ x ∈ t.store := mem_insertEntry h

theorem mem_erase {t : Table V} {k : Ip} {x : Entry V} (h : x ∈ (t.erase k).store) : x ∈ t.store :=
  (List.mem_filter.1 h).1

theorem mem_of_lookup {t : Table V} {k : Ip} {e : Entry V} (h : t.lookup k = some e) : e ∈ t.store ∧ e.key = k :=
  ⟨List.mem_of_find?_eq_some h, by simpa using List.find?_some h⟩

/-! ### The canonical form -/

/-- Keys strictly rising, said of every pair. -/
def KeysBelow (x y : Entry V) : Prop := keyNum x.key < keyNum y.key

theorem keysRising_iff (l : List (Entry V)) : keysRising l = true ↔ l.Pairwise KeysBelow := by
  induction l with
  | nil => simp [keysRising]
  | cons x xs ih =>
    cases xs with
    | nil => simp [keysRising]
    | cons y ys =>
      simp only [keysRising, Bool.and_eq_true, decide_eq_true_eq, ih]
      constructor
      · rintro ⟨hxy, hys⟩
        refine List.pairwise_cons.2 ⟨fun z hz => ?_, hys⟩
        rcases List.mem_cons.1 hz with rfl | hz
        · exact hxy
        · exact Nat.lt_trans hxy ((List.pairwise_cons.1 hys).1 z hz)
      · intro h
        exact ⟨(List.pairwise_cons.1 h).1 y (by simp), (List.pairwise_cons.1 h).2⟩

theorem pairwise_insertEntry (e : Entry V) {l : List (Entry V)} (h : l.Pairwise KeysBelow) :
    (insertEntry e l).Pairwise KeysBelow := by
  induction l with
  | nil => simp [insertEntry]
  | cons x xs ih =>
    obtain ⟨hx, hxs⟩ := List.pairwise_cons.1 h
    simp only [insertEntry]
    split
    · rename_i hlt
      refine List.pairwise_cons.2 ⟨fun z hz => ?_, h⟩
      rcases List.mem_cons.1 hz with rfl | hz
      · exact hlt
      · exact Nat.lt_trans hlt (hx z hz)
    · rename_i hnlt
      split
      · rename_i heq
        refine List.pairwise_cons.2 ⟨fun z hz => ?_, hxs⟩
        simpa [KeysBelow, heq] using hx z hz
      · rename_i hne
        refine List.pairwise_cons.2 ⟨fun z hz => ?_, ih hxs⟩
        rcases mem_insertEntry hz with rfl | hz
        · have : keyNum x.key ≠ keyNum z.key := fun h => hne (keyNum_injective h).symm
          show keyNum x.key < keyNum z.key
          omega
        · exact hx z hz

theorem wf_put {t : Table V} (h : t.wf = true) (k : Ip) (v : V) (now : Nat) : (t.put k v now).wf = true :=
  (keysRising_iff _).2 (pairwise_insertEntry _ ((keysRising_iff _).1 h))

theorem wf_erase {t : Table V} (h : t.wf = true) (k : Ip) : (t.erase k).wf = true :=
  (keysRising_iff _).2 (((keysRising_iff _).1 h).filter _)

@[simp] theorem wf_made (c : Option Nat) (e : Nat) : (Table.made V c e).wf = true := rfl
@[simp] theorem wf_absent : (Table.absent : Table V).wf = true := rfl

/-! ### What a write does to MAP.GET -/

theorem get_eq (t : Table V) (k : Ip) (now : Nat) :
    t.get k now = (t.lookup k).bind fun e => if now - e.ts ≤ t.horizon then some e.val else none := by
  unfold Table.get Entry.live
  cases t.lookup k <;> simp

theorem get_congr {t u : Table V} (hh : t.horizon = u.horizon) {k : Ip} (h : t.lookup k = u.lookup k) (now : Nat) :
    t.get k now = u.get k now := by
  simp [get_eq, hh, h]

/-! ### Room -/

/-- A MAP.SET leaves room for its own key. -/
theorem hasRoom_put_self (t : Table V) (k : Ip) (v : V) (now : Nat) : (t.put k v now).hasRoom k = true := by
  unfold Table.hasRoom
  cases h : t.capacity <;> simp [h]

end Sys2Proof.Machine
end

