-- ==== Sys2Proof/Laws/Ops.lean ====
section
/-! SUPPORT. For each shared operation, what it can come to. `Holds P r` says that whatever state `r`
ends in has `P`; one lemma an operation carries it backwards, so that a claim about every next state is
proved without unfolding an operation. -/

namespace Sys2Proof.Machine

/-- If the run ends in a next state, that state has `P`. -/
def Holds (P : State → Prop) (r : Run) : Prop := ∀ t, r = .next t → P t

variable {P : State → Prop} {s t : State}

@[simp] theorem holds_next : Holds P (.next s) ↔ P s := by simp [Holds]
@[simp] theorem holds_fault (f : Fault) : Holds P (.fault f) := by simp [Holds]
@[simp] theorem holds_refused (r : Refusal) : Holds P (.refused r) := by simp [Holds]

theorem Holds.mono {Q : State → Prop} {r : Run} (h : Holds P r) (hPQ : ∀ t, P t → Q t) : Holds Q r :=
  fun t ht => hPQ t (h t ht)

@[simp] theorem andThen_next (k : State → Run) : andThen (.next s) k = k s := rfl
@[simp] theorem andThen_fault (f : Fault) (k : State → Run) : andThen (.fault f) k = .fault f := rfl
@[simp] theorem andThen_refused (r : Refusal) (k : State → Run) : andThen (.refused r) k = .refused r := rfl

theorem holds_andThen {r : Run} {k : State → Run} : Holds P (andThen r k) ↔ Holds (fun u => Holds P (k u)) r := by
  cases r <;> simp

theorem andThen_eq_next {r : Run} {k : State → Run} (h : andThen r k = .next t) : ∃ u, r = .next u ∧ k u = .next t := by
  cases r with
  | next u => exact ⟨u, rfl, h⟩
  | fault f => simp at h
  | refused x => simp at h

@[simp] theorem orFault_some {α : Type} (a : α) (f : Fault) (k : α → Run) : orFault (some a) f k = k a := rfl
@[simp] theorem orFault_none {α : Type} (f : Fault) (k : α → Run) : orFault none f k = .fault f := rfl

theorem holds_orFault {α : Type} {v : Option α} {f : Fault} {k : α → Run} (h : ∀ a, v = some a → Holds P (k a)) :
    Holds P (orFault v f k) := by
  cases v with
  | none => simp
  | some a => exact h a rfl

theorem holds_discard {c : Cause} : Holds P (discard c s) ↔ P (dispose c s) := by simp [discard]

/-! ### The time input -/

theorem clock_le_nextTime (s : State) : s.clock ≤ nextTime s := Nat.le_add_right _ _

@[simp] theorem nextTime_emit (o : Output) (s : State) : nextTime (emit o s) = nextTime s := rfl
@[simp] theorem nextTime_dispose (c : Cause) (s : State) : nextTime (dispose c s) = nextTime s := rfl
@[simp] theorem nextTime_draw_ticks (n : Nat) (s : State) (h : s.ticks ≠ []) : nextTime (draw n s) = nextTime s := by
  unfold nextTime
  cases hs : s.ticks <;> simp_all

/-! ### The tables -/

theorem cacheGet_ready (h : s.cache.ready = true) (k : Ip) (cont : Option Mac → State → Run) :
    cacheGet k s cont = cont (s.cache.get k (nextTime s)) (tick s) := by simp [cacheGet, h]

theorem pendingGet_ready (h : s.pending.ready = true) (k : Ip) (cont : Option Bytes → State → Run) :
    pendingGet k s cont = cont (s.pending.get k (nextTime s)) (tick s) := by simp [pendingGet, h]

theorem holds_cacheGet {k : Ip} {cont : Option Mac → State → Run}
    (h : Holds P (cont (s.cache.get k (nextTime s)) (tick s))) : Holds P (cacheGet k s cont) := by
  unfold cacheGet; split <;> simp_all

theorem holds_pendingGet {k : Ip} {cont : Option Bytes → State → Run}
    (h : Holds P (cont (s.pending.get k (nextTime s)) (tick s))) : Holds P (pendingGet k s cont) := by
  unfold pendingGet; split <;> simp_all

theorem cacheSet_ready (h : s.cache.ready = true) {k : Ip} (hr : s.cache.hasRoom k = true) (v : Mac) :
    cacheSet k v s = .next (putCache k v s) := by simp [cacheSet, h, hr]

theorem pendingSet_ready (h : s.pending.ready = true) {k : Ip} (hr : s.pending.hasRoom k = true) (v : Bytes) :
    pendingSet k v s = .next (putPending k v s) := by simp [pendingSet, h, hr]

theorem holds_cacheSet {k : Ip} {v : Mac} (h : P (putCache k v s)) : Holds P (cacheSet k v s) := by
  unfold cacheSet; split
  · split <;> simp_all
  · simp

theorem holds_pendingSet {k : Ip} {v : Bytes} (h : P (putPending k v s)) : Holds P (pendingSet k v s) := by
  unfold pendingSet; split
  · split <;> simp_all
  · simp

theorem holds_cacheInit {c : Option Nat} {e : Nat} (h : P { s with cache := Table.made Mac c e }) :
    Holds P (cacheInit c e s) := by
  unfold cacheInit; split <;> simp_all

theorem holds_pendingInit {c : Option Nat} {e : Nat} (h : P { s with pending := Table.made Bytes c e }) :
    Holds P (pendingInit c e s) := by
  unfold pendingInit; split <;> simp_all

theorem holds_cacheDelete {k : Ip} (h : P (dropCache k s)) : Holds P (cacheDelete k s) := by
  unfold cacheDelete; split <;> simp_all

theorem holds_pendingDelete {k : Ip} (h : P (dropPending k s)) : Holds P (pendingDelete k s) := by
  unfold pendingDelete; split <;> simp_all

/-! ### The guards -/

theorem whenConfigured_wf (h : s.cfg.wf = true) (k : State → Run) : whenConfigured s k = k s := by
  simp [whenConfigured, h]

theorem atPort_running (h : s.cfg.wf = true) (hp : s.phase = .running) (k : State → Run) : atPort s k = k s := by
  simp [atPort, whenConfigured, h, hp]

theorem holds_whenConfigured {k : State → Run} (h : s.cfg.wf = true → Holds P (k s)) : Holds P (whenConfigured s k) := by
  unfold whenConfigured; split
  · exact h ‹_›
  · simp

theorem holds_atPort {k : State → Run} (h : s.cfg.wf = true → s.phase = .running → Holds P (k s)) :
    Holds P (atPort s k) := by
  refine holds_whenConfigured fun hw => ?_
  split
  · exact h hw ‹_›
  · simp

/-! ### The engines: whatever they end in, built from the updates they make -/

/-- ARP.RESOLVE_AND_SEND ends with the datagram sent, dropped, or stored with a request (44_arp.md R172). -/
theorem holds_resolveAndSend {d : Bytes} {dst : Ip}
    (hit : ∀ mac, s.cache.get dst (nextTime s) = some mac → P (emit (.fdTransmit d mac s.cfg.protoIp) (tick s)))
    (held : ∀ d', s.cache.get dst (nextTime s) = none → s.pending.get dst (nextTime (tick s)) = some d' →
      P (dispose .arpResolutionInFlight (tick (tick s))))
    (miss : s.cache.get dst (nextTime s) = none → s.pending.get dst (nextTime (tick s)) = none →
      P (sendRequest dst (putPending dst d (tick (tick s))))) :
    Holds P (resolveAndSend d dst s) := by
  unfold resolveAndSend
  refine holds_cacheGet ?_
  cases hc : s.cache.get dst (nextTime s) with
  | some mac => simpa using hit mac hc
  | none =>
    refine holds_pendingGet ?_
    cases hp : s.pending.get dst (nextTime (tick s)) with
    | some d' => simpa [hp, holds_discard] using held d' hc hp
    | none =>
      simp only [tick_pending, hp]
      exact holds_andThen.2 (holds_pendingSet (by simpa using miss hc hp))

/-- ARP.ON_PACKET discards, or learns the sender and then releases, replies or does nothing (44_arp.md R176). -/
theorem holds_onPacket {packet : Bytes}
    (short : P (dispose .arpTooShort s)) (bad : P (dispose .arpBadFixedField s))
    (release : ∀ dgram, s.pending.get (ArpPacket.read packet).addresses.spa
        (nextTime (putCache (ArpPacket.read packet).addresses.spa (ArpPacket.read packet).addresses.sha s)) = some dgram →
      P (dropPending (ArpPacket.read packet).addresses.spa
        (emit (.fdTransmit dgram (ArpPacket.read packet).addresses.sha s.cfg.protoIp)
          (tick (putCache (ArpPacket.read packet).addresses.spa (ArpPacket.read packet).addresses.sha s)))))
    (learn : s.pending.get (ArpPacket.read packet).addresses.spa
        (nextTime (putCache (ArpPacket.read packet).addresses.spa (ArpPacket.read packet).addresses.sha s)) = none →
      P (tick (putCache (ArpPacket.read packet).addresses.spa (ArpPacket.read packet).addresses.sha s)) ∧
      P (sendReply (ArpPacket.read packet).addresses.spa (ArpPacket.read packet).addresses.sha
        (tick (putCache (ArpPacket.read packet).addresses.spa (ArpPacket.read packet).addresses.sha s)))) :
    Holds P (onPacket packet s) := by
  unfold onPacket
  split
  · exact holds_discard.2 short
  · dsimp only
    split
    · exact holds_discard.2 bad
    · refine holds_andThen.2 (holds_cacheSet (holds_pendingGet ?_))
      cases hp : s.pending.get (ArpPacket.read packet).addresses.spa
        (nextTime (putCache (ArpPacket.read packet).addresses.spa (ArpPacket.read packet).addresses.sha s)) with
      | some dgram => simpa [hp] using release dgram hp
      | none =>
        simp only [putCache_pending, hp]
        split
        · simpa using (learn hp).2
        · simpa using (learn hp).1

/-- The fragment loop keeps whatever each fragment keeps (46_ip_outbound.md R211). -/
theorem holds_sendFragments {buffer : Bytes} {dst : Ip} {proto : Proto8} {ident : Nat} (plan : List Fragment)
    (each : ∀ f ∈ plan, ∀ u, P u →
      Holds P (encapsulateAndResolve (slice buffer f.boff (f.boff + f.n)) dst proto ident f.boff f.mf u))
    (hs : P s) : Holds P (sendFragments buffer dst proto ident plan s) := by
  induction plan generalizing s with
  | nil => simpa [sendFragments] using hs
  | cons f fs ih =>
    refine holds_andThen.2 ((each f (by simp) s hs).mono fun u hu => ?_)
    exact ih (fun g hg => each g (by simp [hg])) hu

/-- IP.SEND draws the identifier and runs the plan. -/
theorem holds_sendDatagram {buffer : Bytes} {dst : Ip} {proto : Proto8}
    (each : buffer.length ≤ maxSend → ∀ f ∈ fragPlan buffer.length s.cfg.maxPayload, ∀ u, P u →
      Holds P (encapsulateAndResolve (slice buffer f.boff (f.boff + f.n)) dst proto s.idctr f.boff f.mf u))
    (hs : P { s with idctr := s.idctr + 1 }) : Holds P (sendDatagram buffer dst proto s) := by
  unfold sendDatagram
  split
  · simp
  · exact holds_sendFragments _ (each (by omega)) hs

theorem holds_onMessage {m : Bytes} {source : Ip}
    (short : P (dispose .icmpTooShort s)) (ignored : P (dispose .icmpIgnoredType s))
    (reply : ∀ r, echoReply m = some r → Holds P (sendDatagram r source ipProtoIcmp s)) :
    Holds P (onMessage m source s) := by
  unfold onMessage
  split
  · exact holds_discard.2 short
  · split
    · exact holds_discard.2 ignored
    · exact holds_orFault reply

theorem holds_sendUnreachable {o : Bytes} {dst : Ip} {code : Byte}
    (send : ∀ hl u, inHdrLen s.cfg.ihlPolicy o = some hl → unreachableMessage o hl code = some u →
      Holds P (sendDatagram u dst ipProtoIcmp s)) : Holds P (sendUnreachable o dst code s) := by
  unfold sendUnreachable
  split
  · simp
  · split
    · simp
    · rename_i hl h
      exact holds_orFault fun u hu => send hl u h hu

theorem holds_dispatchDatagram {hl : Nat} {b : Bytes}
    (unreach : Holds (fun u => P (dispose .ipProtoUnreachable u)) (sendUnreachable b (ipAt b 12) s.cfg.codeProtoUnreach s))
    (message : ∀ payload, Holds P (onMessage payload (ipAt b 12) s))
    (up : ∀ p payload, P (emit (.upDeliver p payload (ipAt b 12)) s)) : Holds P (dispatchDatagram hl b s) := by
  unfold dispatchDatagram
  dsimp only
  split
  · refine holds_andThen.2 (unreach.mono fun u hu => holds_discard.2 hu)
  · refine holds_orFault fun payload _ => ?_
    split
    · exact message payload
    · simpa using up _ payload

theorem holds_onDatagram {b : Bytes} (rejected : ∀ c, P (dispose c s))
    (accepted : ∀ hl b', inspect s.cfg b = .accept hl b' → Holds P (dispatchDatagram hl b' s)) :
    Holds P (onDatagram b s) := by
  unfold onDatagram
  split
  · exact holds_discard.2 (rejected _)
  · simp
  · exact accepted _ _ ‹_›

theorem holds_deliver {payload : Bytes} {p : Proto16} (arp : Holds P (onPacket payload s))
    (ip : Holds P (onDatagram payload s)) (none : P s) : Holds P (deliver payload p s) := by
  unfold deliver
  split
  · exact arp
  · split
    · exact ip
    · simpa using none

end Sys2Proof.Machine
end

