-- ==== Sys2Proof/Laws/Packets.lean ====
section
/-! SUPPORT. What the engines' pure parts compute, one lemma for each: the header that IP.ENCAPSULATE_AND_RESOLVE
writes, the ICMP messages, the inbound checks, the ranges of a fragment plan. -/

namespace Sys2Proof.Machine

theorem length_freeBytes (n k : Nat) : (freeBytes n k).length = n := by
  induction n generalizing k <;> simp [freeBytes, *]

/-- A number below 65536 as a field's two bytes. -/
theorem be16_ofNat {n : Nat} (h : n < 65536) :
    be16 (BitVec.ofNat 16 n) = [BitVec.ofNat 8 (n / 256), BitVec.ofNat 8 n] := by
  have e := word16_split (BitVec.ofNat 16 n)
  have hn : (BitVec.ofNat 16 n).toNat = n := by simp; omega
  rw [hn] at e
  rw [← e, be16_append]

/-! ### The outbound header -/

/-- The header assembly of R214 gives the header of `headerOf`, its checksum that of the header with a
zero checksum field; the 20 new bytes' own values are gone. -/
theorem fillHeader_eq {c : Config} {h chunk : Bytes} {dst : Ip} {proto : Proto8} {ident boff : Nat} {mf : Bool}
    (hh : h.length = ipHdrLen) (h1 : ipHdrLen + chunk.length < 65536) (h2 : flagsOffset c.mfBit mf boff < 65536) :
    fillHeader c (h ++ chunk) chunk dst proto ident boff mf =
      some ((headerOf c dst proto ident boff chunk.length mf
        (checksum (headerOf c dst proto ident boff chunk.length mf 0).toBytes)).toBytes ++ chunk) := by
  have e0 : putBytes (h ++ chunk) 0 (List.replicate ipHdrLen 0) = List.replicate ipHdrLen 0 ++ chunk := by
    simp [putBytes, hh, List.drop_left']
  have hi : ident % 65536 < 65536 := Nat.mod_lt _ (by decide)
  have b1 := be16_ofNat h1
  have b2 := be16_ofNat hi
  have b3 := be16_ofNat h2
  rw [show BitVec.ofNat 16 (ident % 65536) = BitVec.ofNat 16 ident from BitVec.eq_of_toNat_eq (by simp)] at b2
  have hk : ∀ k, (headerOf c dst proto ident boff chunk.length mf k).toBytes =
      [0x45, 0] ++ be16 (BitVec.ofNat 16 (ipHdrLen + chunk.length)) ++ be16 (BitVec.ofNat 16 ident)
        ++ be16 (BitVec.ofNat 16 (flagsOffset c.mfBit mf boff)) ++ [c.ttlDefault, proto] ++ be16 k
        ++ c.localIp.toBytes ++ dst.toBytes := by
    intro k
    have e : ((4 : BitVec 4) ++ (5 : BitVec 4)) = (0x45 : Byte) := by decide
    simp only [headerOf, Ipv4Header.toBytes, e, List.append_assoc, List.cons_append, List.nil_append]
  rw [hk, hk 0, b1, b2, b3]
  have e1 : putBytes (putBytes (List.replicate ipHdrLen 0 ++ chunk) 0 [0x45]) 1 [0x00]
      = 0x45 :: 0 :: (List.replicate 18 0 ++ chunk) := by
    simp [putBytes, List.replicate]
  simp only [fillHeader, e0]
  rw [e1, memWrite_two (by simp) h1]
  simp only [Option.bind_eq_bind, Option.bind_some]
  rw [memWrite_two (by simp [putBytes]) hi]
  simp only [Option.bind_some]
  rw [memWrite_two (by simp [putBytes, List.replicate]) h2]
  simp only [Option.bind_some]
  rw [memWrite_two (by simp [putBytes, List.replicate, Ip.toBytes]) (BitVec.isLt _)]
  have hck : ∀ x y : Bytes, x = y →
      [BitVec.ofNat 8 ((checksum x).toNat / 256), BitVec.ofNat 8 (checksum x).toNat] = be16 (checksum y) := by
    rintro x _ rfl
    rw [← be16_ofNat (checksum x).isLt]; simp
  rw [hck _ ([0x45, 0] ++ [BitVec.ofNat 8 ((ipHdrLen + chunk.length) / 256), BitVec.ofNat 8 (ipHdrLen + chunk.length)]
    ++ [BitVec.ofNat 8 (ident % 65536 / 256), BitVec.ofNat 8 (ident % 65536)]
    ++ [BitVec.ofNat 8 (flagsOffset c.mfBit mf boff / 256), BitVec.ofNat 8 (flagsOffset c.mfBit mf boff)]
    ++ [c.ttlDefault, proto] ++ be16 0 ++ c.localIp.toBytes ++ dst.toBytes)]
  · simp [putBytes, List.replicate, Ip.toBytes, be16]
  · simp [putBytes, slice, List.replicate, Ip.toBytes, be16]

/-- That header's checksum verifies (30_encoding.md R93). -/
theorem headerOf_verifies (c : Config) (dst : Ip) (proto : Proto8) (ident boff len : Nat) (mf : Bool) :
    verifyChecksum (headerOf c dst proto ident boff len mf
      (checksum (headerOf c dst proto ident boff len mf 0).toBytes)).toBytes 10 = some true := by
  rw [verifyChecksum_eq (by rw [Ipv4Header.length_toBytes]; decide)]
  simp only [Option.some.injEq, decide_eq_true_eq]
  generalize hk : checksum (headerOf c dst proto ident boff len mf 0).toBytes = k
  have : putBytes (headerOf c dst proto ident boff len mf k).toBytes 10 [0, 0]
      = (headerOf c dst proto ident boff len mf 0).toBytes := by
    simp [headerOf, Ipv4Header.toBytes, putBytes, be16, Ip.toBytes]
  rw [this, hk]
  simp [headerOf, Ipv4Header.toBytes, be16, Ip.toBytes, u16At, byteAt, be16_join]

/-! ### The ICMP messages -/

/-- A two-byte write of a checksum over an ICMP header's checksum field. -/
theorem icmpHeader_putChecksum (t k : Byte) (a i q w : Word16) (r : Bytes) :
    putBytes (icmpHeaderBytes t k a i q ++ r) 2 [BitVec.ofNat 8 (w.toNat / 256), BitVec.ofNat 8 w.toNat]
      = icmpHeaderBytes t k w i q ++ r := by
  have e : be16 w = [BitVec.ofNat 8 (w.toNat / 256), BitVec.ofNat 8 w.toNat] := by
    rw [← be16_ofNat w.isLt]; simp
  rw [icmpHeaderBytes, icmpHeaderBytes, e]
  simp [putBytes, be16]

/-- An ICMP message whose checksum is that of the message with a zero checksum field verifies (30_encoding.md R95). -/
theorem icmp_verifies (t k : Byte) (i q : Word16) (r : Bytes) :
    verifyChecksum (icmpHeaderBytes t k (checksum (icmpHeaderBytes t k 0 i q ++ r)) i q ++ r) 2 = some true := by
  rw [verifyChecksum_eq (by simp [icmpHeaderBytes, be16])]
  simp only [Option.some.injEq, decide_eq_true_eq]
  generalize hw : checksum (icmpHeaderBytes t k 0 i q ++ r) = w
  have h0 : putBytes (icmpHeaderBytes t k w i q ++ r) 2 [0, 0] = icmpHeaderBytes t k 0 i q ++ r :=
    icmpHeader_putChecksum t k w i q 0 r
  rw [h0, hw]
  simp [icmpHeaderBytes, be16, u16At, byteAt, be16_join]

/-- The echo reply to a request (47_icmp.md R232, R233). -/
theorem echoReply_eq (code : Byte) (ics ident seq : Word16) (payload : Bytes) :
    echoReply (echoRequestBytes code ics ident seq payload) =
      some (icmpHeaderBytes icmpEchoReply 0 (checksum (icmpHeaderBytes icmpEchoReply 0 0 ident seq ++ payload)) ident seq
        ++ payload) := by
  have e : putBytes (putBytes (echoRequestBytes code ics ident seq payload) 0 [icmpEchoReply]) 1 [0]
      = icmpHeaderBytes icmpEchoReply 0 ics ident seq ++ payload := by
    simp [putBytes, echoRequestBytes, icmpHeaderBytes]
  have h0 : putBytes (icmpHeaderBytes icmpEchoReply 0 ics ident seq ++ payload) 2 [BitVec.ofNat 8 0, BitVec.ofNat 8 0]
      = icmpHeaderBytes icmpEchoReply 0 0 ident seq ++ payload :=
    icmpHeader_putChecksum icmpEchoReply 0 ics ident seq 0 payload
  simp only [echoReply, e]
  rw [memWrite_two (by simp [icmpHeaderBytes, be16]) (by decide)]
  simp only [Option.bind_eq_bind, Option.bind_some, Nat.zero_div, h0]
  rw [memWrite_two (by simp [icmpHeaderBytes, be16]) (BitVec.isLt _), icmpHeader_putChecksum]

/-- The unreachable message about a datagram (30_encoding.md R96). -/
theorem unreachableMessage_eq (o : Bytes) (hl : Nat) (code : Byte) :
    unreachableMessage o hl code =
      some (icmpHeaderBytes icmpUnreach code (checksum (icmpHeaderBytes icmpUnreach code 0 0 0 ++ o.take (hl + 8))) 0 0
        ++ o.take (hl + 8)) := by
  have e : ([icmpUnreach, code, 0, 0, 0, 0, 0, 0] : Bytes) = icmpHeaderBytes icmpUnreach code 0 0 0 := rfl
  have ht : slice o 0 (min o.length (hl + 8)) = o.take (hl + 8) := by
    rw [slice, List.drop_zero, Nat.sub_zero, Nat.min_comm, ← List.take_take, List.take_length]
  simp only [unreachableMessage, ht, e]
  rw [memWrite_two (by simp [icmpHeaderBytes, be16]) (BitVec.isLt _), icmpHeader_putChecksum]

/-! ### The inbound checks -/

/-- A header length that InHdrLen gives lies inside the buffer (45_ip_inbound.md R193). -/
theorem inHdrLen_bounds {policy : IhlPolicy} {b : Bytes} {hl : Nat} (h20 : ipHdrLen ≤ b.length)
    (h : inHdrLen policy b = some hl) : ipHdrLen ≤ hl ∧ hl ≤ b.length := by
  change 20 ≤ b.length at h20
  change 20 ≤ hl ∧ hl ≤ b.length
  unfold inHdrLen at h
  dsimp only at h
  split at h
  · cases h; omega
  · split at h
    · cases h; omega
    · split at h
      · cases h
      · cases h; omega

/-- An accepted datagram passes the inbound checks, and loses its padding (R192 steps 1 to 5). -/
theorem inspect_accepts {c : Config} {b : Bytes} {hl : Nat} (h : Accepts c b hl) :
    inspect c b = .accept hl (trimmed b) := by
  have hs : stripPadding b (Ipv4Header.read b).fields.tlen.toNat = some (trimmed b) := by
    unfold stripPadding trimmed removePadding
    split
    · rw [if_pos (by omega)]; congr 2; omega
    · rw [List.take_of_length_le (by omega)]
  rw [inspect, if_neg (Nat.not_lt.2 h.long)]
  dsimp only
  rw [if_neg (by simp [h.version])]
  simp only [h.header, h.checksum, h.forUs, ne_eq, not_true_eq_false, if_false, if_neg (Nat.not_lt.2 h.total), hs]

/-- The inbound checks never run into an access without meaning, and what they accept is accepted (20_memory.md R56). -/
theorem inspect_cases (c : Config) (b : Bytes) :
    (∃ k, inspect c b = .reject k) ∨ ∃ hl, Accepts c b hl ∧ inspect c b = .accept hl (trimmed b) := by
  by_cases h1 : b.length < ipHdrLen
  · exact .inl ⟨_, by rw [inspect, if_pos h1]⟩
  · by_cases h2 : (Ipv4Header.read b).ver = 4
    · cases h3 : inHdrLen c.ihlPolicy b with
      | none => exact .inl ⟨_, by rw [inspect, if_neg h1]; simp [h2, h3]; rfl⟩
      | some hl =>
        have hb := inHdrLen_bounds (Nat.not_lt.1 h1) h3
        have hl20 : 20 ≤ hl := hb.1
        have hs : 10 + 2 ≤ (slice b 0 hl).length := by
          simp only [slice, List.drop_zero, List.length_take]; omega
        by_cases h4 : verifyChecksum (slice b 0 hl) 10 = some true
        · by_cases h5 : (Ipv4Header.read b).fields.dst = c.localIp
          · by_cases h6 : (Ipv4Header.read b).fields.tlen.toNat < hl
            · exact .inl ⟨_, by rw [inspect, if_neg h1]; simp [h2, h3, h4, h5, h6]; rfl⟩
            · have ha : Accepts c b hl := ⟨Nat.not_lt.1 h1, h2, h3, h4, h5, Nat.not_lt.1 h6⟩
              exact .inr ⟨hl, ha, inspect_accepts ha⟩
          · exact .inl ⟨_, by rw [inspect, if_neg h1]; simp [h2, h3, h4, h5]; rfl⟩
        · have hf : verifyChecksum (slice b 0 hl) 10 = some false := by
            rw [verifyChecksum_eq hs] at h4 ⊢
            simpa using h4
          exact .inl ⟨_, by rw [inspect, if_neg h1]; simp [h2, h3, hf]; rfl⟩
    · exact .inl ⟨_, by rw [inspect, if_neg h1]; dsimp only; rw [if_pos h2]⟩

/-- The accepted datagram still holds its whole header. -/
theorem Accepts.le_trimmed {c : Config} {b : Bytes} {hl : Nat} (h : Accepts c b hl) :
    ipHdrLen ≤ hl ∧ hl ≤ (trimmed b).length := by
  have := inHdrLen_bounds h.long h.header
  have := h.total
  simp only [trimmed, List.length_take]
  omega

/-! ### The ranges of a fragment plan -/

theorem mem_fragPlanFrom {fuel boff len m : Nat} {f : Fragment} (hb : boff ≤ len) (hf : len - boff ≤ fuel) (hm : 0 < m)
    (h : f ∈ fragPlanFrom fuel boff len m) : f.boff + f.n ≤ len ∧ f.n ≤ m := by
  induction fuel generalizing boff with
  | zero => simp [fragPlanFrom] at h; subst h; simp; omega
  | succ n ih =>
    simp only [fragPlanFrom] at h
    split at h
    · rcases List.mem_cons.1 h with rfl | h
      · simp; omega
      · exact ih (by omega) (by omega) h
    · simp at h; subst h; simp; omega

theorem mem_fragPlan {len m : Nat} {f : Fragment} (hm : 0 < m) (h : f ∈ fragPlan len m) :
    f.boff + f.n ≤ len ∧ f.n ≤ m :=
  mem_fragPlanFrom (Nat.zero_le _) (by omega) hm h

theorem maxPayload_bounds {c : Config} (h : c.wf = true) : 8 ≤ c.maxPayload ∧ c.maxPayload ≤ 65515 := by
  simp only [Config.wf, Bool.and_eq_true, decide_eq_true_eq] at h
  simp only [Config.maxPayload, ipHdrLen] at h ⊢
  omega

theorem flagsOffset_lt {b : MfBit} {mf : Bool} {boff : Nat} (h : boff ≤ 65535) : flagsOffset b mf boff < 65536 := by
  have : boff / 8 ≤ 8191 := by omega
  cases b <;> cases mf <;> simp [flagsOffset, moreFragments] <;> omega

end Sys2Proof.Machine
end

