-- ==== Sys2Proof/Laws/Closed.lean ====
section
/-! SUPPORT. A property that the updates keep is kept by every operation. `Closed` lists the updates of the
sending and answering paths, `FullyClosed` all of them; the lemmas carry such a property through the
engines and through `exec`, once and for all properties. -/

namespace Sys2Proof.Machine

/-- The updates that the outbound and the ICMP paths are made of keep `P`. -/
structure Closed (P : State → Prop) : Prop where
  tick : ∀ s, P s → P (tick s)
  draw : ∀ n s, P s → P (draw n s)
  emit : ∀ o s, P s → P (emit o s)
  dispose : ∀ c s, P s → P (dispose c s)
  putPending : ∀ k v s, P s → P (putPending k v s)

/-- Every update but the identifier's increment and those of RESET itself keeps `P`. -/
structure FullyClosed (P : State → Prop) : Prop extends Closed P where
  putCache : ∀ k v s, P s → P (putCache k v s)
  dropCache : ∀ k s, P s → P (dropCache k s)
  dropPending : ∀ k s, P s → P (dropPending k s)
  giveBack : ∀ r s, P s → P (giveBack r s)
  makeCache : ∀ c e s, P s → P { s with cache := Table.made Mac c e }
  makePending : ∀ c e s, P s → P { s with pending := Table.made Bytes c e }
  registerProtocol : ∀ p s, P s → P (registerProtocol p s)
  fdRegister : ∀ p s, P s → P (fdRegister p s)
  takeFrame : ∀ d s, P s → P { s with driver := d }

variable {P : State → Prop} {s : State}

theorem Closed.resolveAndSend (c : Closed P) {d : Bytes} {dst : Ip} (h : P s) : Holds P (resolveAndSend d dst s) :=
  holds_resolveAndSend (fun _ _ => c.emit _ _ (c.tick _ h)) (fun _ _ _ => c.dispose _ _ (c.tick _ (c.tick _ h)))
    (fun _ _ => c.emit _ _ (c.putPending _ _ _ (c.tick _ (c.tick _ h))))

theorem Closed.encapsulateAndResolve (c : Closed P) {chunk : Bytes} {dst : Ip} {proto : Proto8} {ident boff : Nat}
    {mf : Bool} (h : P s) : Holds P (encapsulateAndResolve chunk dst proto ident boff mf s) :=
  holds_orFault fun _ _ => c.resolveAndSend (c.draw _ _ h)

theorem Closed.sendDatagram (c : Closed P) {buffer : Bytes} {dst : Ip} {proto : Proto8}
    (h : P { s with idctr := s.idctr + 1 }) : Holds P (sendDatagram buffer dst proto s) :=
  holds_sendDatagram (fun _ _ _ _ hu => c.encapsulateAndResolve hu) h

theorem Closed.onMessage (c : Closed P) {m : Bytes} {source : Ip} (h : P s) (hi : P { s with idctr := s.idctr + 1 }) :
    Holds P (onMessage m source s) :=
  holds_onMessage (c.dispose _ _ h) (c.dispose _ _ h) fun _ _ => c.sendDatagram hi

theorem Closed.sendUnreachable (c : Closed P) {o : Bytes} {dst : Ip} {code : Byte}
    (hi : P { s with idctr := s.idctr + 1 }) : Holds P (sendUnreachable o dst code s) :=
  holds_sendUnreachable fun _ _ _ _ => c.sendDatagram hi

theorem Closed.onDatagram (c : Closed P) {b : Bytes} (h : P s) (hi : P { s with idctr := s.idctr + 1 }) :
    Holds P (onDatagram b s) :=
  holds_onDatagram (fun _ => c.dispose _ _ h) fun _ _ _ =>
    holds_dispatchDatagram ((c.sendUnreachable hi).mono fun _ hu => c.dispose _ _ hu)
      (fun _ => c.onMessage h hi) (fun _ _ => c.emit _ _ h)

theorem FullyClosed.onPacket (c : FullyClosed P) {packet : Bytes} (h : P s) : Holds P (onPacket packet s) :=
  holds_onPacket (c.dispose _ _ h) (c.dispose _ _ h)
    (fun _ _ => c.dropPending _ _ (c.emit _ _ (c.tick _ (c.putCache _ _ _ h))))
    (fun _ => ⟨c.tick _ (c.putCache _ _ _ h), c.emit _ _ (c.tick _ (c.putCache _ _ _ h))⟩)

theorem FullyClosed.deliver (c : FullyClosed P) {payload : Bytes} {p : Proto16} (h : P s)
    (hi : P { s with idctr := s.idctr + 1 }) : Holds P (deliver payload p s) :=
  holds_deliver (c.onPacket h) (c.onDatagram h hi) h

theorem FullyClosed.initArp (c : FullyClosed P) (h : P s) : Holds P (initArp s) :=
  holds_andThen.2 (holds_cacheInit (holds_andThen.2 (holds_pendingInit
    (holds_next.2 (c.fdRegister _ _ (c.emit _ _ (c.makePending _ _ _ (c.makeCache _ _ _ h))))))))

/-- RESET keeps `P` where the cleared state has it. -/
theorem FullyClosed.reset (c : FullyClosed P) (cleared : P (clearState s))
    (run : ∀ s, P s → P { s with phase := .running }) : Holds P (exec .reset s) := by
  refine holds_whenConfigured fun _ => ?_
  unfold resetBlock
  split
  · simp
  · refine holds_andThen.2 (holds_andThen.2 ((c.initArp cleared).mono fun u hu => ?_))
    exact holds_next.2 (holds_next.2 (run _ (c.registerProtocol _ _ (c.fdRegister _ _ hu))))

/-- Every operation but RESET keeps `P`, where the state has it with its identifier drawn or not. -/
theorem FullyClosed.exec (c : FullyClosed P) {i : Instr} (hr : i ≠ .reset) (h : P s)
    (hi : P { s with idctr := s.idctr + 1 }) : Holds P (exec i s) := by
  cases i with
  | reset => exact absurd rfl hr
  | fdDeliver => exact holds_atPort fun _ _ => c.deliver h hi
  | fdDeliverArp => exact holds_atPort fun _ _ => c.deliver h hi
  | fdDeliverIp => exact holds_atPort fun _ _ => c.deliver h hi
  | ipSend => exact holds_atPort fun _ _ => c.sendDatagram hi
  | icmpSendUnreachable => exact holds_atPort fun _ _ => c.sendUnreachable hi
  | ipRegister => exact holds_atPort fun _ _ => holds_next.2 (c.registerProtocol _ _ h)
  | fdTransmit => exact holds_whenConfigured fun _ => holds_next.2 (c.emit _ _ h)
  | fdRegister => exact holds_whenConfigured fun _ => holds_next.2 (c.fdRegister _ _ h)
  | fdPoll =>
    refine holds_whenConfigured fun _ => ?_
    unfold poll
    split
    · exact holds_next.2 h
    · exact holds_atPort fun _ _ => c.deliver (c.takeFrame _ _ h) (c.takeFrame _ { s with idctr := s.idctr + 1 } hi)
  | bufAddHeader => exact holds_whenConfigured fun _ => holds_next.2 (c.giveBack _ _ (c.draw _ _ h))
  | bufRemoveHeader =>
    simp only [Machine.exec, execBufRemoveHeader]
    exact holds_whenConfigured fun _ => holds_orFault fun _ _ => holds_next.2 (c.giveBack _ _ h)
  | bufAddPadding => exact holds_whenConfigured fun _ => holds_next.2 (c.giveBack _ _ (c.draw _ _ h))
  | bufRemovePadding =>
    simp only [Machine.exec, execBufRemovePadding]
    exact holds_whenConfigured fun _ => holds_orFault fun _ _ => holds_next.2 (c.giveBack _ _ h)
  | mapInit t =>
    cases t <;> refine holds_whenConfigured fun _ => ?_
    · exact holds_cacheInit (c.makeCache _ _ _ h)
    · exact holds_pendingInit (c.makePending _ _ _ h)
  | mapGet t =>
    simp only [Machine.exec, execMapGet]
    cases t <;> refine holds_whenConfigured fun _ => ?_
    · exact holds_cacheGet (holds_next.2 (c.giveBack _ _ (c.tick _ h)))
    · exact holds_pendingGet (holds_next.2 (c.giveBack _ _ (c.tick _ h)))
  | mapSet k v =>
    cases v <;> refine holds_whenConfigured fun _ => ?_
    · exact holds_cacheSet (c.putCache _ _ _ h)
    · exact holds_pendingSet (c.putPending _ _ _ h)
  | mapDelete t =>
    cases t <;> refine holds_whenConfigured fun _ => ?_
    · exact holds_cacheDelete (c.dropCache _ _ h)
    · exact holds_pendingDelete (c.dropPending _ _ h)
  | mapForEach t v =>
    simp only [Machine.exec, execMapForEach]
    refine holds_whenConfigured fun _ => ?_
    split
    · cases v <;> simp [h]
    · simp
  | cksum16 =>
    simp only [Machine.exec, execCksum16]
    exact holds_whenConfigured fun _ => holds_next.2 (c.giveBack _ _ h)
  | cksum16Verify =>
    simp only [Machine.exec, execCksum16Verify]
    exact holds_whenConfigured fun _ => holds_orFault fun _ _ => holds_next.2 (c.giveBack _ _ h)
  | arpInit => exact holds_whenConfigured fun _ => c.initArp h
  | arpSendRequest => exact holds_whenConfigured fun _ => holds_next.2 (c.emit _ _ h)
  | arpResolveAndSend => exact holds_whenConfigured fun _ => c.resolveAndSend h
  | arpSendReply => exact holds_whenConfigured fun _ => holds_next.2 (c.emit _ _ h)
  | arpOnPacket => exact holds_whenConfigured fun _ => c.onPacket h
  | arpOnPacketRequest => exact holds_whenConfigured fun _ => c.onPacket h
  | arpOnPacketReply => exact holds_whenConfigured fun _ => c.onPacket h
  | ipInit => exact holds_whenConfigured fun _ => holds_next.2 (c.fdRegister _ _ h)
  | ipOnDatagram => exact holds_whenConfigured fun _ => c.onDatagram h hi
  | ipOnDatagramV4 => exact holds_whenConfigured fun _ => c.onDatagram h hi
  | ipOnDatagramProtoIcmp => exact holds_whenConfigured fun _ => c.onDatagram h hi
  | ipOnDatagramProtoOther => exact holds_whenConfigured fun _ => c.onDatagram h hi
  | upDeliver => exact holds_whenConfigured fun _ => holds_next.2 (c.emit _ _ h)
  | ipSendCall => exact holds_whenConfigured fun _ => c.sendDatagram hi
  | ipEncapsulateAndResolve => exact holds_whenConfigured fun _ => c.encapsulateAndResolve h
  | icmpInit => exact holds_whenConfigured fun _ => holds_next.2 (c.registerProtocol _ _ h)
  | icmpOnMessage => exact holds_whenConfigured fun _ => c.onMessage h hi
  | icmpOnMessageEchoRequest => exact holds_whenConfigured fun _ => c.onMessage h hi
  | icmpSendUnreachableCall => exact holds_whenConfigured fun _ => c.sendUnreachable hi

/-- A step ends where it began, with nothing presented, or where the operation of the next transaction ends. -/
theorem step_next {t : State} (h : step s = .next t) :
    (s.inbox = [] ∧ t = s) ∨
      ∃ x rest i, s.inbox = x :: rest ∧ decode x = .ok i ∧ Machine.exec i (s.taking rest) = .next t := by
  unfold step at h
  split at h
  · cases h; exact .inl ⟨by assumption, rfl⟩
  · split at h
    · cases h
    · exact .inr ⟨_, _, _, by assumption, by assumption, h⟩

end Sys2Proof.Machine
end

