-- ==== Sys2Proof/Laws/Memory.lean ====
section
/-! SUPPORT. The block's storage keeps its canonical form (`Memory.wf`): at reset, and under every update
that an operation makes. -/

namespace Sys2Proof.Machine

variable {s : State}

theorem memory_wf_iff : Memory.wf s = true ↔ s.cache.wf = true ∧ s.pending.wf = true := by
  simp [Memory.wf]

theorem memory_wf_reset : Memory.wf State.reset = true := rfl

/-- An update that leaves both tables alone keeps the form. -/
theorem memory_wf_congr {t : State} (hc : t.cache = s.cache) (hp : t.pending = s.pending) :
    Memory.wf t = Memory.wf s := by simp [Memory.wf, hc, hp]

@[simp] theorem memory_wf_tick : Memory.wf (tick s) = Memory.wf s := rfl
@[simp] theorem memory_wf_draw (n : Nat) : Memory.wf (draw n s) = Memory.wf s := rfl
@[simp] theorem memory_wf_emit (o : Output) : Memory.wf (emit o s) = Memory.wf s := rfl
@[simp] theorem memory_wf_dispose (c : Cause) : Memory.wf (dispose c s) = Memory.wf s := rfl
@[simp] theorem memory_wf_giveBack (r : Ret) : Memory.wf (giveBack r s) = Memory.wf s := rfl
@[simp] theorem memory_wf_registerProtocol (p : Proto8) : Memory.wf (registerProtocol p s) = Memory.wf s := rfl
@[simp] theorem memory_wf_fdRegister (p : Proto16) : Memory.wf (fdRegister p s) = Memory.wf s := rfl

theorem memory_wf_putCache (h : Memory.wf s = true) (k : Ip) (v : Mac) : Memory.wf (putCache k v s) = true :=
  memory_wf_iff.2 ⟨wf_put (memory_wf_iff.1 h).1 _ _ _, (memory_wf_iff.1 h).2⟩

theorem memory_wf_putPending (h : Memory.wf s = true) (k : Ip) (v : Bytes) : Memory.wf (putPending k v s) = true :=
  memory_wf_iff.2 ⟨(memory_wf_iff.1 h).1, wf_put (memory_wf_iff.1 h).2 _ _ _⟩

theorem memory_wf_dropCache (h : Memory.wf s = true) (k : Ip) : Memory.wf (dropCache k s) = true :=
  memory_wf_iff.2 ⟨wf_erase (memory_wf_iff.1 h).1 _, (memory_wf_iff.1 h).2⟩

theorem memory_wf_dropPending (h : Memory.wf s = true) (k : Ip) : Memory.wf (dropPending k s) = true :=
  memory_wf_iff.2 ⟨(memory_wf_iff.1 h).1, wf_erase (memory_wf_iff.1 h).2 _⟩

theorem memory_wf_cacheInit (h : Memory.wf s = true) (c : Option Nat) (e : Nat) :
    Memory.wf { s with cache := Table.made Mac c e } = true :=
  memory_wf_iff.2 ⟨rfl, (memory_wf_iff.1 h).2⟩

theorem memory_wf_pendingInit (h : Memory.wf s = true) (c : Option Nat) (e : Nat) :
    Memory.wf { s with pending := Table.made Bytes c e } = true :=
  memory_wf_iff.2 ⟨(memory_wf_iff.1 h).1, rfl⟩

theorem memory_wf_clearState (s : State) : Memory.wf (clearState s) = true := rfl

/-! ### Equal tables are equal data: a table in canonical form is given by what its keys hold -/

theorem lookup_eq_some_iff {V : Type} {t : Table V} (h : t.wf = true) {e : Entry V} :
    t.lookup e.key = some e ↔ e ∈ t.store := by
  refine ⟨fun he => (mem_of_lookup he).1, fun he => ?_⟩
  have hp := (keysRising_iff _).1 h
  unfold Table.lookup
  generalize t.store = l at he hp
  induction l with
  | nil => cases he
  | cons x xs ih =>
    obtain ⟨hx, hxs⟩ := List.pairwise_cons.1 hp
    rcases List.mem_cons.1 he with rfl | he
    · simp
    · have : x.key ≠ e.key := fun hk => by
        have := hx e he
        simp [KeysBelow, hk] at this
      rw [List.find?_cons_of_neg (by simpa using this)]
      exact ih he hxs

end Sys2Proof.Machine
end

