-- ==== Sys2Proof/Laws/PerInstr.lean ====
section
/-! SUPPORT. The statements made for every operation, one lemma each. `FieldCount`: a transaction that encodes
an operation has as many fields as its rule gives it operands (for MAP.INIT, MAP.GET,
MAP.SET, MAP.DELETE and MAP.FOR_EACH with the table instance first; a row that a packet pattern selects is
carried by the transaction of the row it refines). Log entries 1 and 12. -/

namespace Sys2Proof.Laws.FieldCount

/-- The number of operands of a port or call interface (30_encoding.md R81, R82, R84). -/
def arity : Selector → Nat
  | .reset | .fdPoll | .arpInit | .ipInit | .icmpInit => 0
  | .ipRegister | .fdRegister | .cksum16 | .arpSendRequest => 1
  | .bufAddHeader | .bufRemoveHeader | .bufAddPadding | .bufRemovePadding | .mapGet | .mapDelete | .mapForEach
  | .cksum16Verify | .arpResolveAndSend | .arpSendReply | .arpOnPacket | .ipOnDatagram | .icmpOnMessage => 2
  | .fdDeliver | .ipSend | .icmpSendUnreachable | .fdTransmit | .mapSet | .upDeliver | .ipSendCall
  | .icmpSendUnreachableCall => 3
  | .mapInit | .ipEncapsulateAndResolve => 6

/-- The statement about one operation. -/
def Statement (i : Instr) : Prop := (encode i).fields.length = arity (encode i).sel

theorem reset : Statement (.reset) := rfl
theorem fdDeliver (payload : Bytes) (protocolNumber : Proto16) (sourceLink : Mac) : Statement (.fdDeliver payload protocolNumber sourceLink) := rfl
theorem fdDeliverArp (payload : Bytes) (sourceLink : Mac) : Statement (.fdDeliverArp payload sourceLink) := rfl
theorem fdDeliverIp (payload : Bytes) (sourceLink : Mac) : Statement (.fdDeliverIp payload sourceLink) := rfl
theorem ipSend (buffer : Bytes) (destination : Ip) (protocol : Proto8) : Statement (.ipSend buffer destination protocol) := rfl
theorem icmpSendUnreachable (original : Bytes) (destination : Ip) (code : Byte) : Statement (.icmpSendUnreachable original destination code) := rfl
theorem ipRegister (protocol : Proto8) : Statement (.ipRegister protocol) := rfl
theorem fdTransmit (payload : Bytes) (destinationLink : Mac) (protocolNumber : Proto16) : Statement (.fdTransmit payload destinationLink protocolNumber) := rfl
theorem fdRegister (protocolNumber : Proto16) : Statement (.fdRegister protocolNumber) := rfl
theorem fdPoll : Statement (.fdPoll) := rfl
theorem bufAddHeader (b : Bytes) (n : Nat) : Statement (.bufAddHeader b n) := rfl
theorem bufRemoveHeader (b : Bytes) (n : Nat) : Statement (.bufRemoveHeader b n) := rfl
theorem bufAddPadding (b : Bytes) (n : Nat) : Statement (.bufAddPadding b n) := rfl
theorem bufRemovePadding (b : Bytes) (n : Nat) : Statement (.bufRemovePadding b n) := rfl
theorem mapInit (table : TableId) (keySize : Nat) (valueSize : Nat) (capacity : Option Nat) (expirySeconds : Nat) (copyFn : Bool) : Statement (.mapInit table keySize valueSize capacity expirySeconds copyFn) := rfl
theorem mapGet (table : TableId) (key : Ip) : Statement (.mapGet table key) := rfl
theorem mapSet (key : Ip) (value : TableValue) : Statement (.mapSet key value) := rfl
theorem mapDelete (table : TableId) (key : Ip) : Statement (.mapDelete table key) := rfl
theorem mapForEach (table : TableId) (visitor : Visitor) : Statement (.mapForEach table visitor) := rfl
theorem cksum16 (b : Bytes) : Statement (.cksum16 b) := rfl
theorem cksum16Verify (b : Bytes) (off : Nat) : Statement (.cksum16Verify b off) := rfl
theorem arpInit : Statement (.arpInit) := rfl
theorem arpSendRequest (targetIp : Ip) : Statement (.arpSendRequest targetIp) := rfl
theorem arpResolveAndSend (datagram : Bytes) (destination : Ip) : Statement (.arpResolveAndSend datagram destination) := rfl
theorem arpSendReply (targetIp : Ip) (targetLink : Mac) : Statement (.arpSendReply targetIp targetLink) := rfl
theorem arpOnPacket (packet : Bytes) (sourceLink : Mac) : Statement (.arpOnPacket packet sourceLink) := rfl
theorem arpOnPacketRequest (addresses : ArpAddresses) (trailer : Bytes) (sourceLink : Mac) : Statement (.arpOnPacketRequest addresses trailer sourceLink) := rfl
theorem arpOnPacketReply (addresses : ArpAddresses) (trailer : Bytes) (sourceLink : Mac) : Statement (.arpOnPacketReply addresses trailer sourceLink) := rfl
theorem ipInit : Statement (.ipInit) := rfl
theorem ipOnDatagram (buffer : Bytes) (sourceLink : Mac) : Statement (.ipOnDatagram buffer sourceLink) := rfl
theorem ipOnDatagramV4 (proto : Proto8) (fields : Ipv4Fields) (rest : Bytes) (sourceLink : Mac) : Statement (.ipOnDatagramV4 proto fields rest sourceLink) := rfl
theorem ipOnDatagramProtoIcmp (fields : Ipv4Fields) (rest : Bytes) (sourceLink : Mac) : Statement (.ipOnDatagramProtoIcmp fields rest sourceLink) := rfl
theorem ipOnDatagramProtoOther (fields : Ipv4Fields) (rest : Bytes) (sourceLink : Mac) : Statement (.ipOnDatagramProtoOther fields rest sourceLink) := rfl
theorem upDeliver (protocol : Proto8) (payload : Bytes) (source : Ip) : Statement (.upDeliver protocol payload source) := rfl
theorem ipSendCall (buffer : Bytes) (destination : Ip) (protocol : Proto8) : Statement (.ipSendCall buffer destination protocol) := rfl
theorem ipEncapsulateAndResolve (chunk : Bytes) (destination : Ip) (protocol : Proto8) (ident : Nat) (boff : Nat) (mf : Bool) : Statement (.ipEncapsulateAndResolve chunk destination protocol ident boff mf) := rfl
theorem icmpInit : Statement (.icmpInit) := rfl
theorem icmpOnMessage (buffer : Bytes) (source : Ip) : Statement (.icmpOnMessage buffer source) := rfl
theorem icmpOnMessageEchoRequest (code : Byte) (ics : Word16) (ident : Word16) (seq : Word16) (payload : Bytes) (source : Ip) : Statement (.icmpOnMessageEchoRequest code ics ident seq payload source) := rfl
theorem icmpSendUnreachableCall (original : Bytes) (destination : Ip) (code : Byte) : Statement (.icmpSendUnreachableCall original destination code) := rfl

end Sys2Proof.Laws.FieldCount
end

