-- ==== Sys2Proof/Tests/Slice0.lean ====
section
/-! SUPPORT. Tests: the smoke test of the well-formedness check, the decoding of transactions written out from
the spec's formats, the spec's own vectors (95_test_vectors.md, named in each test), and for every obligation
with hypotheses a witness that meets them. Expected values are the spec's, never the model's. -/

namespace Sys2Proof.Tests

open Sys2Proof Sys2Proof.Machine

/-! ### The setting of 95_test_vectors.md -/

/-- The state that a run ends in, if it ends in one. -/
def nextOf (r : Run) : Option State :=
  match r with
  | .next s => some s
  | .fault _ => none
  | .refused _ => none

/-- `192.168.1.d`. -/
def ip (d : Byte) : Ip := ⟨0xc0, 0xa8, 0x01, d⟩
/-- `02:00:00:00:00:d`. -/
def mac (d : Byte) : Mac := ⟨0x02, 0, 0, 0, 0, d⟩
/-- The peer, 192.168.1.20 at 02:00:00:00:00:02. -/
abbrev peer : Ip := ip 20
/-- The peer's link address. -/
abbrev peerMac : Mac := mac 2
/-- The vectors' configuration: the defaults and the two local addresses. -/
def cfg : Config := { Config.atReset with localIp := ip 10, localMac := mac 1 }
/-- Before RESET. -/
def start : State := { State.reset with cfg := cfg }
/-- After RESET, its outputs taken away; the first reading of the time input answers `t`, later ones the same. -/
def up (t : Nat) : State := { start.initialised with outbox := [], ticks := [t, 0, 0, 0] }
/-- As `up`, the transport registered as well. -/
def up17 (t : Nat) : State := { up t with registered := [1, 17] }
/-- As `up17`, the peer's mapping entered at time 0. -/
def known (t : Nat) : State := { up17 t with cache := (up t).cache.put peer peerMac 0 }
/-- As `up17`, the datagram `[1, 2]` pending for the peer since time 100. -/
def waiting (t : Nat) : State := { up17 (t - 100) with clock := 100, pending := (up 0).pending.put peer [1, 2] 100 }
/-- As `up17`, both tables bounded to one entry and filled by another address. -/
def full : State :=
  { up17 0 with
    cache := { (up 0).cache.put (ip 30) (mac 3) 0 with capacity := some 1 }
    pending := { (up 0).pending.put (ip 30) [1] 0 with capacity := some 1 } }
/-- An ill-formed configuration: no payload fits a frame. -/
def illFormed : State := { start with cfg := { cfg with mtu := 20 } }

/-! ### The smoke test of the well-formedness check (log entry 29) -/

theorem smoke_fdDeliver : (Instr.fdDeliver [] 0x0806 peerMac).wellFormed = false := by decide
theorem smoke_arpOnPacket : (Instr.arpOnPacket [0x00, 0x01, 0x08, 0x00, 0x06, 0x04, 0x00, 0x01, 0x02, 0x00, 0x00, 0x00, 0x00, 0x02, 0xc0, 0xa8, 0x01, 0x14, 0x00, 0x00, 0x00, 0x00, 0x00, 0x00, 0xc0, 0xa8, 0x01, 0x0a] peerMac).wellFormed = false := by decide
theorem smoke_ipOnDatagram : (Instr.ipOnDatagram [0x45, 0x00, 0x00, 0x14, 0x00, 0x00, 0x00, 0x00, 0x40, 0x11, 0xf7, 0x6a, 0xc0, 0xa8, 0x01, 0x14, 0xc0, 0xa8, 0x01, 0x0a] peerMac).wellFormed = false := by decide
theorem smoke_ipOnDatagramV4 : (Instr.ipOnDatagramV4 17 ⟨5, 0, 20, 0, 0, 64, 0, peer, ip 10⟩ [] peerMac).wellFormed = false := by decide
theorem smoke_icmpOnMessage : (Instr.icmpOnMessage [8, 0, 0, 0, 0, 0, 0, 0] peer).wellFormed = false := by decide
theorem smoke_wellFormed : (Instr.fdDeliver [] 0x86dd peerMac).wellFormed = true ∧
    (Instr.arpOnPacket [0] peerMac).wellFormed = true ∧ (Instr.ipOnDatagram [0x45] peerMac).wellFormed = true ∧
    (Instr.ipOnDatagramV4 6 ⟨5, 0, 20, 0, 0, 64, 0, peer, ip 10⟩ [] peerMac).wellFormed = true ∧
    (Instr.icmpOnMessage [0, 0, 0, 0, 0, 0, 0, 0] peer).wellFormed = true := by decide

/-! ### Decoding: transactions written out from R81, R84 and the formats of R87, R90, R94; Mac, Ip and bytes lowest offset first -/

theorem decode_reset : (decode ⟨.reset, []⟩).toOption = some (.reset) := by decide
theorem decode_fdDeliver : (decode ⟨.fdDeliver, [.bytes [1], .num 0x86dd, .bytes [0x02, 0x00, 0x00, 0x00, 0x00, 0x02]]⟩).toOption = some (.fdDeliver [1] 0x86dd peerMac) := by decide
theorem decode_fdDeliverArp : (decode ⟨.fdDeliver, [.bytes [1], .num 0x0806, .bytes [0x02, 0x00, 0x00, 0x00, 0x00, 0x02]]⟩).toOption = some (.fdDeliverArp [1] peerMac) := by decide
theorem decode_fdDeliverIp : (decode ⟨.fdDeliver, [.bytes [1], .num 0x0800, .bytes [0x02, 0x00, 0x00, 0x00, 0x00, 0x02]]⟩).toOption = some (.fdDeliverIp [1] peerMac) := by decide
theorem decode_ipSend : (decode ⟨.ipSend, [.bytes [1], .bytes [0xc0, 0xa8, 0x01, 0x14], .num 17]⟩).toOption = some (.ipSend [1] peer 17) := by decide
theorem decode_icmpSendUnreachable : (decode ⟨.icmpSendUnreachable, [.bytes [1], .bytes [0xc0, 0xa8, 0x01, 0x14], .num 3]⟩).toOption = some (.icmpSendUnreachable [1] peer 3) := by decide
theorem decode_ipRegister : (decode ⟨.ipRegister, [.num 17]⟩).toOption = some (.ipRegister 17) := by decide
theorem decode_fdTransmit : (decode ⟨.fdTransmit, [.bytes [1], .bytes [0x02, 0x00, 0x00, 0x00, 0x00, 0x02], .num 0x0806]⟩).toOption = some (.fdTransmit [1] peerMac 0x0806) := by decide
theorem decode_fdRegister : (decode ⟨.fdRegister, [.num 0x0806]⟩).toOption = some (.fdRegister 0x0806) := by decide
theorem decode_fdPoll : (decode ⟨.fdPoll, []⟩).toOption = some (.fdPoll) := by decide
theorem decode_bufAddHeader : (decode ⟨.bufAddHeader, [.bytes [1], .num 2]⟩).toOption = some (.bufAddHeader [1] 2) := by decide
theorem decode_bufRemoveHeader : (decode ⟨.bufRemoveHeader, [.bytes [1], .num 2]⟩).toOption = some (.bufRemoveHeader [1] 2) := by decide
theorem decode_bufAddPadding : (decode ⟨.bufAddPadding, [.bytes [1], .num 2]⟩).toOption = some (.bufAddPadding [1] 2) := by decide
theorem decode_bufRemovePadding : (decode ⟨.bufRemovePadding, [.bytes [1], .num 2]⟩).toOption = some (.bufRemovePadding [1] 2) := by decide
theorem decode_mapInit : (decode ⟨.mapInit, [.num 0, .num 4, .num 6, .absent, .num 60, .flag false]⟩).toOption = some (.mapInit .cache 4 6 none 60 false) := by decide
theorem decode_mapInit_bounded : (decode ⟨.mapInit, [.num 1, .num 4, .num 0, .num 8, .num 1, .flag true]⟩).toOption = some (.mapInit .pending 4 0 (some 8) 1 true) := by decide
theorem decode_mapGet : (decode ⟨.mapGet, [.num 0, .bytes [0xc0, 0xa8, 0x01, 0x14]]⟩).toOption = some (.mapGet .cache peer) := by decide
theorem decode_mapSet : (decode ⟨.mapSet, [.num 0, .bytes [0xc0, 0xa8, 0x01, 0x14], .bytes [0x02, 0x00, 0x00, 0x00, 0x00, 0x02]]⟩).toOption = some (.mapSet peer (.cache peerMac)) := by decide
theorem decode_mapDelete : (decode ⟨.mapDelete, [.num 1, .bytes [0xc0, 0xa8, 0x01, 0x14]]⟩).toOption = some (.mapDelete .pending peer) := by decide
theorem decode_mapForEach : (decode ⟨.mapForEach, [.num 1, .flag true]⟩).toOption = some (.mapForEach .pending .mutating) := by decide
theorem decode_cksum16 : (decode ⟨.cksum16, [.bytes [1]]⟩).toOption = some (.cksum16 [1]) := by decide
theorem decode_cksum16Verify : (decode ⟨.cksum16Verify, [.bytes [1], .num 2]⟩).toOption = some (.cksum16Verify [1] 2) := by decide
theorem decode_arpInit : (decode ⟨.arpInit, []⟩).toOption = some (.arpInit) := by decide
theorem decode_arpSendRequest : (decode ⟨.arpSendRequest, [.bytes [0xc0, 0xa8, 0x01, 0x14]]⟩).toOption = some (.arpSendRequest peer) := by decide
theorem decode_arpResolveAndSend : (decode ⟨.arpResolveAndSend, [.bytes [1], .bytes [0xc0, 0xa8, 0x01, 0x14]]⟩).toOption = some (.arpResolveAndSend [1] peer) := by decide
theorem decode_arpSendReply : (decode ⟨.arpSendReply, [.bytes [0xc0, 0xa8, 0x01, 0x14], .bytes [0x02, 0x00, 0x00, 0x00, 0x00, 0x02]]⟩).toOption = some (.arpSendReply peer peerMac) := by decide
theorem decode_arpOnPacket : (decode ⟨.arpOnPacket, [.bytes [0x00, 0x01, 0x08, 0x00, 0x06, 0x04, 0x00, 0x03, 0x02, 0x00, 0x00, 0x00, 0x00, 0x02, 0xc0, 0xa8, 0x01, 0x14, 0x00, 0x00, 0x00, 0x00, 0x00, 0x00, 0xc0, 0xa8, 0x01, 0x0a], .bytes [0x02, 0x00, 0x00, 0x00, 0x00, 0x02]]⟩).toOption = some (.arpOnPacket [0x00, 0x01, 0x08, 0x00, 0x06, 0x04, 0x00, 0x03, 0x02, 0x00, 0x00, 0x00, 0x00, 0x02, 0xc0, 0xa8, 0x01, 0x14, 0x00, 0x00, 0x00, 0x00, 0x00, 0x00, 0xc0, 0xa8, 0x01, 0x0a] peerMac) := by decide
theorem decode_arpOnPacketRequest : (decode ⟨.arpOnPacket, [.bytes [0x00, 0x01, 0x08, 0x00, 0x06, 0x04, 0x00, 0x01, 0x02, 0x00, 0x00, 0x00, 0x00, 0x02, 0xc0, 0xa8, 0x01, 0x14, 0x00, 0x00, 0x00, 0x00, 0x00, 0x00, 0xc0, 0xa8, 0x01, 0x0a, 0x00], .bytes [0x02, 0x00, 0x00, 0x00, 0x00, 0x02]]⟩).toOption = some (.arpOnPacketRequest ⟨peerMac, peer, Mac.zero, ip 10⟩ [0] peerMac) := by decide
theorem decode_arpOnPacketReply : (decode ⟨.arpOnPacket, [.bytes [0x00, 0x01, 0x08, 0x00, 0x06, 0x04, 0x00, 0x02, 0x02, 0x00, 0x00, 0x00, 0x00, 0x02, 0xc0, 0xa8, 0x01, 0x14, 0x02, 0x00, 0x00, 0x00, 0x00, 0x01, 0xc0, 0xa8, 0x01, 0x0a], .bytes [0x02, 0x00, 0x00, 0x00, 0x00, 0x02]]⟩).toOption = some (.arpOnPacketReply ⟨peerMac, peer, mac 1, ip 10⟩ [] peerMac) := by decide
theorem decode_ipInit : (decode ⟨.ipInit, []⟩).toOption = some (.ipInit) := by decide
theorem decode_ipOnDatagram : (decode ⟨.ipOnDatagram, [.bytes [0x65], .bytes [0x02, 0x00, 0x00, 0x00, 0x00, 0x02]]⟩).toOption = some (.ipOnDatagram [0x65] peerMac) := by decide
theorem decode_ipOnDatagramV4 : (decode ⟨.ipOnDatagram, [.bytes [0x45, 0xa1, 0x01, 0x02, 0x03, 0x04, 0x20, 0xb9, 0x40, 0x06, 0xb8, 0x61, 0xc0, 0xa8, 0x01, 0x14, 0xc0, 0xa8, 0x01, 0x0a, 0x07], .bytes [0x02, 0x00, 0x00, 0x00, 0x00, 0x02]]⟩).toOption = some (.ipOnDatagramV4 6 ⟨5, 0xa1, 0x0102, 0x0304, 0x20b9, 0x40, 0xb861, peer, ip 10⟩ [7] peerMac) := by decide
theorem decode_ipOnDatagramProtoIcmp : (decode ⟨.ipOnDatagram, [.bytes [0x46, 0x00, 0x00, 0x14, 0x00, 0x00, 0x00, 0x00, 0x40, 0x01, 0xf7, 0x7a, 0xc0, 0xa8, 0x01, 0x14, 0xc0, 0xa8, 0x01, 0x0a], .bytes [0x02, 0x00, 0x00, 0x00, 0x00, 0x02]]⟩).toOption = some (.ipOnDatagramProtoIcmp ⟨6, 0, 20, 0, 0, 0x40, 0xf77a, peer, ip 10⟩ [] peerMac) := by decide
theorem decode_ipOnDatagramProtoOther : (decode ⟨.ipOnDatagram, [.bytes [0x45, 0x00, 0x00, 0x14, 0x00, 0x00, 0x00, 0x00, 0x40, 0x11, 0xf7, 0x6a, 0xc0, 0xa8, 0x01, 0x14, 0xc0, 0xa8, 0x01, 0x0a], .bytes [0x02, 0x00, 0x00, 0x00, 0x00, 0x02]]⟩).toOption = some (.ipOnDatagramProtoOther ⟨5, 0, 20, 0, 0, 0x40, 0xf76a, peer, ip 10⟩ [] peerMac) := by decide
theorem decode_upDeliver : (decode ⟨.upDeliver, [.num 17, .bytes [1], .bytes [0xc0, 0xa8, 0x01, 0x14]]⟩).toOption = some (.upDeliver 17 [1] peer) := by decide
theorem decode_ipSendCall : (decode ⟨.ipSendCall, [.bytes [1], .bytes [0xc0, 0xa8, 0x01, 0x14], .num 17]⟩).toOption = some (.ipSendCall [1] peer 17) := by decide
theorem decode_ipEncapsulateAndResolve : (decode ⟨.ipEncapsulateAndResolve, [.bytes [1], .bytes [0xc0, 0xa8, 0x01, 0x14], .num 17, .num 7, .num 8, .flag true]⟩).toOption = some (.ipEncapsulateAndResolve [1] peer 17 7 8 true) := by decide
theorem decode_icmpInit : (decode ⟨.icmpInit, []⟩).toOption = some (.icmpInit) := by decide
theorem decode_icmpOnMessage : (decode ⟨.icmpOnMessage, [.bytes [0x00, 0x00, 0xed, 0xca, 0x12, 0x34, 0x00, 0x01], .bytes [0xc0, 0xa8, 0x01, 0x14]]⟩).toOption = some (.icmpOnMessage [0x00, 0x00, 0xed, 0xca, 0x12, 0x34, 0x00, 0x01] peer) := by decide
theorem decode_icmpOnMessageEchoRequest : (decode ⟨.icmpOnMessage, [.bytes [0x08, 0x05, 0x21, 0x04, 0x12, 0x34, 0x00, 0x01, 0x61, 0x62], .bytes [0xc0, 0xa8, 0x01, 0x14]]⟩).toOption = some (.icmpOnMessageEchoRequest 5 0x2104 0x1234 1 [0x61, 0x62] peer) := by decide
theorem decode_icmpSendUnreachableCall : (decode ⟨.icmpSendUnreachableCall, [.bytes [1], .bytes [0xc0, 0xa8, 0x01, 0x14], .num 2]⟩).toOption = some (.icmpSendUnreachableCall [1] peer 2) := by decide

theorem decode_rejects : decode ⟨.reset, [.num 0]⟩ = .error .fieldShape ∧ decode ⟨.mapGet, [.num 0, .bytes [1, 2, 3]]⟩ = .error .ipLength ∧
    decode ⟨.arpSendReply, [.bytes [0xc0, 0xa8, 0x01, 0x14], .bytes [1]]⟩ = .error .macLength ∧ decode ⟨.ipRegister, [.num 256]⟩ = .error .fieldRange ∧
    decode ⟨.mapGet, [.num 2, .bytes [0xc0, 0xa8, 0x01, 0x14]]⟩ = .error .fieldRange := by decide

/-! ### The pattern words of spec/opcode_table.json run as the first operation after reset -/

theorem fetch_fdDeliverArp : (nextOf (step (State.reset.withFetchWord 16 0x0806))).isSome = true := by decide
theorem fetch_fdDeliverIp : (nextOf (step (State.reset.withFetchWord 16 0x0800))).isSome = true := by decide
theorem fetch_arpRequest : (nextOf (step (State.reset.withFetchWord 64 0x0001080006040001))).isSome = true := by decide
theorem fetch_arpReply : (nextOf (step (State.reset.withFetchWord 64 0x0001080006040002))).isSome = true := by decide
theorem fetch_v4 : (nextOf (step (State.reset.withFetchWord 80 0x40000000000000000000))).isSome = true := by decide
theorem fetch_icmp : (nextOf (step (State.reset.withFetchWord 80 0x40000000000000000001))).isSome = true := by decide
theorem fetch_other : (nextOf (step (State.reset.withFetchWord 80 0x40000000000000000011))).isSome = true := by decide
theorem fetch_echo : (nextOf (step (State.reset.withFetchWord 8 0x08))).isSome = true := by decide

/-! ### One step each, with the spec's vectors -/

/-- P1 step 1. -/
theorem test_reset_outputs : (nextOf (exec (.reset) (start))).map ((·.outbox)) =
    some ([.fdTransmit [0x00, 0x01, 0x08, 0x00, 0x06, 0x04, 0x00, 0x01, 0x02, 0x00, 0x00, 0x00, 0x00, 0x01, 0xc0, 0xa8, 0x01, 0x0a, 0x00, 0x00, 0x00, 0x00, 0x00, 0x00, 0xc0, 0xa8, 0x01, 0x0a] Mac.broadcast 0x0806, .fdRegister 0x0806, .fdRegister 0x0800]) := by decide
/-- P1 step 1. -/
theorem test_reset_state : (nextOf (exec (.reset) (start))).map (fun s => (s.idctr, s.registered, s.cache.store.length, s.pending.store.length)) =
    some (0, [1], 0, 0) := by decide
/-- R150: a frame with no handler never reaches the core. -/
theorem test_fdDeliver : (nextOf (exec (.fdDeliver [1] 0x86dd peerMac) (up 0))).map ((·.outbox)) =
    some ([]) := by decide
/-- P1 step 2. -/
theorem test_fdDeliverArp : (nextOf (exec (.fdDeliverArp [0x00, 0x01, 0x08, 0x00, 0x06, 0x04, 0x00, 0x01, 0x02, 0x00, 0x00, 0x00, 0x00, 0x02, 0xc0, 0xa8, 0x01, 0x14, 0x00, 0x00, 0x00, 0x00, 0x00, 0x00, 0xc0, 0xa8, 0x01, 0x0a] peerMac) (up 10))).map (fun s => (s.cache.store, s.outbox)) =
    some ([⟨peer, peerMac, 10⟩], [.fdTransmit [0x00, 0x01, 0x08, 0x00, 0x06, 0x04, 0x00, 0x02, 0x02, 0x00, 0x00, 0x00, 0x00, 0x01, 0xc0, 0xa8, 0x01, 0x0a, 0x02, 0x00, 0x00, 0x00, 0x00, 0x02, 0xc0, 0xa8, 0x01, 0x14] peerMac 0x0806]) := by decide
/-- V5 and P1 step 3: the end-to-end echo. -/
theorem test_fdDeliverIp : (nextOf (exec (.fdDeliverIp [0x45, 0x00, 0x00, 0x20, 0x00, 0x42, 0x00, 0x00, 0x40, 0x01, 0xf7, 0x2c, 0xc0, 0xa8, 0x01, 0x14, 0xc0, 0xa8, 0x01, 0x0a, 0x08, 0x00, 0x21, 0x04, 0x12, 0x34, 0x00, 0x01, 0x61, 0x62, 0x63, 0x64] peerMac) (known 11))).map (fun s => (s.idctr, s.outbox)) =
    some (1, [.fdTransmit [0x45, 0x00, 0x00, 0x20, 0x00, 0x00, 0x00, 0x00, 0x40, 0x01, 0xf7, 0x6e, 0xc0, 0xa8, 0x01, 0x0a, 0xc0, 0xa8, 0x01, 0x14, 0x00, 0x00, 0x29, 0x04, 0x12, 0x34, 0x00, 0x01, 0x61, 0x62, 0x63, 0x64] peerMac 0x0800]) := by decide
/-- T-OUT-14, T-ARP-2. -/
theorem test_ipSend : (nextOf (exec (.ipSend [0x61, 0x62, 0x63, 0x64] peer 17) (up 100))).map (fun s => (s.idctr, s.pending.store, s.outbox)) =
    some (1, [⟨peer, [0x45, 0x00, 0x00, 0x18, 0x00, 0x00, 0x00, 0x00, 0x40, 0x11, 0xf7, 0x66, 0xc0, 0xa8, 0x01, 0x0a, 0xc0, 0xa8, 0x01, 0x14, 0x61, 0x62, 0x63, 0x64], 100⟩], [.fdTransmit [0x00, 0x01, 0x08, 0x00, 0x06, 0x04, 0x00, 0x01, 0x02, 0x00, 0x00, 0x00, 0x00, 0x01, 0xc0, 0xa8, 0x01, 0x0a, 0x00, 0x00, 0x00, 0x00, 0x00, 0x00, 0xc0, 0xa8, 0x01, 0x14] Mac.broadcast 0x0806]) := by decide
/-- T-ICMP-10. -/
theorem test_icmpSendUnreachable : (nextOf (exec (.icmpSendUnreachable [0x45, 0x00, 0x00, 0x1e, 0x00, 0x9c, 0x00, 0x00, 0x40, 0x11, 0xf6, 0xc4, 0xc0, 0xa8, 0x01, 0x14, 0xc0, 0xa8, 0x01, 0x0a, 0x30, 0x39, 0x00, 0x35, 0x00, 0x0a, 0x00, 0x00, 0x68, 0x69] peer 3) (known 0))).map (fun s => s.outbox.map fun o => match o with | .fdTransmit d _ _ => d.drop 20 | _ => []) =
    some ([[0x03, 0x03, 0xcc, 0x84, 0x00, 0x00, 0x00, 0x00, 0x45, 0x00, 0x00, 0x1e, 0x00, 0x9c, 0x00, 0x00, 0x40, 0x11, 0xf6, 0xc4, 0xc0, 0xa8, 0x01, 0x14, 0xc0, 0xa8, 0x01, 0x0a, 0x30, 0x39, 0x00, 0x35, 0x00, 0x0a, 0x00, 0x00]]) := by decide
/-- P3 step 3. -/
theorem test_ipRegister : (nextOf (exec (.ipRegister 17) (up 0))).map ((·.registered)) =
    some ([1, 17]) := by decide
/-- R151. -/
theorem test_fdTransmit : (nextOf (exec (.fdTransmit [1] peerMac 0x0800) (up 0))).map ((·.outbox)) =
    some ([.fdTransmit [1] peerMac 0x0800]) := by decide
/-- R152. -/
theorem test_fdRegister : (nextOf (exec (.fdRegister 0x86dd) (up 0))).map ((·.fdRegistered)) =
    some ([0x0800, 0x0806, 0x86dd]) := by decide
/-- R153 with the frame of P1 step 2. -/
theorem test_fdPoll : (nextOf (exec (.fdPoll) ({ up 10 with driver := [⟨[0x00, 0x01, 0x08, 0x00, 0x06, 0x04, 0x00, 0x01, 0x02, 0x00, 0x00, 0x00, 0x00, 0x02, 0xc0, 0xa8, 0x01, 0x14, 0x00, 0x00, 0x00, 0x00, 0x00, 0x00, 0xc0, 0xa8, 0x01, 0x0a], 0x0806, peerMac⟩, ⟨[], 0, peerMac⟩] }))).map (fun s => (s.driver.length, s.outbox)) =
    some (1, [.fdTransmit [0x00, 0x01, 0x08, 0x00, 0x06, 0x04, 0x00, 0x02, 0x02, 0x00, 0x00, 0x00, 0x00, 0x01, 0xc0, 0xa8, 0x01, 0x0a, 0x02, 0x00, 0x00, 0x00, 0x00, 0x02, 0xc0, 0xa8, 0x01, 0x14] peerMac 0x0806]) := by decide
/-- T-BUF-1. -/
theorem test_bufAddHeader : (nextOf (exec (.bufAddHeader [0x61, 0x62] 2) (up 0))).map (fun s => match s.ret with | .bytes b => (b.length, b.drop 2) | _ => (0, [])) =
    some (4, [0x61, 0x62]) := by decide
/-- T-BUF-2. -/
theorem test_bufRemoveHeader : (nextOf (exec (.bufRemoveHeader [0x45, 0, 0x61, 0x62] 2) (up 0))).map ((·.ret)) =
    some (.bytes [0x61, 0x62]) := by decide
/-- T-BUF-5. -/
theorem test_bufRemoveHeader_fault : nextOf (exec (.bufRemoveHeader [0x61] 2) (up 0)) = none := by decide
/-- R133's example. -/
theorem test_bufAddPadding : (nextOf (exec (.bufAddPadding [0x61] 1) (up 0))).map (fun s => match s.ret with | .bytes b => (b.length, b.take 1) | _ => (0, [])) =
    some (2, [0x61]) := by decide
/-- T-BUF-4. -/
theorem test_bufRemovePadding : (nextOf (exec (.bufRemovePadding [0x61, 0x62, 0, 0] 2) (up 0))).map ((·.ret)) =
    some (.bytes [0x61, 0x62]) := by decide
/-- R140's example. -/
theorem test_mapInit : (nextOf (exec (.mapInit .cache 4 6 none 60 false) (start))).map (fun s => (s.cache.ready, s.cache.horizon, s.cache.store.length)) =
    some (true, 60, 0) := by decide
/-- T-MAP-1. -/
theorem test_mapGet_live : (nextOf (exec (.mapGet .cache peer) ({ up 60 with clock := 100, cache := (up 0).cache.put peer peerMac 100 }))).map ((·.ret)) =
    some (.found (some (.cache peerMac))) := by decide
/-- T-MAP-2: the entry stays in storage. -/
theorem test_mapGet_stale : (nextOf (exec (.mapGet .cache peer) ({ up 61 with clock := 100, cache := (up 0).cache.put peer peerMac 100 }))).map (fun s => (s.ret, s.cache.store)) =
    some (.found none, [⟨peer, peerMac, 100⟩]) := by decide
/-- R142's example. -/
theorem test_mapSet : (nextOf (exec (.mapSet peer (.cache peerMac)) (up 100))).map ((·.cache.store)) =
    some ([⟨peer, peerMac, 100⟩]) := by decide
/-- T-MAP-6. -/
theorem test_mapDelete : (nextOf (exec (.mapDelete .pending peer) (waiting 100))).map ((·.pending.store)) =
    some ([]) := by decide
/-- R144. -/
theorem test_mapForEach : (nextOf (exec (.mapForEach .cache .readOnly) (known 0))).map ((·.cache.store)) =
    some ([⟨peer, peerMac, 0⟩]) := by decide
/-- T-CK-9. -/
theorem test_cksum16 : (nextOf (exec (.cksum16 [0x00, 0x01, 0xf2, 0x03, 0xf4, 0xf5, 0xf6, 0xf7]) (up 0))).map ((·.ret)) =
    some (.word 0x220d) := by decide
/-- T-CK-10. -/
theorem test_cksum16_odd : (nextOf (exec (.cksum16 [0x61, 0x62, 0x63]) (up 0))).map ((·.ret)) =
    some (.word 0x3b9d) := by decide
/-- T-CK-13. -/
theorem test_cksum16Verify : (nextOf (exec (.cksum16Verify [0x45, 0x00, 0x00, 0x73, 0x00, 0x00, 0x40, 0x00, 0x40, 0x11, 0xb8, 0x61, 0xc0, 0xa8, 0x00, 0x01, 0xc0, 0xa8, 0x00, 0xc7] 10) (up 0))).map ((·.ret)) =
    some (.flag true) := by decide
/-- T-CK-17. -/
theorem test_cksum16Verify_false : (nextOf (exec (.cksum16Verify [0xff, 0xff, 0xff, 0xff] 2) (up 0))).map ((·.ret)) =
    some (.flag false) := by decide
/-- R170's example. -/
theorem test_arpInit : (nextOf (exec (.arpInit) (start))).map ((·.outbox)) =
    some ([.fdTransmit [0x00, 0x01, 0x08, 0x00, 0x06, 0x04, 0x00, 0x01, 0x02, 0x00, 0x00, 0x00, 0x00, 0x01, 0xc0, 0xa8, 0x01, 0x0a, 0x00, 0x00, 0x00, 0x00, 0x00, 0x00, 0xc0, 0xa8, 0x01, 0x0a] Mac.broadcast 0x0806, .fdRegister 0x0806]) := by decide
/-- R171's example. -/
theorem test_arpSendRequest : (nextOf (exec (.arpSendRequest peer) (up 0))).map ((·.outbox)) =
    some ([.fdTransmit [0x00, 0x01, 0x08, 0x00, 0x06, 0x04, 0x00, 0x01, 0x02, 0x00, 0x00, 0x00, 0x00, 0x01, 0xc0, 0xa8, 0x01, 0x0a, 0x00, 0x00, 0x00, 0x00, 0x00, 0x00, 0xc0, 0xa8, 0x01, 0x14] Mac.broadcast 0x0806]) := by decide
/-- T-ARP-1. -/
theorem test_arpResolveAndSend_hit : (nextOf (exec (.arpResolveAndSend [9] peer) (known 60))).map (fun s => (s.outbox, s.cache.store)) =
    some ([.fdTransmit [9] peerMac 0x0800], [⟨peer, peerMac, 0⟩]) := by decide
/-- T-ARP-3. -/
theorem test_arpResolveAndSend_held : (nextOf (exec (.arpResolveAndSend [9] peer) (waiting 101))).map (fun s => (s.outbox, s.pending.store, s.causes)) =
    some ([], [⟨peer, [1, 2], 100⟩], [.arpResolutionInFlight]) := by decide
/-- R173's example. -/
theorem test_arpSendReply : (nextOf (exec (.arpSendReply peer peerMac) (up 0))).map ((·.outbox)) =
    some ([.fdTransmit [0x00, 0x01, 0x08, 0x00, 0x06, 0x04, 0x00, 0x02, 0x02, 0x00, 0x00, 0x00, 0x00, 0x01, 0xc0, 0xa8, 0x01, 0x0a, 0x02, 0x00, 0x00, 0x00, 0x00, 0x02, 0xc0, 0xa8, 0x01, 0x14] peerMac 0x0806]) := by decide
/-- T-ARP-9. -/
theorem test_arpOnPacket_short : (nextOf (exec (.arpOnPacket [0x00, 0x01, 0x08, 0x00, 0x06, 0x04, 0x00, 0x01, 0x02, 0x00, 0x00, 0x00, 0x00, 0x02, 0xc0, 0xa8, 0x01, 0x14, 0x00, 0x00, 0x00, 0x00, 0x00, 0x00, 0xc0, 0xa8, 0x01] peerMac) (up 0))).map (fun s => (s.causes, s.cache.store)) =
    some ([.arpTooShort], []) := by decide
/-- T-ARP-8, byte 7 changed to 03. -/
theorem test_arpOnPacket_opcode : (nextOf (exec (.arpOnPacket [0x00, 0x01, 0x08, 0x00, 0x06, 0x04, 0x00, 0x03, 0x02, 0x00, 0x00, 0x00, 0x00, 0x02, 0xc0, 0xa8, 0x01, 0x14, 0x00, 0x00, 0x00, 0x00, 0x00, 0x00, 0xc0, 0xa8, 0x01, 0x0a] peerMac) (up 0))).map (fun s => (s.causes, s.cache.store)) =
    some ([.arpBadFixedField], []) := by decide
/-- T-ARP-12: released, not answered. -/
theorem test_arpOnPacketRequest : (nextOf (exec (.arpOnPacketRequest ⟨peerMac, peer, Mac.zero, ip 10⟩ [] peerMac) (waiting 100))).map (fun s => (s.cache.store, s.pending.store, s.outbox)) =
    some ([⟨peer, peerMac, 100⟩], [], [.fdTransmit [1, 2] peerMac 0x0800]) := by decide
/-- T-ARP-11: learned, not answered. -/
theorem test_arpOnPacketRequest_other : (nextOf (exec (.arpOnPacketRequest ⟨peerMac, peer, Mac.zero, ip 11⟩ [] peerMac) (up 10))).map (fun s => (s.cache.store, s.outbox)) =
    some ([⟨peer, peerMac, 10⟩], []) := by decide
/-- T-ARP-6: a stale pending entry is left in storage. -/
theorem test_arpOnPacketReply : (nextOf (exec (.arpOnPacketReply ⟨peerMac, peer, mac 1, ip 10⟩ [] peerMac) (waiting 102))).map (fun s => (s.cache.store, s.pending.store, s.outbox)) =
    some ([⟨peer, peerMac, 102⟩], [⟨peer, [1, 2], 100⟩], []) := by decide
/-- R191's example. -/
theorem test_ipInit : (nextOf (exec (.ipInit) (start))).map ((·.outbox)) =
    some ([.fdRegister 0x0800]) := by decide
/-- T-IN-2. -/
theorem test_ipOnDatagram_short : (nextOf (exec (.ipOnDatagram [0x45, 0x00, 0x00, 0x14, 0x00, 0x00, 0x00, 0x00, 0x40, 0x11, 0xf7, 0x6a, 0xc0, 0xa8, 0x01, 0x14, 0xc0, 0xa8, 0x01] peerMac) (up17 0))).map ((·.causes)) =
    some ([.ipTooShort]) := by decide
/-- T-IN-3. -/
theorem test_ipOnDatagram_version : (nextOf (exec (.ipOnDatagram [0x65, 0x00, 0x00, 0x14, 0x00, 0x00, 0x00, 0x00, 0x40, 0x11, 0xf7, 0x6a, 0xc0, 0xa8, 0x01, 0x14, 0xc0, 0xa8, 0x01, 0x0a] peerMac) (up17 0))).map ((·.causes)) =
    some ([.ipBadVersion]) := by decide
/-- P3 step 2, T-ICMP-6, T-ICMP-7: padding removed, then answered. -/
theorem test_ipOnDatagramV4 : (nextOf (exec (.ipOnDatagramV4 6 ⟨5, 0, 0x20, 0x99, 0, 0x40, 0xf6d0, peer, ip 10⟩ ([0x00, 0x01, 0x02, 0x03, 0x04, 0x05, 0x06, 0x07, 0x08, 0x09, 0x0a, 0x0b] ++ List.replicate 14 0) peerMac) (known 6))).map (fun s => (s.idctr, s.outbox)) =
    some (1, [.fdTransmit [0x45, 0x00, 0x00, 0x38, 0x00, 0x00, 0x00, 0x00, 0x40, 0x01, 0xf7, 0x56, 0xc0, 0xa8, 0x01, 0x0a, 0xc0, 0xa8, 0x01, 0x14, 0x03, 0x02, 0xf0, 0xed, 0x00, 0x00, 0x00, 0x00, 0x45, 0x00, 0x00, 0x20, 0x00, 0x99, 0x00, 0x00, 0x40, 0x06, 0xf6, 0xd0, 0xc0, 0xa8, 0x01, 0x14, 0xc0, 0xa8, 0x01, 0x0a, 0x00, 0x01, 0x02, 0x03, 0x04, 0x05, 0x06, 0x07] peerMac 0x0800]) := by decide
/-- V5. -/
theorem test_ipOnDatagramProtoIcmp : (nextOf (exec (.ipOnDatagramProtoIcmp ⟨5, 0, 0x20, 0x42, 0, 0x40, 0xf72c, peer, ip 10⟩ [0x08, 0x00, 0x21, 0x04, 0x12, 0x34, 0x00, 0x01, 0x61, 0x62, 0x63, 0x64] peerMac) (known 11))).map ((·.outbox)) =
    some ([.fdTransmit [0x45, 0x00, 0x00, 0x20, 0x00, 0x00, 0x00, 0x00, 0x40, 0x01, 0xf7, 0x6e, 0xc0, 0xa8, 0x01, 0x0a, 0xc0, 0xa8, 0x01, 0x14, 0x00, 0x00, 0x29, 0x04, 0x12, 0x34, 0x00, 0x01, 0x61, 0x62, 0x63, 0x64] peerMac 0x0800]) := by decide
/-- T-IN-9: padding stripped. -/
theorem test_ipOnDatagramProtoOther : (nextOf (exec (.ipOnDatagramProtoOther ⟨5, 0, 0x16, 0, 0, 0x40, 0xf768, peer, ip 10⟩ ([0x68, 0x69] ++ List.replicate 26 0) peerMac) (up17 0))).map ((·.outbox)) =
    some ([.upDeliver 17 [0x68, 0x69] peer]) := by decide
/-- T-IN-12 under the policy ihl. -/
theorem test_ipOnDatagramProtoOther_options : (nextOf (exec (.ipOnDatagramProtoOther ⟨6, 0, 0x1a, 0, 0, 0x40, 0xf463, peer, ip 10⟩ [1, 1, 1, 0, 0x68, 0x69] peerMac) ({ up17 0 with cfg := { cfg with ihlPolicy := .ihl } }))).map ((·.outbox)) =
    some ([.upDeliver 17 [0x68, 0x69] peer]) := by decide
/-- R82. -/
theorem test_upDeliver : (nextOf (exec (.upDeliver 17 [1] peer) (up 0))).map ((·.outbox)) =
    some ([.upDeliver 17 [1] peer]) := by decide
/-- T-OUT-15. -/
theorem test_ipSendCall : (nextOf (exec (.ipSendCall [0x61, 0x62, 0x63, 0x64] peer 17) ({ known 0 with idctr := 65535 }))).map (fun s => (s.idctr, s.outbox)) =
    some (65536, [.fdTransmit [0x45, 0x00, 0x00, 0x18, 0xff, 0xff, 0x00, 0x00, 0x40, 0x11, 0xf7, 0x66, 0xc0, 0xa8, 0x01, 0x0a, 0xc0, 0xa8, 0x01, 0x14, 0x61, 0x62, 0x63, 0x64] peerMac 0x0800]) := by decide
/-- T-OUT-11c. -/
theorem test_ipEncapsulateAndResolve : (nextOf (exec (.ipEncapsulateAndResolve (List.replicate 40 0) peer 17 7 2960 false) (known 0))).map (fun s => s.outbox.map fun o => match o with | .fdTransmit d _ _ => d.take 20 | _ => []) =
    some ([[0x45, 0x00, 0x00, 0x3c, 0x00, 0x07, 0x01, 0x72, 0x40, 0x11, 0xf5, 0xc9, 0xc0, 0xa8, 0x01, 0x0a, 0xc0, 0xa8, 0x01, 0x14]]) := by decide
/-- R230's example. -/
theorem test_icmpInit : (nextOf (exec (.icmpInit) (start))).map ((·.registered)) =
    some ([1]) := by decide
/-- T-ICMP-5. -/
theorem test_icmpOnMessage_short : (nextOf (exec (.icmpOnMessage [8, 0, 0xf7, 0xff, 0, 0, 0] peer) (known 0))).map (fun s => (s.causes, s.outbox)) =
    some ([.icmpTooShort], []) := by decide
/-- T-ICMP-5. -/
theorem test_icmpOnMessage_ignored : (nextOf (exec (.icmpOnMessage [0x00, 0x00, 0xed, 0xca, 0x12, 0x34, 0x00, 0x01] peer) (known 0))).map (fun s => (s.causes, s.outbox)) =
    some ([.icmpIgnoredType], []) := by decide
/-- T-ICMP-4: code 0 and a correct checksum. -/
theorem test_icmpOnMessageEchoRequest : (nextOf (exec (.icmpOnMessageEchoRequest 5 0xdead 7 9 [0x78] peer) (known 0))).map (fun s => s.outbox.map fun o => match o with | .fdTransmit d _ _ => d.drop 20 | _ => []) =
    some ([[0x00, 0x00, 0x87, 0xef, 0x00, 0x07, 0x00, 0x09, 0x78]]) := by decide
/-- T-ICMP-8. -/
theorem test_icmpSendUnreachableCall : (nextOf (exec (.icmpSendUnreachableCall [0x45, 0x00, 0x00, 0x14, 0x00, 0x9b, 0x00, 0x00, 0x40, 0x06, 0xf6, 0xda, 0xc0, 0xa8, 0x01, 0x14, 0xc0, 0xa8, 0x01, 0x0a] peer 2) (known 0))).map (fun s => s.outbox.map fun o => match o with | .fdTransmit d _ _ => d.drop 20 | _ => []) =
    some ([[0x03, 0x02, 0xfc, 0xfd, 0x00, 0x00, 0x00, 0x00, 0x45, 0x00, 0x00, 0x14, 0x00, 0x9b, 0x00, 0x00, 0x40, 0x06, 0xf6, 0xda, 0xc0, 0xa8, 0x01, 0x14, 0xc0, 0xa8, 0x01, 0x0a]]) := by decide
/-- T-OUT-1, T-OUT-3, T-OUT-5, T-OUT-7. -/
theorem test_fragPlan : fragPlan 0 1480 = [⟨0, 0, false⟩] ∧ fragPlan 1480 1480 = [⟨0, 1480, false⟩] ∧
    fragPlan 2960 1480 = [⟨0, 1480, true⟩, ⟨1480, 1480, false⟩] ∧
    fragPlan 3000 1480 = [⟨0, 1480, true⟩, ⟨1480, 1480, true⟩, ⟨2960, 40, false⟩] := by decide
/-- The flags+offset fields of T-OUT-11b and T-OUT-11c. -/
theorem test_flagsOffset : flagsOffset .bit13 true 1480 = 0x20b9 ∧ flagsOffset .bit15 true 1480 = 0x80b9 ∧ flagsOffset .bit13 false 2960 = 0x0172 := by decide

/-! ### Witnesses: states and operands that meet the hypotheses of each obligation, clause by clause, at the
ends of the ranges -/

/-- As `known`, the next operation presented. -/
def given (i : Instr) (t : Nat) : State := { known t with inbox := [encode i] }
/-- The header fields of a datagram from the peer to the local address. -/
abbrev hdr (ihl : BitVec 4) (tlen hcs : Word16) (d : Byte) : Ipv4Fields := ⟨ihl, 0, tlen, 0, 0, 0x40, hcs, peer, ip d⟩
/-- As `up`, under the smallest MTU: 8 payload bytes a fragment; the time input answers `t` from then on. -/
def small (t : Nat) : State := { up 0 with cfg := { cfg with mtu := 28 }, ticks := [t, 0, 0, 0, 0, 0, 0, 0] }
/-- The pending datagram of T-OUT-14. -/
abbrev held : Bytes := [0x45, 0x00, 0x00, 0x18, 0x00, 0x00, 0x00, 0x00, 0x40, 0x11, 0xf7, 0x66, 0xc0, 0xa8, 0x01, 0x0a, 0xc0, 0xa8, 0x01, 0x14, 0x61, 0x62, 0x63, 0x64]
/-- As `given`, that datagram pending for another address. -/
def holding (i : Instr) : State :=
  { given i 0 with pending := (up 0).pending.put peer held 0, cache := (up 0).cache.put (ip 30) (mac 3) 0 }

theorem up_roomy (t : Nat) : (up t).Roomy := fun _ => ⟨rfl, rfl⟩
theorem up17_roomy (t : Nat) : (up17 t).Roomy := fun _ => ⟨rfl, rfl⟩

theorem wit_DecodeInvertsEncode : (Instr.mapInit .pending 4 0 (some 8) 1 true).wellFormed = true := by decide
theorem wit_EncodeInvertsDecode : decode ⟨.bufAddHeader, [.bytes [1], .num 2]⟩ = .ok (.bufAddHeader [1] 2) := rfl
theorem wit_StepRunsDecodedOperation :
    (given .fdPoll 0).inbox = [encode .fdPoll] ∧ Instr.fdPoll.wellFormed = true ∧ (up 0).inbox = [] ∧
    (decode ⟨.fdPoll, [.num 0]⟩).toOption = none := by decide
theorem wit_ResetRunsInitialisation : start.cfg.wf = true ∧ start.phase = .awaitingReset := by decide
theorem wit_InputsRefusedOutsideTheirPhase :
    (Instr.ipRegister 6).isInput = true ∧ start.cfg.wf = true ∧ start.phase = .awaitingReset ∧
    { start with driver := [⟨[], 0, peerMac⟩] }.driver = [⟨[], 0, peerMac⟩] ∧
    (up 0).cfg.wf = true ∧ (up 0).phase = .running := by decide
theorem wit_IllFormedConfigurationIsRefused : illFormed.cfg.wf = false := by decide
theorem wit_BufferAddsFreeBytes : (up 0).cfg.wf = true := by decide
theorem wit_BufferRemovesBytes :
    (up 0).cfg.wf = true ∧ 2 ≤ ([1, 2] : Bytes).length ∧ ([1, 2] : Bytes).length < 3 := by decide
theorem wit_MapInitMakesEmptyTable : start.cfg.wf = true ∧ start.cache.ready = false ∧ start.pending.ready = false ∧
    (up 0).cfg.wf = true ∧ (up 0).cache.ready = true ∧ (up 0).pending.ready = true := by decide
theorem wit_MapGetFindsLiveEntries : (known 60).cfg.wf = true ∧ (known 60).cache.ready = true ∧
    (known 60).cache.get peer (nextTime (known 60)) = some peerMac ∧ (known 61).cache.get peer (nextTime (known 61)) = none ∧
    (waiting 101).pending.ready = true ∧ (waiting 101).pending.get peer (nextTime (waiting 101)) = some [1, 2] ∧
    (waiting 102).pending.get peer (nextTime (waiting 102)) = none := by decide
theorem wit_MapSetStoresOneKey : full.cfg.wf = true ∧ full.cache.ready = true ∧ full.cache.hasRoom (ip 30) = true ∧
    full.pending.ready = true ∧ full.pending.hasRoom (ip 30) = true ∧
    (up 0).cache.hasRoom peer = true ∧ (up 0).pending.hasRoom peer = true := by decide
theorem wit_MapRefusalsAreNamed : full.cfg.wf = true ∧ full.cache.ready = true ∧ full.cache.capacity = some 1 ∧
    full.cache.lookup peer = none ∧ 1 ≤ full.cache.store.length ∧ full.pending.ready = true ∧
    full.pending.capacity = some 1 ∧ full.pending.lookup peer = none ∧ 1 ≤ full.pending.store.length ∧
    start.cfg.wf = true ∧ start.cache.ready = false ∧ start.pending.ready = false := by decide
theorem wit_MapDeleteRemovesOneKey : (known 0).cfg.wf = true ∧ (known 0).cache.ready = true ∧
    (known 0).cache.lookup peer = some ⟨peer, peerMac, 0⟩ ∧ (known 0).cache.lookup (ip 30) = none ∧
    (waiting 100).pending.ready = true ∧ (waiting 100).pending.lookup peer = some ⟨peer, [1, 2], 100⟩ ∧
    (waiting 100).pending.lookup (ip 30) = none := by decide
theorem wit_ForEachChangesNothing :
    (up 0).cfg.wf = true ∧ tableReady .cache (up 0) = true ∧ tableReady .pending (up 0) = true := by decide
theorem wit_ChecksumComplementsTheSum : (up 0).cfg.wf = true ∧ (∀ x ∈ ([0, 0, 0] : Bytes), x = 0) ∧
    (∃ x ∈ ([0, 0, 1] : Bytes), x ≠ 0) ∧ (∃ x ∈ ([0xff, 0xff] : Bytes), x ≠ 0) := by decide
theorem wit_VerifyComparesWithZeroedField :
    (up 0).cfg.wf = true ∧ 1 + 2 ≤ ([1, 2, 3] : Bytes).length ∧ ([1, 2, 3] : Bytes).length < 2 + 2 := by decide
theorem wit_ChecksumRoundTrip : 1 + 2 ≤ ([1, 2, 3] : Bytes).length := by decide
theorem wit_SumTestIsNotVerify : 2 % 2 = 0 ∧ memWrite [0xff, 0xff, 0xff, 0xff] 2 2 0 = some [0xff, 0xff, 0, 0] ∧
    u16At [0xff, 0xff, 0xff, 0xff] 2 = 0xffff ∧ checksum [0xff, 0xff, 0, 0] = 0 := by decide
theorem wit_OneFlippedBitIsCaught : 2 % 2 = 0 ∧ 2 + 2 ≤ ([0xff, 0xff, 0, 0] : Bytes).length ∧
    3 < ([0xff, 0xff, 0, 0] : Bytes).length ∧ 7 < 8 ∧ verifyChecksum [0xff, 0xff, 0, 0] 2 = some true := by decide
theorem wit_SendRequestBroadcasts : (up 0).cfg.wf = true := by decide
theorem wit_SendReplyUnicasts : (up 0).cfg.wf = true := by decide
theorem wit_ArpInitMakesTablesAndProbes : start.cfg.wf = true ∧ start.cache.ready = false ∧
    start.pending.ready = false ∧ (up 0).cfg.wf = true ∧ (up 0).cache.ready = true := by decide
theorem wit_ResolveAndSendByCases :
    (known 60).TablesReady ∧ (waiting 101).TablesReady ∧ (waiting 102).TablesReady ∧
    (known 60).cache.get peer (nextTime (known 60)) = some peerMac ∧
    (waiting 101).cache.get peer (nextTime (waiting 101)) = none ∧
    (waiting 101).pending.get peer (nextTime (tick (waiting 101))) = some [1, 2] ∧
    (waiting 102).cache.get peer (nextTime (waiting 102)) = none ∧
    (waiting 102).pending.get peer (nextTime (tick (waiting 102))) = none ∧
    (waiting 102).pending.hasRoom peer = true := by unfold State.TablesReady; decide
theorem wit_OnPacketReleasesPending : (waiting 101).TablesReady ∧
    (waiting 101).cache.hasRoom peer = true ∧
    (waiting 101).pending.get peer (nextTime (tick (waiting 101))) = some [1, 2] := by unfold State.TablesReady; decide
theorem wit_OnPacketLearnsAndAnswers : (waiting 102).TablesReady ∧ full.TablesReady ∧
    (waiting 102).cache.hasRoom peer = true ∧
    (waiting 102).pending.get peer (nextTime (tick (waiting 102))) = none ∧
    full.cache.hasRoom (ip 30) = true ∧ full.pending.get (ip 31) (nextTime (tick full)) = none := by unfold State.TablesReady; decide
theorem wit_InvalidArpPacketIsDiscarded : (up 0).cfg.wf = true ∧
    (Instr.arpOnPacket (List.replicate 27 0) peerMac).wellFormed = true ∧
    (Instr.arpOnPacket (List.replicate 28 0) peerMac).wellFormed = true := by decide
theorem wit_DeliveryRunsTheSelectedRow : (up 0).Roomy ∧ (up 0).cfg.wf = true ∧ (up 0).phase = .running ∧
    0x0806 = (up 0).cfg.protoArp ∧ (0x0806 : Proto16) ∈ (up 0).fdRegistered ∧
    0x0800 = (up 0).cfg.protoIp ∧ 0x0800 ≠ (up 0).cfg.protoArp ∧ (0x0800 : Proto16) ∈ (up 0).fdRegistered ∧
    0x86dd ≠ (up 0).cfg.protoArp ∧ 0x86dd ≠ (up 0).cfg.protoIp ∧
    (0x0806 : Proto16) ∉ { up 0 with fdRegistered := [] }.fdRegistered ∧
    (up 0).cache.ready = true ∧ (up 0).pending.ready = true :=
  ⟨up_roomy 0, by decide⟩
theorem wit_PollDeliversOneFrame : (up 0).cfg.wf = true ∧ (up 0).driver = [] ∧
    { up 0 with driver := [⟨[], 0x0806, peerMac⟩] }.driver = [⟨[], 0x0806, peerMac⟩] ∧
    { up 0 with driver := [⟨[], 0x0806, peerMac⟩] }.Operational ∧
    { up 0 with driver := [⟨[], 0x0806, peerMac⟩] }.Roomy :=
  ⟨by decide, rfl, rfl, ⟨⟨by decide, rfl, rfl⟩, rfl⟩, fun _ => ⟨rfl, rfl⟩⟩
theorem wit_OutputPortsEmit : (up 0).cfg.wf = true := by decide
theorem wit_FrameRegistrationAddsOneNumber : (up 0).cfg.wf = true := by decide
theorem wit_ProtocolRegistrationAddsOneNumber : (up 0).cfg.wf = true ∧ (up 0).phase = .running := by decide
theorem wit_UnselectedDatagramIsDiscarded : (up 0).cfg.wf = true ∧
    (Instr.ipOnDatagram (List.replicate 19 0x45) peerMac).wellFormed = true ∧
    (Instr.ipOnDatagram (List.replicate 20 0x65) peerMac).wellFormed = true := by decide
theorem wit_FirstFailingCheckDecides : (up 0).cfg.wf = true ∧
    inHdrLen .ihl (datagramRowBytes 6 (hdr 6 24 0 10) [0, 0, 0]) = none ∧
    inHdrLen .fixed20 (datagramRowBytes 1 (hdr 5 20 0xf779 10) []) = some 20 ∧
    verifyChecksum (slice (datagramRowBytes 1 (hdr 5 20 0xf779 10) []) 0 20) 10 = some false ∧
    verifyChecksum (slice (datagramRowBytes 17 (hdr 5 20 0xf769 11) []) 0 20) 10 = some true ∧
    (hdr 5 20 0xf769 11).dst ≠ (up 0).cfg.localIp ∧
    verifyChecksum (slice (datagramRowBytes 17 (hdr 5 19 0xf76b 10) []) 0 20) 10 = some true ∧
    (hdr 5 19 0xf76b 10).dst = (up 0).cfg.localIp ∧ (hdr 5 19 0xf76b 10).tlen.toNat < 20 := by decide
/-- The empty datagram of protocol 17, its total length exactly the header's (T-IN-1). -/
theorem wit_AcceptedDatagramIsDelivered :
    Accepts (up17 0).cfg (datagramRowBytes 17 (hdr 5 20 0xf76a 10) []) 20 ∧ 17 ∈ (up17 0).registered ∧
    (17 : Proto8) ≠ ipProtoIcmp ∧ (up17 0).cfg.wf = true :=
  ⟨⟨by decide, by decide, by decide, by decide, by decide, by decide⟩, by decide, by decide, by decide⟩
theorem wit_AcceptedIcmpReachesTheEngine : (up 0).TablesReady ∧ (up 0).Roomy ∧
    Accepts (up 0).cfg (datagramRowBytes ipProtoIcmp (hdr 5 20 0xf77a 10) []) 20 ∧ ipProtoIcmp ∈ (up 0).registered :=
  ⟨⟨by decide, rfl, rfl⟩, up_roomy 0, ⟨by decide, by decide, by decide, by decide, by decide, by decide⟩, by decide⟩
/-- Protocol 6, and with nothing registered the protocols 1 and 17. -/
theorem wit_UnregisteredProtocolIsAnswered : (up17 0).TablesReady ∧ (up17 0).Roomy ∧
    Accepts (up17 0).cfg (datagramRowBytes 6 (hdr 5 20 0xf775 10) []) 20 ∧ 6 ∉ (up17 0).registered ∧
    Accepts start.cfg (datagramRowBytes ipProtoIcmp (hdr 5 20 0xf77a 10) []) 20 ∧
    Accepts start.cfg (datagramRowBytes ipProtoOther (hdr 5 20 0xf76a 10) []) 20 ∧
    { up 0 with registered := [] }.TablesReady ∧ ipProtoIcmp ∉ { up 0 with registered := [] }.registered ∧
    ipProtoOther ∉ { up 0 with registered := [] }.registered ∧ { up 0 with registered := [] }.Roomy :=
  ⟨⟨by decide, rfl, rfl⟩, up17_roomy 0, ⟨by decide, by decide, by decide, by decide, by decide, by decide⟩, by decide,
    ⟨by decide, by decide, by decide, by decide, by decide, by decide⟩,
    ⟨by decide, by decide, by decide, by decide, by decide, by decide⟩,
    ⟨by decide, rfl, rfl⟩, by decide, by decide, fun _ => ⟨rfl, rfl⟩⟩
theorem wit_FragmentPlanLaw : (fragPlan 9 8).length = 2 ∧ (fragPlan 9 8)[0]? = some ⟨0, 8, true⟩ ∧
    (fragPlan 9 8)[1]? = some ⟨8, 1, false⟩ ∧ (fragPlan 0 8)[0]? = some ⟨0, 0, false⟩ := by decide
theorem wit_FragmentsCoverTheBuffer : 0 < cfg.maxPayload := by decide
theorem wit_EncapsulationBuildsTheHeader : (up 0).cfg.wf = true ∧ (up 0).TablesReady ∧
    ipHdrLen + (List.replicate 65515 (0 : Byte)).length < 65536 ∧ flagsOffset .bit13 true 65512 < 65536 ∧
    (up 0).pending.hasRoom peer = true ∧ 65536 ≤ ipHdrLen + (List.replicate 65516 (0 : Byte)).length ∧
    65536 ≤ flagsOffset .bit15 true 262144 := by
  unfold State.TablesReady; simp only [List.length_replicate]; decide
theorem wit_SendTakesOneIdentifier : (up 0).TablesReady ∧ (up 0).pending.hasRoom peer = true ∧ (up 0).phase = .running ∧
    (List.replicate 65515 (0 : Byte)).length ≤ 65515 := by
  unfold State.TablesReady; simp only [List.length_replicate]; decide
theorem wit_UnspecifiedCallsAreRefused : (up 0).cfg.wf = true ∧ (up 0).phase = .running ∧
    65515 < (List.replicate 65516 (0 : Byte)).length ∧ (List.replicate 19 (0x45 : Byte)).length < ipHdrLen ∧
    inHdrLen .ihl (List.replicate 20 0x44) = none := by
  simp only [List.length_replicate]; decide
/-- Two fragments, the second sent at the mapping's last live second. -/
theorem wit_SendTransmitsEveryFragment :
    { small 60 with cache := (up 0).cache.put peer peerMac 0 }.TablesReady ∧
    (List.replicate 9 (0 : Byte)).length ≤ 65515 ∧ ((up 0).cache.put peer peerMac 0).lookup peer = some ⟨peer, peerMac, 0⟩ ∧
    clockAfterHits (fragPlan (List.replicate 9 (0 : Byte)).length (small 60).cfg.maxPayload).length
      { small 60 with cache := (up 0).cache.put peer peerMac 0 } - 0 ≤ (up 0).cache.horizon := by
  unfold State.TablesReady; decide
/-- Two fragments, all at one second: the second is dropped. -/
theorem wit_UnresolvedSendKeepsFirstFragment : (small 0).TablesReady ∧ (small 0).pending.hasRoom peer = true ∧
    (List.replicate 9 (0 : Byte)).length ≤ 65515 ∧
    (small 0).cache.get peer (nextTime (draw ipHdrLen (small 0))) = none ∧
    (small 0).pending.get peer (nextTime (tick (draw ipHdrLen (small 0)))) = none ∧
    (nextOf (exec (.ipSendCall (List.replicate 9 0) peer 17) (small 0))).map (fun t =>
      (decide (t.clock - nextTime (tick (tick (draw ipHdrLen (small 0)))) ≤ (small 0).pending.horizon), t.causes)) =
      some (true, [.arpResolutionInFlight]) := by unfold State.TablesReady; decide
theorem wit_EchoRequestIsAnswered : (up 0).TablesReady ∧ (up 0).pending.hasRoom peer = true ∧
    icmpHdrLen + (List.replicate 65507 (0 : Byte)).length ≤ 65515 := by
  unfold State.TablesReady; simp only [List.length_replicate]; decide
theorem wit_OtherIcmpIsIgnored : (up 0).cfg.wf = true ∧
    (Instr.icmpOnMessage [8, 0, 0, 0, 0, 0, 0] peer).wellFormed = true ∧
    (Instr.icmpOnMessage [0, 0, 0, 0, 0, 0, 0, 0] peer).wellFormed = true := by decide
theorem wit_UnreachableQuotesTheHeader : (up 0).TablesReady ∧ (up 0).pending.hasRoom peer = true ∧ (up 0).phase = .running ∧
    ipHdrLen ≤ (List.replicate 20 (0x45 : Byte)).length ∧
    inHdrLen (up 0).cfg.ihlPolicy (List.replicate 20 0x45) = some 20 := by unfold State.TablesReady; decide
/-- A reply that fills the MTU of 36 bytes, at the mapping's last live second. -/
theorem wit_EndToEndEcho :
    let s : State := { known 60 with cfg := { cfg with mtu := 36 } }
    s.Operational ∧ s.cfg.protoIp = 0x0800 ∧ s.cfg.protoArp ≠ s.cfg.protoIp ∧ s.cfg.protoIp ∈ s.fdRegistered ∧
    ipProtoIcmp ∈ s.registered ∧ (hdr 5 36 0xf76a 10).ihl = 5 ∧ (hdr 5 36 0xf76a 10).dst = s.cfg.localIp ∧
    (hdr 5 36 0xf76a 10).tlen.toNat = 28 + (List.replicate 8 (0 : Byte)).length ∧
    28 + (List.replicate 8 (0 : Byte)).length ≤ s.cfg.mtu ∧
    verifyChecksum (datagramRowBytes ipProtoIcmp (hdr 5 36 0xf76a 10) []) 10 = some true ∧
    s.cache.lookup peer = some ⟨peer, peerMac, 0⟩ ∧ nextTime (draw ipHdrLen s) - 0 ≤ s.cache.horizon := by
  unfold State.Operational State.TablesReady; decide
/-- The same under another `PROTO_IP`. -/
theorem wit_EndToEndEcho_other :
    let s : State := { known 60 with cfg := { cfg with mtu := 36, protoIp := 0x88b5 }, fdRegistered := [0x0806, 0x88b5] }
    s.Operational ∧ s.cfg.protoArp ≠ s.cfg.protoIp ∧ s.cfg.protoIp ∈ s.fdRegistered ∧
    ipProtoIcmp ∈ s.registered ∧ (hdr 5 36 0xf76a 10).ihl = 5 ∧ (hdr 5 36 0xf76a 10).dst = s.cfg.localIp ∧
    (hdr 5 36 0xf76a 10).tlen.toNat = 28 + (List.replicate 8 (0 : Byte)).length ∧
    28 + (List.replicate 8 (0 : Byte)).length ≤ s.cfg.mtu ∧
    verifyChecksum (datagramRowBytes ipProtoIcmp (hdr 5 36 0xf76a 10) []) 10 = some true ∧
    s.cache.lookup peer = some ⟨peer, peerMac, 0⟩ ∧ nextTime (draw ipHdrLen s) - 0 ≤ s.cache.horizon := by
  unfold State.Operational State.TablesReady; decide
theorem wit_ConfigurationIsReadOnly : (nextOf (exec (.ipRegister 6) (up 0))).isSome = true ∧
    Instr.ipRegister 6 ≠ .reset := by decide
theorem wit_IdentifierNeverDecreases : (nextOf (exec (.ipSend [1] peer 17) (known 0))).map (·.idctr) = some 1 := by decide
theorem wit_HandlersAreNeverRemoved : (nextOf (exec .ipInit (up 0))).isSome = true ∧ Instr.ipInit ≠ .reset := by decide
theorem wit_TimeAndOutputsOnlyGrow : (nextOf (exec (.mapGet .cache peer) (up 5))).map (·.clock) = some 5 := by decide
theorem wit_OnlyArpTeachesTheCache : (nextOf (exec (.ipRegister 6) (up 0))).isSome = true ∧
    (up 0).cfg.protoArp ≠ 0x0800 ∧ (nextOf (exec (.fdDeliverIp [] peerMac) (up 0))).isSome = true := by decide
theorem wit_StepKeepsCanonicalForm : (holding (.ipSend [1] peer 17)).Canonical ∧
    (nextOf (step (holding (.ipSend [1] peer 17)))).isSome = true :=
  ⟨⟨by decide, by decide, by decide, by decide, by decide⟩, by decide⟩
theorem wit_StepKeepsResolvedAndPendingApart : (given (.ipSend [1] peer 17) 0).InputsOnly ∧
    (given (.ipSend [1] peer 17) 0).Exclusive ∧ (nextOf (step (given (.ipSend [1] peer 17) 0))).isSome = true :=
  ⟨by unfold State.InputsOnly; decide, fun _ _ _ => .inr rfl, by decide⟩
theorem wit_StepKeepsPendingDatagramsWellFormed : (holding (.ipSend [1] (ip 30) 17)).InputsOnly ∧
    (holding (.ipSend [1] (ip 30) 17)).PendingWellFormed ∧ (nextOf (step (holding (.ipSend [1] (ip 30) 17)))).isSome = true :=
  ⟨by unfold State.InputsOnly; decide, by unfold State.PendingWellFormed DatagramTo; decide, by decide⟩
theorem wit_StepKeepsWhatResetSetUp : (given (.ipRegister 6) 0).InputsOnly ∧ (given (.ipRegister 6) 0).SetUp ∧
    (given (.ipRegister 6) 0).phase = .running ∧ (nextOf (step (given (.ipRegister 6) 0))).isSome = true := by
  refine ⟨by unfold State.InputsOnly; decide, fun _ => ⟨rfl, rfl, rfl, rfl, rfl, rfl, by decide, fun p => ?_⟩, by decide, by decide⟩
  show p ∈ [0x0800, 0x0806] ↔ p = 0x0806 ∨ p = 0x0800
  simp [or_comm]

end Sys2Proof.Tests
end

section
/-! The refusal of an ill-formed configuration (00_scope.md R8): every operation is behind one of the two
guards, and both guards refuse it. -/

namespace Sys2Proof.Machine

theorem whenConfigured_illFormed {s : State} (h : s.cfg.wf = false) (k : State → Run) :
    whenConfigured s k = .refused .illFormedConfig := by
  simp [whenConfigured, h]

/-- The configuration is checked before the phase, so it is not `beforeReset` that answers. -/
theorem atPort_illFormed {s : State} (h : s.cfg.wf = false) (k : State → Run) :
    atPort s k = .refused .illFormedConfig :=
  whenConfigured_illFormed h _

/-- Settles O8, by the guard of each operation: the input ports other than RESET and FD.POLL are behind
`atPort`, everything else is behind `whenConfigured`. -/
theorem illFormedConfigurationIsRefused : Obligations.IllFormedConfigurationIsRefused := by
  intro i s h
  cases i with
  | fdDeliver | fdDeliverArp | fdDeliverIp | ipSend | icmpSendUnreachable | ipRegister =>
    apply atPort_illFormed h
  | _ => apply whenConfigured_illFormed h

end Sys2Proof.Machine
end

section
/-! The whole-machine rules of the state (10_state.md R21, R24, R32, R33): what every operation leaves alone, and the
canonical form of the state. Each is a property that the updates keep (`FullyClosed`), carried through every operation. -/

namespace Sys2Proof.Machine

variable {P : State → Prop} {s t : State}

/-! ### Properties of what no update writes -/

/-- RESET included, every operation keeps a property that the updates, the clearing and the end of the phase before
reset keep. -/
theorem FullyClosed.exec_all (c : FullyClosed P) (i : Instr) (h : P s) (hi : P { s with idctr := s.idctr + 1 })
    (cleared : P (clearState s)) (run : ∀ u, P u → P { u with phase := .running }) : Holds P (Machine.exec i s) := by
  by_cases hr : i = .reset
  · subst hr
    exact c.reset cleared run
  · exact c.exec hr h hi

/-- The updates of `FullyClosed` write neither the configuration nor the phase, `IDCTR` or the presented transactions. -/
theorem fullyClosed_unwritten (Q : Config → Phase → Nat → List Transaction → Prop) :
    FullyClosed fun u => Q u.cfg u.phase u.idctr u.inbox where
  tick _ h := h
  draw _ _ h := h
  emit _ _ h := h
  dispose _ _ h := h
  putPending _ _ _ h := h
  putCache _ _ _ h := h
  dropCache _ _ h := h
  dropPending _ _ h := h
  giveBack _ _ h := h
  makeCache _ _ _ h := h
  makePending _ _ _ h := h
  registerProtocol _ _ h := h
  fdRegister _ _ h := h
  takeFrame _ _ h := h

theorem exec_cfg {i : Instr} (h : exec i s = .next t) : t.cfg = s.cfg :=
  (fullyClosed_unwritten fun c _ _ _ => c = s.cfg).exec_all i rfl rfl rfl (fun _ hu => hu) t h

theorem exec_phase {i : Instr} (hr : i ≠ .reset) (h : exec i s = .next t) : t.phase = s.phase :=
  (fullyClosed_unwritten fun _ p _ _ => p = s.phase).exec hr rfl rfl t h

/-- An operation takes no transaction; the step that runs it has taken the one that carries it. -/
theorem exec_inbox {i : Instr} (h : exec i s = .next t) : t.inbox = s.inbox :=
  (fullyClosed_unwritten fun _ _ _ b => b = s.inbox).exec_all i rfl rfl rfl (fun _ hu => hu) t h

/-- Settles O51: no update writes the configuration or the phase, and the end of RESET writes the phase only. -/
theorem configurationIsReadOnly : Obligations.ConfigurationIsReadOnly :=
  fun _ _ _ h => ⟨exec_cfg h, fun hr => exec_phase hr h⟩

/-- Settles O52: no update writes `IDCTR`, and IP.SEND draws one identifier at most once in an operation. -/
theorem identifierNeverDecreases : Obligations.IdentifierNeverDecreases := by
  intro i s t hr h
  exact (fullyClosed_unwritten fun _ _ n _ => n = s.idctr ∨ n = s.idctr + 1).exec hr (.inl rfl) (.inr rfl) t h

/-! ### The handler sets -/

theorem mem_insertNum {w : Nat} {v x : BitVec w} {l : List (BitVec w)} : x ∈ insertNum v l ↔ x = v ∨ x ∈ l := by
  induction l with
  | nil => simp [insertNum]
  | cons y ys ih =>
    simp only [insertNum]
    split
    · simp
    · split
      · next heq => simp [heq]
      · simp [ih, or_left_comm]

/-- The handler sets hold at least the members `r` and `f`. -/
def State.HandlersInclude (r : List Proto8) (f : List Proto16) (s : State) : Prop :=
  (∀ p ∈ r, p ∈ s.registered) ∧ ∀ p ∈ f, p ∈ s.fdRegistered

theorem handlersInclude_fullyClosed (r : List Proto8) (f : List Proto16) :
    FullyClosed (State.HandlersInclude r f) where
  tick _ h := h
  draw _ _ h := h
  emit _ _ h := h
  dispose _ _ h := h
  putPending _ _ _ h := h
  putCache _ _ _ h := h
  dropCache _ _ h := h
  dropPending _ _ h := h
  giveBack _ _ h := h
  makeCache _ _ _ h := h
  makePending _ _ _ h := h
  registerProtocol _ _ h := ⟨fun p hp => mem_insertNum.2 (.inr (h.1 p hp)), h.2⟩
  fdRegister _ _ h := ⟨h.1, fun p hp => mem_insertNum.2 (.inr (h.2 p hp))⟩
  takeFrame _ _ h := h

/-- Settles O53: the two registrations only add to the sets, and no other update writes them. -/
theorem handlersAreNeverRemoved : Obligations.HandlersAreNeverRemoved := by
  intro i s t hr h
  have start : s.HandlersInclude s.registered s.fdRegistered := ⟨fun _ hp => hp, fun _ hp => hp⟩
  exact (handlersInclude_fullyClosed _ _).exec hr start start t h

/-! ### The canonical form -/

/-- A handler set in canonical form, said of every pair of members. -/
theorem numsRising_iff {w : Nat} (l : List (BitVec w)) :
    numsRising l = true ↔ l.Pairwise fun x y => x.toNat < y.toNat := by
  induction l using numsRising.induct with
  | case1 => simp [numsRising]
  | case2 x => simp [numsRising]
  | case3 x y rest ih =>
    simp only [numsRising, Bool.and_eq_true, decide_eq_true_eq, ih, List.pairwise_cons (a := x), List.forall_mem_cons]
    constructor
    · rintro ⟨hxy, hrest⟩
      exact ⟨⟨hxy, fun z hz => Nat.lt_trans hxy ((List.pairwise_cons.1 hrest).1 z hz)⟩, hrest⟩
    · rintro ⟨⟨hxy, -⟩, hrest⟩
      exact ⟨hxy, hrest⟩

theorem pairwise_insertNum {w : Nat} (v : BitVec w) {l : List (BitVec w)}
    (h : l.Pairwise fun x y => x.toNat < y.toNat) : (insertNum v l).Pairwise fun x y => x.toNat < y.toNat := by
  induction l with
  | nil => simp [insertNum]
  | cons x xs ih =>
    obtain ⟨hx, hxs⟩ := List.pairwise_cons.1 h
    simp only [insertNum]
    split
    · next hlt => exact List.pairwise_cons.2 ⟨List.forall_mem_cons.2 ⟨hlt, fun z hz => Nat.lt_trans hlt (hx z hz)⟩, h⟩
    · next hnlt =>
      split
      · exact h
      · next hne =>
        refine List.pairwise_cons.2 ⟨fun z hz => ?_, ih hxs⟩
        rcases mem_insertNum.1 hz with rfl | hz
        · have : x.toNat ≠ z.toNat := fun he => hne (BitVec.eq_of_toNat_eq he.symm)
          omega
        · exact hx z hz

theorem numsRising_insertNum {w : Nat} (v : BitVec w) {l : List (BitVec w)} (h : numsRising l = true) :
    numsRising (insertNum v l) = true :=
  (numsRising_iff _).2 (pairwise_insertNum v ((numsRising_iff _).1 h))

/-- Timestamps in the past stay there when the time input is read and an entry is stamped with its answer. -/
theorem ts_le_put {V : Type} {tb : Table V} {k : Ip} {v : V} (h : ∀ e ∈ tb.store, e.ts ≤ s.clock) :
    ∀ e ∈ (tb.put k v (nextTime s)).store, e.ts ≤ nextTime s := by
  intro e he
  rcases mem_put he with rfl | he
  · exact Nat.le_refl _
  · exact Nat.le_trans (h e he) (clock_le_nextTime s)

theorem ts_le_nextTime {V : Type} {tb : Table V} (h : ∀ e ∈ tb.store, e.ts ≤ s.clock) :
    ∀ e ∈ tb.store, e.ts ≤ nextTime s :=
  fun e he => Nat.le_trans (h e he) (clock_le_nextTime s)

theorem canonical_fullyClosed : FullyClosed State.Canonical where
  tick _ h := { h with cacheTimes := ts_le_nextTime h.cacheTimes, pendingTimes := ts_le_nextTime h.pendingTimes }
  draw _ _ h := { h with }
  emit _ _ h := { h with }
  dispose _ _ h := { h with }
  putPending k v _ h :=
    { h with
      memory := memory_wf_putPending h.memory k v
      cacheTimes := ts_le_nextTime h.cacheTimes
      pendingTimes := ts_le_put h.pendingTimes }
  putCache k v _ h :=
    { h with
      memory := memory_wf_putCache h.memory k v
      cacheTimes := ts_le_put h.cacheTimes
      pendingTimes := ts_le_nextTime h.pendingTimes }
  dropCache k _ h :=
    { h with memory := memory_wf_dropCache h.memory k, cacheTimes := fun e he => h.cacheTimes e (mem_erase he) }
  dropPending k _ h :=
    { h with memory := memory_wf_dropPending h.memory k, pendingTimes := fun e he => h.pendingTimes e (mem_erase he) }
  giveBack _ _ h := { h with }
  makeCache c e _ h := { h with memory := memory_wf_cacheInit h.memory c e, cacheTimes := by simp }
  makePending c e _ h := { h with memory := memory_wf_pendingInit h.memory c e, pendingTimes := by simp }
  registerProtocol p _ h := { h with registered := numsRising_insertNum p h.registered }
  fdRegister p _ h := { h with fdRegistered := numsRising_insertNum p h.fdRegistered }
  takeFrame _ _ h := { h with }

theorem canonical_clearState (s : State) : (clearState s).Canonical :=
  ⟨memory_wf_clearState s, rfl, rfl, by simp, by simp⟩

theorem State.Canonical.exec {i : Instr} (h : s.Canonical) (hx : exec i s = .next t) : t.Canonical :=
  canonical_fullyClosed.exec_all i h { h with } (canonical_clearState s) (fun _ hu => { hu with }) t hx

theorem State.Canonical.taking (h : s.Canonical) (rest : List Transaction) : (s.taking rest).Canonical := { h with }

/-- Settles O57: the canonical form is kept by taking a transaction and by the operation that it carries. -/
theorem stepKeepsCanonicalForm : Obligations.StepKeepsCanonicalForm := by
  intro s t h hst
  rcases step_next hst with ⟨-, rfl⟩ | ⟨_, rest, i, -, -, hx⟩
  · exact h
  · exact (h.taking rest).exec hx

/-! ### The state at reset -/

/-- Settles O5: `State.reset` holds empty tables and handler sets, and `IDCTR` is its configuration's `ID_INIT`. -/
theorem resetStateIsEmpty : Obligations.ResetStateIsEmpty := by
  refine ⟨?idctr, fun k => ⟨absent_lookup k, absent_lookup k⟩, ?registered, ?fdRegistered⟩ <;> rfl

/-- Settles O56: every invariant holds of empty tables, sets and inbox, and the block does not yet run. -/
theorem resetMeetsTheInvariants : Obligations.ResetMeetsTheInvariants := by
  have canonical : State.reset.Canonical := ⟨memory_wf_reset, rfl, rfl, by simp [State.reset], by simp [State.reset]⟩
  have exclusive : State.reset.Exclusive := fun k now _ => .inl (by simp [State.reset, get_eq])
  have pending : State.reset.PendingWellFormed := by simp [State.PendingWellFormed, State.reset]
  have setUp : State.reset.SetUp := by simp [State.SetUp, State.reset]
  have inputs : State.reset.InputsOnly := by simp [State.InputsOnly, State.reset]
  exact ⟨canonical, exclusive, pending, setUp, inputs⟩

end Sys2Proof.Machine
end

section
/-! The decoder as the step uses it (30_encoding.md R86, R102): it reads back the transaction of a well-formed operation,
and it decodes a transaction to an operation of the transaction's own port or call. -/

namespace Sys2Proof

/-! ### The general row, where no packet pattern selects a more special one -/

theorem deliverRow_general {p : Proto16} (h : p ≠ 0x0806 ∧ p ≠ 0x0800) (payload : Bytes) (src : Mac) :
    deliverRow payload p src = .fdDeliver payload p src := by
  rw [deliverRow, if_neg h.1, if_neg h.2]

theorem arpRow_general {packet : Bytes} (h : selectsArpRow packet = false) (src : Mac) :
    arpRow packet src = .arpOnPacket packet src := by
  simp only [selectsArpRow, Bool.and_eq_false_iff, Bool.or_eq_false_iff, decide_eq_false_iff_not, beq_eq_false_iff_ne] at h
  have notRequest : ¬ (arpLen ≤ packet.length ∧ (ArpPacket.read packet).constantsOk = true ∧
      (ArpPacket.read packet).oper = arpOpRequest) := by rintro ⟨hl, hc, ho⟩; simp_all
  have notReply : ¬ (arpLen ≤ packet.length ∧ (ArpPacket.read packet).constantsOk = true ∧
      (ArpPacket.read packet).oper = arpOpReply) := by rintro ⟨hl, hc, ho⟩; simp_all
  simp only [arpRow, if_neg notRequest, if_neg notReply]

theorem datagramRow_general {b : Bytes} (h : selectsDatagramRow b = false) (src : Mac) :
    datagramRow b src = .ipOnDatagram b src := by
  have notV4 : ¬ (ipHdrLen ≤ b.length ∧ (Ipv4Header.read b).ver = 4) := by
    simpa [selectsDatagramRow] using h
  simp only [datagramRow, if_neg notV4]

theorem messageRow_general {m : Bytes} (h : selectsMessageRow m = false) (src : Ip) :
    messageRow m src = .icmpOnMessage m src := by
  have notEcho : ¬ (icmpHdrLen ≤ m.length ∧ byteAt m 0 = icmpEchoRequest) := by
    simpa [selectsMessageRow] using h
  rw [messageRow, if_neg notEcho]

/-! ### Transactions that a packet's row is carried by -/

theorem decode_fdDeliver_fields (payload : Bytes) (p : Proto16) (src : Mac) :
    decode ⟨.fdDeliver, [.bytes payload, .num p.toNat, macField src]⟩ = .ok (deliverRow payload p src) := by
  simp only [decode, macField, numOf_toNat]
  rfl

theorem decode_arpOnPacket_fields (packet : Bytes) (src : Mac) :
    decode ⟨.arpOnPacket, [.bytes packet, macField src]⟩ = .ok (arpRow packet src) := rfl

theorem decode_ipOnDatagram_fields (b : Bytes) (src : Mac) :
    decode ⟨.ipOnDatagram, [.bytes b, macField src]⟩ = .ok (datagramRow b src) := rfl

theorem decode_icmpOnMessage_fields (m : Bytes) (src : Ip) :
    decode ⟨.icmpOnMessage, [.bytes m, ipField src]⟩ = .ok (messageRow m src) := rfl

/-- Decoding gives a well-formed operation back from its transaction. -/
theorem decode_encode {i : Instr} (h : i.wellFormed = true) : decode (encode i) = .ok i := by
  cases i with
  | fdDeliver payload p src =>
    have hp : p ≠ 0x0806 ∧ p ≠ 0x0800 := by simpa [Instr.wellFormed] using h
    rw [encode, numField, decode_fdDeliver_fields, deliverRow_general hp]
  | fdDeliverArp payload src => exact decode_fdDeliver_fields payload 0x0806 src
  | fdDeliverIp payload src => exact decode_fdDeliver_fields payload 0x0800 src
  | mapInit t _ _ c => cases t <;> cases c <;> rfl
  | mapGet t => cases t <;> rfl
  | mapSet _ v => cases v <;> rfl
  | mapDelete t => cases t <;> rfl
  | mapForEach t v => cases t <;> cases v <;> rfl
  | arpOnPacket packet src =>
    rw [encode, decode_arpOnPacket_fields, arpRow_general (by simpa [Instr.wellFormed] using h)]
  | arpOnPacketRequest => rw [encode, decode_arpOnPacket_fields, arpRow_request]
  | arpOnPacketReply => rw [encode, decode_arpOnPacket_fields, arpRow_reply]
  | ipOnDatagram b src =>
    rw [encode, decode_ipOnDatagram_fields, datagramRow_general (by simpa [Instr.wellFormed] using h)]
  | ipOnDatagramV4 p =>
    have hp : p ≠ ipProtoIcmp ∧ p ≠ ipProtoOther := by simpa [Instr.wellFormed] using h
    rw [encode, decode_ipOnDatagram_fields, datagramRow_bytes, if_neg hp.1, if_neg hp.2]
  | ipOnDatagramProtoIcmp => rw [encode, decode_ipOnDatagram_fields, datagramRow_bytes, if_pos rfl]
  | ipOnDatagramProtoOther =>
    rw [encode, decode_ipOnDatagram_fields, datagramRow_bytes, if_neg (by decide), if_pos rfl]
  | icmpOnMessage m src =>
    rw [encode, decode_icmpOnMessage_fields, messageRow_general (by simpa [Instr.wellFormed] using h)]
  | icmpOnMessageEchoRequest => rw [encode, decode_icmpOnMessage_fields, messageRow_echo]
  | ipSend | icmpSendUnreachable | ipRegister | fdTransmit | fdRegister | upDeliver | ipSendCall
  | ipEncapsulateAndResolve | icmpSendUnreachableCall =>
    simp only [encode, decode, numField, macField, ipField, numOf_toNat]
    rfl
  | _ => rfl

/-! ### The port or call that an operation arrives on -/

/-- The operation that `r` decodes to, if any, is one of the port or call `sel`. -/
def DecodesTo (sel : Selector) (r : Except Reject Instr) : Prop := ∀ i, r = .ok i → (encode i).sel = sel

theorem decodesTo_ok {sel : Selector} {i : Instr} (h : (encode i).sel = sel) : DecodesTo sel (.ok i) := by
  rintro _ ⟨⟩
  exact h

theorem decodesTo_bind {α : Type} {sel : Selector} {x : Except Reject α} {k : α → Except Reject Instr}
    (h : ∀ a, DecodesTo sel (k a)) : DecodesTo sel (x >>= k) := by
  cases x with
  | error _ => rintro _ ⟨⟩
  | ok a => exact h a

theorem deliverRow_sel (payload : Bytes) (p : Proto16) (src : Mac) : (encode (deliverRow payload p src)).sel = .fdDeliver := by
  unfold deliverRow
  split
  · rfl
  · split <;> rfl

theorem arpRow_sel (packet : Bytes) (src : Mac) : (encode (arpRow packet src)).sel = .arpOnPacket := by
  unfold arpRow
  dsimp only
  split
  · rfl
  · split <;> rfl

theorem datagramRow_sel (b : Bytes) (src : Mac) : (encode (datagramRow b src)).sel = .ipOnDatagram := by
  unfold datagramRow
  dsimp only
  split
  · split
    · rfl
    · split <;> rfl
  · rfl

theorem messageRow_sel (m : Bytes) (src : Ip) : (encode (messageRow m src)).sel = .icmpOnMessage := by
  unfold messageRow
  split <;> rfl

/-- Each row of the decoder is one of its own port or call; on four of them (`case`) the packet selects the row. -/
theorem decodesTo_sel (t : Transaction) : DecodesTo t.sel (decode t) := by
  unfold decode
  split
  case h_34 => rintro _ ⟨⟩
  all_goals
    rename_i hsel _
    rw [hsel]
    repeat refine decodesTo_bind fun _ => ?_
    apply decodesTo_ok
  case h_2 => exact deliverRow_sel _ _ _
  case h_25 => exact arpRow_sel _ _
  case h_27 => exact datagramRow_sel _ _
  case h_32 => exact messageRow_sel _ _
  all_goals rfl

theorem isInput_of_decode {t : Transaction} {i : Instr} (h : decode t = .ok i) : i.isInput = t.sel.isInput := by
  rw [Instr.isInput, decodesTo_sel t i h]

end Sys2Proof

namespace Sys2Proof.Machine

/-- Settles O4: the head of `inbox` is decoded, and what it decodes to is the operation that it encodes. -/
theorem stepRunsDecodedOperation : Obligations.StepRunsDecodedOperation := by
  refine ⟨fun s i rest hi hs => ?head, fun s hs => ?idle, fun s t rest why hs ht => ?malformed⟩
  case head => simp [step, hs, decode_encode hi, State.taking]
  case idle => simp [step, hs]
  case malformed => simp [step, hs, ht]

end Sys2Proof.Machine
end

section
/-! Pending datagrams stay well-formed (10_state.md R33(a)). An environment's input reaches the tables by two doors only,
ARP.RESOLVE_AND_SEND of a datagram that IP.ENCAPSULATE_AND_RESOLVE has made and ARP.ON_PACKET; `InputClosed` says so for
any property, and the invariant is one use of it. -/

namespace Sys2Proof.Machine

/-! ### What IP.ENCAPSULATE_AND_RESOLVE makes of a fragment -/

theorem length_slice {b : Bytes} {i n : Nat} (h : i + n ≤ b.length) : (slice b i (i + n)).length = n := by
  simp only [slice, List.length_take, List.length_drop]
  omega

/-- A header written in front of a chunk that fits one frame makes a well-formed datagram (46_ip_outbound.md R214). -/
theorem fillHeader_datagramTo {c : Config} (hc : c.wf = true) {h chunk d : Bytes} {dst : Ip} {proto : Proto8}
    {ident boff : Nat} {mf : Bool} (hh : h.length = ipHdrLen) (hn : chunk.length ≤ c.maxPayload) (hb : boff ≤ 65535)
    (hd : fillHeader c (h ++ chunk) chunk dst proto ident boff mf = some d) : DatagramTo c dst d := by
  have hm : ipHdrLen + chunk.length ≤ c.mtu ∧ c.mtu ≤ 65535 := by
    simp only [Config.wf, Bool.and_eq_true, decide_eq_true_eq] at hc
    simp only [Config.maxPayload, ipHdrLen] at hn hc ⊢
    omega
  rw [fillHeader_eq hh (by omega) (flagsOffset_lt hb), Option.some.injEq] at hd
  subst hd
  have hs : ∀ k, slice ((headerOf c dst proto ident boff chunk.length mf k).toBytes ++ chunk) 0 ipHdrLen =
      (headerOf c dst proto ident boff chunk.length mf k).toBytes := by
    intro k
    rw [slice, List.drop_zero, Nat.sub_zero, List.take_left' (Ipv4Header.length_toBytes _)]
  have htlen : (BitVec.ofNat 16 (ipHdrLen + chunk.length)).toNat = ipHdrLen + chunk.length := by
    rw [BitVec.toNat_ofNat]
    omega
  refine ⟨?_, ?_, ?_⟩
  · simp
  · simpa using hm.1
  · rw [Ipv4Header.read_toBytes, hs]
    exact ⟨rfl, rfl, rfl, by simpa [headerOf] using htlen, rfl, rfl, rfl, headerOf_verifies c dst proto ident boff _ mf⟩

/-! ### What the environment's inputs can do -/

/-- The updates that an input makes of a running block with configuration `c` keep `P`, the tables being reached by
ARP.RESOLVE_AND_SEND of a well-formed datagram and by ARP.ON_PACKET. -/
structure InputClosed (c : Config) (P : State → Prop) : Prop where
  cfg : ∀ s, P s → s.cfg = c
  resolveAndSend : ∀ d dst s, DatagramTo c dst d → P s → Holds P (resolveAndSend d dst s)
  onPacket : ∀ packet s, P s → Holds P (onPacket packet s)
  draw : ∀ n s, P s → P (draw n s)
  drawId : ∀ s, P s → P { s with idctr := s.idctr + 1 }
  emit : ∀ o s, P s → P (emit o s)
  dispose : ∀ k s, P s → P (dispose k s)
  registerProtocol : ∀ p s, P s → P (registerProtocol p s)
  takeFrame : ∀ d s, P s → P { s with driver := d }

section
variable {c : Config} {P : State → Prop} {s t : State} (k : InputClosed c P) (hc : c.wf = true)
include k hc

theorem InputClosed.encapsulateAndResolve {chunk : Bytes} {dst : Ip} {proto : Proto8} {ident boff : Nat} {mf : Bool}
    (hn : chunk.length ≤ c.maxPayload) (hb : boff ≤ 65535) (h : P s) :
    Holds P (encapsulateAndResolve chunk dst proto ident boff mf s) := by
  refine holds_orFault fun d hd => k.resolveAndSend d dst _ ?_ (k.draw _ _ h)
  rw [k.cfg s h] at hd
  exact fillHeader_datagramTo hc (length_freeBytes _ _) hn hb hd

theorem InputClosed.sendDatagram {buffer : Bytes} {dst : Ip} {proto : Proto8} (h : P s) :
    Holds P (sendDatagram buffer dst proto s) := by
  refine holds_sendDatagram (fun hlen f hf u hu => ?_) (k.drawId s h)
  rw [k.cfg s h] at hf
  obtain ⟨hin, hn⟩ := mem_fragPlan (Nat.lt_of_lt_of_le (by decide) (maxPayload_bounds hc).1) hf
  simp only [maxSend, ipHdrLen] at hlen
  exact k.encapsulateAndResolve hc (by rwa [length_slice hin]) (by omega) hu

theorem InputClosed.onMessage {m : Bytes} {source : Ip} (h : P s) : Holds P (onMessage m source s) :=
  holds_onMessage (k.dispose _ _ h) (k.dispose _ _ h) fun _ _ => k.sendDatagram hc h

theorem InputClosed.sendUnreachable {o : Bytes} {dst : Ip} {code : Byte} (h : P s) :
    Holds P (sendUnreachable o dst code s) :=
  holds_sendUnreachable fun _ _ _ _ => k.sendDatagram hc h

theorem InputClosed.onDatagram {b : Bytes} (h : P s) : Holds P (onDatagram b s) :=
  holds_onDatagram (fun _ => k.dispose _ _ h) fun _ _ _ =>
    holds_dispatchDatagram ((k.sendUnreachable hc h).mono fun _ hu => k.dispose _ _ hu)
      (fun _ => k.onMessage hc h) (fun _ _ => k.emit _ _ h)

theorem InputClosed.deliver {payload : Bytes} {p : Proto16} (h : P s) : Holds P (deliver payload p s) :=
  holds_deliver (k.onPacket _ _ h) (k.onDatagram hc h) h

omit hc in
/-- Every input but RESET keeps `P`. -/
theorem InputClosed.exec {i : Instr} (hin : i.isInput = true) (hr : i ≠ .reset) (h : P s) : Holds P (exec i s) := by
  have hcfg : s.cfg.wf = true → c.wf = true := fun hw => k.cfg s h ▸ hw
  cases i with
  | reset => exact absurd rfl hr
  | fdDeliver | fdDeliverArp | fdDeliverIp => exact holds_atPort fun hw _ => k.deliver (hcfg hw) h
  | ipSend => exact holds_atPort fun hw _ => k.sendDatagram (hcfg hw) h
  | icmpSendUnreachable => exact holds_atPort fun hw _ => k.sendUnreachable (hcfg hw) h
  | ipRegister => exact holds_atPort fun _ _ => holds_next.2 (k.registerProtocol _ _ h)
  | fdPoll =>
    refine holds_whenConfigured fun hw => ?_
    unfold poll
    split
    · exact holds_next.2 h
    · exact holds_atPort fun _ _ => k.deliver (hcfg hw) (k.takeFrame _ _ h)
  | _ => cases hin

end

/-! ### The invariant -/

variable {s t : State}

/-- With configuration `c`, every pending datagram is a well-formed datagram to its key. -/
def PendingTo (c : Config) (s : State) : Prop := s.cfg = c ∧ ∀ e ∈ s.pending.store, DatagramTo c e.key e.val

theorem pendingWellFormed_iff : s.PendingWellFormed ↔ PendingTo s.cfg s := by
  simp [State.PendingWellFormed, PendingTo]

theorem PendingTo.putPending {c : Config} {dst : Ip} {d : Bytes} (h : PendingTo c s) (hd : DatagramTo c dst d) :
    PendingTo c (putPending dst d s) := by
  refine ⟨h.1, fun e he => ?_⟩
  rcases mem_put he with rfl | he
  · exact hd
  · exact h.2 e he

theorem pendingTo_inputClosed (c : Config) : InputClosed c (PendingTo c) where
  cfg _ h := h.1
  resolveAndSend _ _ s hd h :=
    holds_resolveAndSend (fun _ _ => h) (fun _ _ _ => h) fun _ _ => PendingTo.putPending (s := tick (tick s)) h hd
  onPacket _ _ h := holds_onPacket h h (fun _ _ => ⟨h.1, fun e he => h.2 e (mem_erase he)⟩) fun _ => ⟨h, h⟩
  draw _ _ h := h
  drawId _ h := h
  emit _ _ h := h
  dispose _ _ h := h
  registerProtocol _ _ h := h
  takeFrame _ _ h := h

/-- RESET leaves nothing pending (70_reset_and_hazards.md R282). -/
theorem reset_pending_empty : Holds (fun u => u.pending.store = []) (exec .reset s) := by
  refine holds_whenConfigured fun _ => ?_
  unfold resetBlock
  split
  · simp
  · exact holds_andThen.2 (holds_andThen.2 (holds_andThen.2 (holds_cacheInit (holds_andThen.2 (holds_pendingInit
      (by simp))))))

theorem State.PendingWellFormed.exec {i : Instr} (h : s.PendingWellFormed) (hin : i.isInput = true)
    (hx : exec i s = .next t) : t.PendingWellFormed := by
  by_cases hr : i = .reset
  · subst hr
    simp [State.PendingWellFormed, reset_pending_empty t hx]
  · rw [pendingWellFormed_iff, exec_cfg hx]
    exact (pendingTo_inputClosed s.cfg).exec hin hr (pendingWellFormed_iff.1 h) t hx

/-- A step from a state with only inputs presented holds the state or runs an input, from the state with its
transaction taken; what is then presented are inputs. -/
theorem step_input (hs : s.InputsOnly) (h : step s = .next t) :
    t.InputsOnly ∧ (t = s ∨ ∃ rest i, i.isInput = true ∧ exec i (s.taking rest) = .next t) := by
  rcases step_next h with ⟨-, rfl⟩ | ⟨x, rest, i, hi, hd, hx⟩
  · exact ⟨hs, .inl rfl⟩
  · unfold State.InputsOnly at hs ⊢
    obtain ⟨hxin, hrest⟩ := List.forall_mem_cons.1 (hi ▸ hs)
    refine ⟨by rwa [exec_inbox hx], .inr ⟨rest, i, ?_, hx⟩⟩
    rw [isInput_of_decode hd, hxin]

/-- Settles O59: an input stores in PENDING only what IP.ENCAPSULATE_AND_RESOLVE has made for that destination. -/
theorem stepKeepsPendingDatagramsWellFormed : Obligations.StepKeepsPendingDatagramsWellFormed := by
  intro s t hs hp hst
  obtain ⟨ht, rfl | ⟨rest, i, hin, hx⟩⟩ := step_input hs hst
  · exact ⟨ht, hp⟩
  · have taken : (s.taking rest).PendingWellFormed := hp
    exact ⟨ht, taken.exec hin hx⟩

end Sys2Proof.Machine
end

section
/-! The time input and the outputs (20_memory.md R60, R66). Only a reading of the time input writes the clock, and only
an emission writes the outbox, at its end; so "not before a given time, and after the given outputs" is a property that
the updates keep (`FullyClosed`). RESET clears neither. -/

namespace Sys2Proof.Machine

variable {s t u : State}

/-- The clock of `u` is not before `now`, and the outputs of `u` begin with `out`. -/
def State.GrownFrom (now : Nat) (out : List Output) (u : State) : Prop := now ≤ u.clock ∧ out <+: u.outbox

theorem State.GrownFrom.refl (s : State) : s.GrownFrom s.clock s.outbox := ⟨Nat.le_refl _, List.prefix_refl _⟩

/-- One reading of the time input, whatever else is written. -/
theorem State.GrownFrom.read {now : Nat} {out : List Output} (h : u.GrownFrom now out) (hc : t.clock = nextTime u)
    (ho : t.outbox = u.outbox) : t.GrownFrom now out :=
  ⟨hc ▸ Nat.le_trans h.1 (clock_le_nextTime u), ho ▸ h.2⟩

/-- One emission, whatever else is written. -/
theorem State.GrownFrom.emitted {now : Nat} {out : List Output} {o : Output} (h : u.GrownFrom now out)
    (hc : t.clock = u.clock) (ho : t.outbox = u.outbox ++ [o]) : t.GrownFrom now out :=
  ⟨hc ▸ h.1, ho ▸ h.2.trans (List.prefix_append _ _)⟩

theorem grownFrom_fullyClosed (now : Nat) (out : List Output) : FullyClosed (State.GrownFrom now out) where
  tick _ h := h.read rfl rfl
  draw _ _ h := h
  emit _ _ h := h.emitted rfl rfl
  dispose _ _ h := h
  putPending _ _ _ h := h.read rfl rfl
  putCache _ _ _ h := h.read rfl rfl
  dropCache _ _ h := h
  dropPending _ _ h := h
  giveBack _ _ h := h
  makeCache _ _ _ h := h
  makePending _ _ _ h := h
  registerProtocol _ _ h := h
  fdRegister _ _ h := h.emitted rfl rfl
  takeFrame _ _ h := h

/-- Settles O54: every update, RESET's clearing included, keeps the state grown from the one the operation began in. -/
theorem timeAndOutputsOnlyGrow : Obligations.TimeAndOutputsOnlyGrow := by
  intro i s t h
  have start : s.GrownFrom s.clock s.outbox := .refl s
  exact (grownFrom_fullyClosed _ _).exec_all i start start start (fun _ hu => hu) t h

end Sys2Proof.Machine
end

section
/-! The encoder and the decoder invert each other (30_encoding.md R86, R102). A row that a packet pattern selects holds
the packet's other fields, so the packet's bytes come back from them; the general row is written only where no pattern
selects. -/

namespace Sys2Proof

/-! ### A packet comes back from the fields of the row that it selects -/

theorem arpRowBytes_read {packet : Bytes} (hl : arpLen ≤ packet.length)
    (hc : (ArpPacket.read packet).constantsOk = true) :
    arpRowBytes (ArpPacket.read packet).oper (ArpPacket.read packet).addresses (packet.drop arpLen) = packet := by
  have fixed :
      ArpPacket.fixed (ArpPacket.read packet).oper (ArpPacket.read packet).addresses = ArpPacket.read packet := by
    simp only [ArpPacket.constantsOk, Bool.and_eq_true, beq_iff_eq] at hc
    obtain ⟨⟨⟨hht, hpt⟩, hhl⟩, hpl⟩ := hc
    rw [ArpPacket.fixed, ← hht, ← hpt, ← hhl, ← hpl]
  rw [arpRowBytes, fixed, ArpPacket.toBytes_read hl]

theorem datagramRowBytes_read {b : Bytes} (hl : ipHdrLen ≤ b.length) (hv : (Ipv4Header.read b).ver = 4) :
    datagramRowBytes (Ipv4Header.read b).proto (Ipv4Header.read b).fields (b.drop ipHdrLen) = b := by
  rw [datagramRowBytes, ← hv, Ipv4Header.toBytes_read hl]

theorem echoRequestBytes_read {m : Bytes} (hl : icmpHdrLen ≤ m.length) (ht : byteAt m 0 = icmpEchoRequest) :
    echoRequestBytes (byteAt m 1) (u16At m 2) (u16At m 4) (u16At m 6) (m.drop icmpHdrLen) = m := by
  rw [echoRequestBytes, ← ht, icmpHeaderBytes_read hl]

/-! ### The operations that a transaction may carry -/

/-- The operation is well-formed and the transaction is its encoding. -/
def Carries (t : Transaction) (i : Instr) : Prop := encode i = t ∧ i.wellFormed = true

theorem carries_deliverRow (payload : Bytes) (p : Proto16) (src : Mac) :
    Carries ⟨.fdDeliver, [.bytes payload, numField p, macField src]⟩ (deliverRow payload p src) := by
  unfold deliverRow
  split
  case isTrue h => subst h; exact ⟨rfl, rfl⟩
  case isFalse hArp =>
    split
    case isTrue h => subst h; exact ⟨rfl, rfl⟩
    case isFalse hIp => exact ⟨rfl, by simpa [Instr.wellFormed] using ⟨hArp, hIp⟩⟩

/-- The ways in which a packet can miss both rows (R88). -/
theorem selectsArpRow_eq_false {packet : Bytes} : selectsArpRow packet = false ↔
    packet.length < arpLen ∨ (ArpPacket.read packet).constantsOk = false ∨
      ((ArpPacket.read packet).oper ≠ arpOpRequest ∧ (ArpPacket.read packet).oper ≠ arpOpReply) := by
  simp [selectsArpRow, imp_iff_not_or, or_assoc]

theorem carries_arpRow (packet : Bytes) (src : Mac) :
    Carries ⟨.arpOnPacket, [.bytes packet, macField src]⟩ (arpRow packet src) := by
  unfold arpRow
  dsimp only
  split
  case isTrue h =>
    obtain ⟨hl, hc, ho⟩ := h
    exact ⟨by rw [encode, ← ho, arpRowBytes_read hl hc], rfl⟩
  case isFalse notRequest =>
    split
    case isTrue h =>
      obtain ⟨hl, hc, ho⟩ := h
      exact ⟨by rw [encode, ← ho, arpRowBytes_read hl hc], rfl⟩
    case isFalse notReply =>
      have notSelected : selectsArpRow packet = false := by rw [selectsArpRow_eq_false]; grind
      exact ⟨rfl, by simp [Instr.wellFormed, notSelected]⟩

theorem carries_datagramRow (b : Bytes) (src : Mac) :
    Carries ⟨.ipOnDatagram, [.bytes b, macField src]⟩ (datagramRow b src) := by
  unfold datagramRow
  dsimp only
  split
  case isTrue h =>
    obtain ⟨hl, hv⟩ := h
    have bytes := datagramRowBytes_read hl hv
    split
    case isTrue hp => exact ⟨by rw [encode, ← hp, bytes], rfl⟩
    case isFalse notIcmp =>
      split
      case isTrue hp => exact ⟨by rw [encode, ← hp, bytes], rfl⟩
      case isFalse notOther =>
        exact ⟨by rw [encode, bytes], by simpa [Instr.wellFormed] using ⟨notIcmp, notOther⟩⟩
  case isFalse notV4 => exact ⟨rfl, by simpa [Instr.wellFormed, selectsDatagramRow, imp_iff_not_or] using notV4⟩

theorem carries_messageRow (m : Bytes) (src : Ip) :
    Carries ⟨.icmpOnMessage, [.bytes m, ipField src]⟩ (messageRow m src) := by
  unfold messageRow
  split
  case isTrue h =>
    obtain ⟨hl, ht⟩ := h
    exact ⟨by rw [encode, echoRequestBytes_read hl ht], rfl⟩
  case isFalse notEcho => exact ⟨rfl, by simpa [Instr.wellFormed, selectsMessageRow, imp_iff_not_or] using notEcho⟩

/-! ### The decoder: each operand is read from the field that it is written to -/

theorem macOf_eq_ok {b : Bytes} {m : Mac} : macOf b = .ok m ↔ macField m = .bytes b :=
  ⟨fun h => congrArg Field.bytes (macOf_ok h), fun h => by cases h; exact macOf_toBytes m⟩

theorem ipOf_eq_ok {b : Bytes} {a : Ip} : ipOf b = .ok a ↔ ipField a = .bytes b :=
  ⟨fun h => congrArg Field.bytes (ipOf_ok h), fun h => by cases h; exact ipOf_toBytes a⟩

theorem numOf_eq_ok {w n : Nat} {v : BitVec w} : numOf w n = .ok v ↔ numField v = .num n :=
  ⟨fun h => congrArg Field.num (numOf_ok h), fun h => by cases h; exact numOf_toNat v⟩

theorem tableOf_eq_ok {n : Nat} {t : TableId} : tableOf n = .ok t ↔ tableField t = .num n := by
  constructor
  · intro h
    unfold tableOf at h
    split at h <;> cases h <;> rfl
  · intro h
    cases t <;> cases h <;> rfl

theorem valueOf_eq_ok {t : TableId} {b : Bytes} {v : TableValue} :
    valueOf t b = .ok v ↔ v.table = t ∧ valueField v = .bytes b := by
  cases t with
  | pending => cases v <;> simp [valueOf, TableValue.table, valueField, eq_comm]
  | cache =>
    cases v <;> cases hm : macOf b <;> simp [valueOf, TableValue.table, valueField, ← macOf_eq_ok, hm]

/-- Whatever operation `r` decodes to is carried by `t`. -/
def DecodesCarried (t : Transaction) (r : Except Reject Instr) : Prop := ∀ i, r = .ok i → Carries t i

theorem decodesCarried_ok {t : Transaction} {i : Instr} (h : Carries t i) : DecodesCarried t (.ok i) := by
  rintro _ ⟨⟩
  exact h

theorem decodesCarried_bind {α : Type} {t : Transaction} {x : Except Reject α} {k : α → Except Reject Instr}
    (h : ∀ a, x = .ok a → DecodesCarried t (k a)) : DecodesCarried t (x >>= k) := by
  cases x with
  | error _ => rintro _ ⟨⟩
  | ok a => exact h a rfl

theorem decodesCarried (t : Transaction) : DecodesCarried t (decode t) := by
  obtain ⟨sel, fields⟩ := t
  unfold decode
  dsimp only
  split
  case h_34 => rintro _ ⟨⟩
  case h_1 | h_8 | h_9 | h_10 | h_11 | h_12 | h_19 | h_20 | h_21 | h_26 | h_31 => exact decodesCarried_ok ⟨rfl, rfl⟩
  all_goals
    repeat refine decodesCarried_bind fun _ _ => ?_
    refine decodesCarried_ok ?_
    simp only [macOf_eq_ok, ipOf_eq_ok, numOf_eq_ok, tableOf_eq_ok, valueOf_eq_ok] at *
  case h_2 hnum hmac => exact hnum ▸ hmac ▸ carries_deliverRow _ _ _
  case h_25 hmac => exact hmac ▸ carries_arpRow _ _
  case h_27 hmac => exact hmac ▸ carries_datagramRow _ _
  case h_32 hip => exact hip ▸ carries_messageRow _ _
  case h_18 m _ htable => cases m <;> simp [Carries, encode, Instr.wellFormed, htable]
  all_goals simp [Carries, encode, Instr.wellFormed, capacityField, *]

/-- Settles O1: the step's own use of the decoder needs the same round trip (`decode_encode`). -/
theorem decodeInvertsEncode : Obligations.DecodeInvertsEncode :=
  fun _ h => decode_encode h

/-- Settles O2: every row of the decoder reads each operand from the field that the encoder writes it to, and the rows
that a packet selects keep all its bytes. -/
theorem encodeInvertsDecode : Obligations.EncodeInvertsDecode :=
  fun t i h => decodesCarried t i h

/-- Settles O3, by running the decoder on the eight words. -/
theorem tablePatternsDecode : Obligations.TablePatternsDecode := by
  unfold Obligations.TablePatternsDecode
  decide

end Sys2Proof
end

section
/-! A packet that no ARP row selects (30_encoding.md R88, 44_arp.md R176). -/

namespace Sys2Proof.Machine

/-- ARP.ON_PACKET of a packet that misses both rows ends at one of its two checks. -/
theorem onPacket_notSelected {packet : Bytes} (h : selectsArpRow packet = false) (s : State) :
    onPacket packet s = discard (if packet.length < arpLen then .arpTooShort else .arpBadFixedField) s := by
  unfold onPacket
  split
  case isTrue short => rfl
  case isFalse long =>
    have bad := (selectsArpRow_eq_false.1 h).resolve_left long
    dsimp only
    rw [if_pos bad]

/-- Settles O28: a packet that neither row selects ends at the length check or at the check of the fixed fields. -/
theorem invalidArpPacketIsDiscarded : Obligations.InvalidArpPacketIsDiscarded := by
  intro packet src s hw hg
  have notSelected : selectsArpRow packet = false := by simpa [Instr.wellFormed] using hg
  calc exec (.arpOnPacket packet src) s = onPacket packet s := whenConfigured_wf hw _
    _ = _ := onPacket_notSelected notSelected s

end Sys2Proof.Machine
end

section
/-! Where the sending path completes (46_ip_outbound.md R211, R214). ARP.RESOLVE_AND_SEND ends in a next state where both
tables are made and `PENDING` has room for the destination, and leaves it so; the fragment loop carries that along. -/

namespace Sys2Proof.Machine

variable {s t : State}

/-- The run ends in a next state. -/
def Completes (r : Run) : Prop := ∃ t, r = .next t

@[simp] theorem completes_next : Completes (.next s) := ⟨s, rfl⟩

@[simp] theorem completes_discard (c : Cause) : Completes (discard c s) := completes_next

theorem completes_andThen {r : Run} {k : State → Run} (h : Completes r) (hk : Holds (fun u => Completes (k u)) r) :
    Completes (andThen r k) := by
  obtain ⟨u, rfl⟩ := h
  exact hk u rfl

/-! ### ARP.RESOLVE_AND_SEND -/

/-- The tables can serve a datagram to `dst`. -/
structure State.CanSend (dst : Ip) (s : State) : Prop where
  cacheReady : s.cache.ready = true
  pendingReady : s.pending.ready = true
  room : s.pending.hasRoom dst = true

theorem State.CanSend.draw {dst : Ip} (h : s.CanSend dst) (n : Nat) : (draw n s).CanSend dst := { h with }

theorem State.CanSend.drawId {dst : Ip} (h : s.CanSend dst) : { s with idctr := s.idctr + 1 }.CanSend dst := { h with }

theorem resolveAndSend_completes {dst : Ip} (h : s.CanSend dst) (d : Bytes) : Completes (resolveAndSend d dst s) := by
  rw [resolveAndSend, cacheGet_ready h.cacheReady]
  cases s.cache.get dst (nextTime s) with
  | some mac => exact completes_next
  | none =>
    dsimp only
    rw [pendingGet_ready (s := tick s) h.pendingReady]
    cases (tick s).pending.get dst (nextTime (tick s)) with
    | some held => exact completes_next
    | none =>
      dsimp only
      rw [pendingSet_ready (s := tick (tick s)) h.pendingReady h.room]
      exact completes_next

theorem resolveAndSend_canSend {dst : Ip} (h : s.CanSend dst) (d : Bytes) :
    Holds (State.CanSend dst) (resolveAndSend d dst s) :=
  holds_resolveAndSend (fun _ _ => { h with }) (fun _ _ _ => { h with })
    (fun _ _ => { h with room := hasRoom_put_self _ _ _ _ })

/-- `t` is `s` but for the time and the free values, the outputs, the notes, and what is pending for `dst`. -/
def State.SentTo (dst : Ip) (s t : State) : Prop :=
  t = { s.atTimeOf t with pending := t.pending, outbox := t.outbox, causes := t.causes } ∧
    ∀ k, k ≠ dst → t.pending.lookup k = s.pending.lookup k

theorem resolveAndSend_sentTo (d : Bytes) (dst : Ip) (s : State) : Holds (s.SentTo dst) (resolveAndSend d dst s) :=
  holds_resolveAndSend (fun _ _ => ⟨rfl, fun _ _ => rfl⟩) (fun _ _ _ => ⟨rfl, fun _ _ => rfl⟩)
    (fun _ _ => ⟨rfl, fun _ hk => lookup_put_of_ne _ _ _ (Ne.symm hk)⟩)

/-! ### IP.ENCAPSULATE_AND_RESOLVE -/

section
variable {chunk : Bytes} {proto : Proto8} {ident boff : Nat} {mf : Bool}

/-- Where the length and the offset fit their fields, the header is written and the datagram handed on. -/
theorem encapsulateAndResolve_eq (hlen : ipHdrLen + chunk.length < 65536)
    (hoff : flagsOffset s.cfg.mfBit mf boff < 65536) (dst : Ip) (proto : Proto8) (ident : Nat) :
    ∃ d, FragmentDatagram s.cfg dst proto ident boff mf chunk d ∧
      encapsulateAndResolve chunk dst proto ident boff mf s = resolveAndSend d dst (draw ipHdrLen s) := by
  refine ⟨_, ⟨_, rfl, headerOf_verifies s.cfg dst proto ident boff chunk.length mf⟩, ?_⟩
  rw [encapsulateAndResolve, addHeader, fillHeader_eq (length_freeBytes _ _) hlen hoff, orFault_some]

theorem memWrite_tooWide {b : Bytes} {off n v : Nat} (h : 256 ^ n ≤ v) : memWrite b off n v = none :=
  if_neg fun hin => Nat.not_lt.2 h hin.2

/-- Where the length or the offset does not fit its field, its write has no meaning (00_scope.md R10). -/
theorem encapsulateAndResolve_tooWide
    (h : 65536 ≤ ipHdrLen + chunk.length ∨ 65536 ≤ flagsOffset s.cfg.mfBit mf boff) (dst : Ip) (proto : Proto8)
    (ident : Nat) : encapsulateAndResolve chunk dst proto ident boff mf s = .fault .memoryRange := by
  suffices noHeader : ∀ d, fillHeader s.cfg d chunk dst proto ident boff mf = none by
    rw [encapsulateAndResolve, noHeader, orFault_none]
  intro d
  rcases h with hlen | hoff
  · simp [fillHeader, memWrite_tooWide (n := 2) hlen]
  · simp [fillHeader, memWrite_tooWide (n := 2) hoff]

theorem encapsulateAndResolve_completes (hlen : ipHdrLen + chunk.length < 65536)
    (hoff : flagsOffset s.cfg.mfBit mf boff < 65536) {dst : Ip} (h : s.CanSend dst) :
    Completes (encapsulateAndResolve chunk dst proto ident boff mf s) := by
  obtain ⟨d, -, run⟩ := encapsulateAndResolve_eq hlen hoff dst proto ident
  rw [run]
  exact resolveAndSend_completes (h.draw _) d

theorem encapsulateAndResolve_canSend {dst : Ip} (h : s.CanSend dst) :
    Holds (State.CanSend dst) (encapsulateAndResolve chunk dst proto ident boff mf s) :=
  holds_orFault fun d _ => resolveAndSend_canSend (h.draw _) d

theorem encapsulateAndResolve_sentTo (chunk : Bytes) (dst : Ip) (proto : Proto8) (ident boff : Nat) (mf : Bool)
    (s : State) : Holds (s.SentTo dst) (encapsulateAndResolve chunk dst proto ident boff mf s) :=
  holds_orFault fun d _ => resolveAndSend_sentTo d dst (draw ipHdrLen s)

end

/-- Settles O42: the header assembly gives the header of R91 to R93 or has a write without meaning, and what
ARP.RESOLVE_AND_SEND then does reaches one pending key. -/
theorem encapsulationBuildsTheHeader : Obligations.EncapsulationBuildsTheHeader := by
  intro chunk dst proto ident boff mf s hw
  have run : exec (.ipEncapsulateAndResolve chunk dst proto ident boff mf) s =
      encapsulateAndResolve chunk dst proto ident boff mf s := whenConfigured_wf hw _
  rw [run]
  refine ⟨fun hlen hoff => ⟨?datagram, ?completes⟩, fun h => encapsulateAndResolve_tooWide h dst proto ident⟩
  case datagram =>
    obtain ⟨d, hd, handedOn⟩ := encapsulateAndResolve_eq hlen hoff dst proto ident
    exact ⟨d, hd, handedOn.trans (whenConfigured_wf hw (s := draw ipHdrLen s) _).symm⟩
  case completes =>
    rintro ⟨-, hc, hp⟩ hr
    obtain ⟨t, ht⟩ := encapsulateAndResolve_completes hlen hoff ⟨hc, hp, hr⟩
    exact ⟨t, ht, encapsulateAndResolve_sentTo chunk dst proto ident boff mf s t ht⟩

/-! ### IP.SEND -/

theorem sendFragments_completes {buffer : Bytes} {dst : Ip} {proto : Proto8} {ident : Nat}
    (hb : buffer.length ≤ maxSend) {plan : List Fragment} (hplan : ∀ f ∈ plan, f.boff + f.n ≤ buffer.length)
    (h : s.CanSend dst) : Completes (sendFragments buffer dst proto ident plan s) := by
  induction plan generalizing s with
  | nil => exact completes_next
  | cons f fs ih =>
    obtain ⟨hf, hfs⟩ := List.forall_mem_cons.1 hplan
    have hmax : f.boff + f.n ≤ 65515 := Nat.le_trans hf hb
    have hlen : ipHdrLen + (slice buffer f.boff (f.boff + f.n)).length < 65536 := by
      rw [length_slice hf]
      simp only [ipHdrLen]
      omega
    exact completes_andThen (encapsulateAndResolve_completes hlen (flagsOffset_lt (by omega)) h)
      ((encapsulateAndResolve_canSend h).mono fun _ hu => ih hfs hu)

/-- IP.SEND of at most 65515 bytes completes (R212(a)). -/
theorem sendDatagram_completes {buffer : Bytes} {dst : Ip} (hw : s.cfg.wf = true) (hb : buffer.length ≤ maxSend)
    (h : s.CanSend dst) (proto : Proto8) : Completes (sendDatagram buffer dst proto s) := by
  rw [sendDatagram, if_neg (Nat.not_lt.2 hb)]
  have hm : 0 < s.cfg.maxPayload := Nat.lt_of_lt_of_le (by decide) (maxPayload_bounds hw).1
  exact sendFragments_completes hb (fun f hf => (mem_fragPlan hm hf).1) h.drawId

end Sys2Proof.Machine
end

section
/-! FD.DELIVER runs the selected row, and every delivery to a set-up block completes (42_frame_dispatcher.md R150,
30_encoding.md R85, R86). The receiving engines end in a disposition, in an output or in an IP.SEND, whose message is
short enough since a datagram's total length is a 16-bit field. -/

namespace Sys2Proof.Machine

variable {s : State}

/-! ### The rows of ARP.ON_PACKET and IP.ON_DATAGRAM are these operations on the packet itself -/

theorem exec_arpRow (packet : Bytes) (src : Mac) (s : State) :
    exec (arpRow packet src) s = whenConfigured s (onPacket packet) := by
  unfold arpRow
  dsimp only
  split
  case isTrue h =>
    obtain ⟨hl, hc, ho⟩ := h
    rw [exec, execArpOnPacketRequest, ← ho, arpRowBytes_read hl hc]
  case isFalse =>
    split
    case isTrue h =>
      obtain ⟨hl, hc, ho⟩ := h
      rw [exec, execArpOnPacketReply, ← ho, arpRowBytes_read hl hc]
    case isFalse => rfl

theorem exec_datagramRow (b : Bytes) (src : Mac) (s : State) :
    exec (datagramRow b src) s = whenConfigured s (onDatagram b) := by
  unfold datagramRow
  dsimp only
  split
  case isTrue h =>
    have bytes := datagramRowBytes_read h.1 h.2
    split
    case isTrue hp => rw [exec, execIpOnDatagramProtoIcmp, ← hp, bytes]
    case isFalse =>
      split
      case isTrue hp => rw [exec, execIpOnDatagramProtoOther, ← hp, bytes]
      case isFalse => rw [exec, execIpOnDatagramV4, bytes]
  case isFalse => rfl

/-! ### ICMP -/

theorem onMessage_completes {m : Bytes} {source : Ip} (hw : s.cfg.wf = true) (hm : m.length ≤ maxSend)
    (h : s.CanSend source) : Completes (onMessage m source s) := by
  unfold onMessage
  split
  case isTrue => exact completes_discard _
  case isFalse hl =>
    split
    case isTrue => exact completes_discard _
    case isFalse ht =>
      have reply := echoReply_eq (byteAt m 1) (u16At m 2) (u16At m 4) (u16At m 6) (m.drop icmpHdrLen)
      rw [echoRequestBytes_read (Nat.not_lt.1 hl) (not_not.1 ht)] at reply
      rw [reply, orFault_some]
      refine sendDatagram_completes hw ?_ h _
      simp only [List.length_append, length_icmpHeaderBytes, List.length_drop]
      omega

theorem inHdrLen_le {policy : IhlPolicy} {b : Bytes} {hl : Nat} (h : inHdrLen policy b = some hl) : hl ≤ 60 := by
  have := (Ipv4Header.read b).fields.ihl.isLt
  unfold inHdrLen at h
  dsimp only at h
  split at h
  · cases h; omega
  · split at h
    · cases h; omega
    · split at h
      · cases h
      · cases h; omega

theorem sendUnreachable_completes {o : Bytes} {dst : Ip} {hl : Nat} (hw : s.cfg.wf = true) (ho : ipHdrLen ≤ o.length)
    (hh : inHdrLen s.cfg.ihlPolicy o = some hl) (h : s.CanSend dst) (code : Byte) :
    Completes (sendUnreachable o dst code s) := by
  rw [sendUnreachable, if_neg (Nat.not_lt.2 ho)]
  simp only [hh, unreachableMessage_eq, orFault_some]
  refine sendDatagram_completes hw ?_ h _
  have := inHdrLen_le hh
  simp only [List.length_append, length_icmpHeaderBytes, List.length_take, maxSend, icmpHdrLen, ipHdrLen]
  omega

/-! ### IP.ON_DATAGRAM -/

theorem byteAt_take {b : Bytes} {n i : Nat} (h : i < n) : byteAt (b.take n) i = byteAt b i := by
  simp [byteAt, h]

/-- The header of a datagram is in its first 20 bytes. -/
theorem Ipv4Header.read_take {b : Bytes} {n : Nat} (h : ipHdrLen ≤ n) :
    Ipv4Header.read (b.take n) = Ipv4Header.read b := by
  change 20 ≤ n at h
  simp (disch := omega) only [Ipv4Header.read, u16At, ipAt, byteAt_take]

/-- A datagram keeps its header length when what is cut off is behind the header. -/
theorem inHdrLen_take {policy : IhlPolicy} {b : Bytes} {hl n : Nat} (h : inHdrLen policy b = some hl)
    (hh : ipHdrLen ≤ hl) (hn : hl ≤ (b.take n).length) : inHdrLen policy (b.take n) = some hl := by
  have read : Ipv4Header.read (b.take n) = Ipv4Header.read b := by
    rw [List.length_take] at hn
    exact Ipv4Header.read_take (by omega)
  unfold inHdrLen at h ⊢
  rw [read]
  dsimp only at h ⊢
  split
  case isTrue h5 => rwa [if_pos h5] at h
  case isFalse h5 =>
    rw [if_neg h5] at h
    cases policy with
    | fixed20 => exact h
    | ihl =>
      dsimp only at h ⊢
      split at h
      · cases h
      · cases h
        exact if_neg (by omega)

theorem dispatchDatagram_completes {b : Bytes} {hl : Nat} (hw : s.cfg.wf = true) (ha : Accepts s.cfg b hl)
    (h : s.CanSend (ipAt (trimmed b) 12)) : Completes (dispatchDatagram hl (trimmed b) s) := by
  obtain ⟨hh, hb⟩ := ha.le_trimmed
  unfold dispatchDatagram
  dsimp only
  split
  case isTrue =>
    exact completes_andThen (sendUnreachable_completes hw (Nat.le_trans hh hb) (inHdrLen_take ha.header hh hb) h _)
      fun _ _ => completes_discard _
  case isFalse =>
    rw [removeHeader, if_pos hb, orFault_some]
    split
    case isTrue =>
      refine onMessage_completes hw ?_ h
      have total : (Ipv4Header.read b).fields.tlen.toNat < 65536 := BitVec.isLt _
      simp only [trimmed, List.length_drop, List.length_take, maxSend, ipHdrLen] at hh ⊢
      omega
    case isFalse => exact completes_next

theorem onDatagram_completes (hw : s.cfg.wf = true) (h : ∀ dst, s.CanSend dst) (b : Bytes) :
    Completes (onDatagram b s) := by
  unfold onDatagram
  rcases inspect_cases s.cfg b with ⟨c, hc⟩ | ⟨hl, ha, hi⟩
  · rw [hc]; exact completes_discard c
  · rw [hi]; exact dispatchDatagram_completes hw ha (h _)

/-! ### ARP.ON_PACKET and FD.DELIVER -/

theorem onPacket_completes (hc : s.cache.ready = true) (hp : s.pending.ready = true)
    (hr : ∀ k, s.cache.hasRoom k = true) (packet : Bytes) : Completes (onPacket packet s) := by
  unfold onPacket
  split
  case isTrue => exact completes_discard _
  case isFalse =>
    dsimp only
    split
    case isTrue => exact completes_discard _
    case isFalse =>
      rw [cacheSet_ready hc (hr _), andThen_next, pendingGet_ready (by simpa using hp)]
      split
      case h_1 => exact completes_next
      case h_2 => split <;> exact completes_next

theorem deliver_completes (hw : s.cfg.wf = true) (hc : s.cache.ready = true) (hp : s.pending.ready = true)
    (hr : s.Roomy) (payload : Bytes) (p : Proto16) : Completes (deliver payload p s) := by
  unfold deliver
  split
  case isTrue => exact onPacket_completes hc hp (fun k => (hr k).1) payload
  case isFalse =>
    split
    case isTrue => exact onDatagram_completes hw (fun dst => ⟨hc, hp, (hr dst).2⟩) payload
    case isFalse => exact completes_next

/-- Settles O29: FD.DELIVER is ARP.ON_PACKET or IP.ON_DATAGRAM on the payload, or nothing, and so are the rows. -/
theorem deliveryRunsTheSelectedRow : Obligations.DeliveryRunsTheSelectedRow := by
  intro payload p src s hw hrun
  have run : exec (.fdDeliver payload p src) s = deliver payload p s := atPort_running hw hrun _
  rw [run]
  refine ⟨⟨?arp, ?ip, ?noHandler⟩, ?completes⟩
  case arp =>
    rintro rfl hreg
    rw [exec_arpRow, whenConfigured_wf hw, deliver, if_pos ⟨rfl, hreg⟩]
  case ip =>
    rintro rfl hne hreg
    rw [exec_datagramRow, whenConfigured_wf hw, deliver, if_neg (fun h => hne h.1), if_pos ⟨rfl, hreg⟩]
  case noHandler =>
    intro h
    rw [deliver, if_neg (by rintro ⟨rfl, hreg⟩; tauto), if_neg (by rintro ⟨rfl, hreg⟩; tauto)]
  case completes =>
    intro hc hp hr
    obtain ⟨t, ht⟩ := deliver_completes hw hc hp hr payload p
    refine ⟨t, ht, ?_, ?_⟩
    · rintro rfl
      exact (atPort_running hw hrun _).trans ht
    · rintro rfl
      exact (atPort_running hw hrun _).trans ht

end Sys2Proof.Machine
end

section
/-! The Byte Buffer operations (40_byte_buffer.md R131 to R134): the free bytes are as many as asked for, and a removal
is a cut of the buffer where it holds enough bytes and has no value beyond. -/

namespace Sys2Proof.Machine

section
variable {b : Bytes} {n : Nat}

theorem removeHeader_of_le (h : n ≤ b.length) : removeHeader b n = some (b.drop n) := if_pos h

theorem removeHeader_of_lt (h : b.length < n) : removeHeader b n = none := if_neg (Nat.not_le.2 h)

theorem removePadding_of_le (h : n ≤ b.length) : removePadding b n = some (b.take (b.length - n)) := if_pos h

theorem removePadding_of_lt (h : b.length < n) : removePadding b n = none := if_neg (Nat.not_le.2 h)

end

section
variable {s : State} (hw : s.cfg.wf = true) (b : Bytes) (n : Nat)
include hw

theorem exec_bufAddHeader :
    exec (.bufAddHeader b n) s = .next (giveBack (.bytes (freeBytes n s.draws ++ b)) (draw n s)) := by
  rw [exec, execBufAddHeader, whenConfigured_wf hw, addHeader]

theorem exec_bufAddPadding :
    exec (.bufAddPadding b n) s = .next (giveBack (.bytes (b ++ freeBytes n s.draws)) (draw n s)) := by
  rw [exec, execBufAddPadding, whenConfigured_wf hw, addPadding]

theorem exec_bufRemoveHeader :
    exec (.bufRemoveHeader b n) s =
      orFault (removeHeader b n) .removeBeyondBuffer fun r => .next (giveBack (.bytes r) s) := by
  rw [exec, execBufRemoveHeader, whenConfigured_wf hw]

theorem exec_bufRemovePadding :
    exec (.bufRemovePadding b n) s =
      orFault (removePadding b n) .removeBeyondBuffer fun r => .next (giveBack (.bytes r) s) := by
  rw [exec, execBufRemovePadding, whenConfigured_wf hw]

end

/-- Settles O9: both operations draw the same `n` free bytes, the ones at the state's counter. -/
theorem bufferAddsFreeBytes : Obligations.BufferAddsFreeBytes := by
  intro b n s hw
  exact ⟨freeBytes n s.draws, length_freeBytes n s.draws, exec_bufAddHeader hw b n, exec_bufAddPadding hw b n⟩

/-- Settles O10: the removal has a value exactly where the buffer holds `n` bytes, and its absence is the fault. -/
theorem bufferRemovesBytes : Obligations.BufferRemovesBytes := by
  intro b n s hw
  rw [exec_bufRemoveHeader hw, exec_bufRemovePadding hw]
  refine ⟨fun enough => ?_, fun beyond => ?_⟩
  · rw [removeHeader_of_le enough, removePadding_of_le enough]
    exact ⟨orFault_some .., orFault_some ..⟩
  · rw [removeHeader_of_lt beyond, removePadding_of_lt beyond]
    exact ⟨orFault_none .., orFault_none ..⟩

end Sys2Proof.Machine
end

section
/-! The Expiring Map operations (41_expiring_map.md R140 to R146): each operation on `CACHE` and on `PENDING` is the
table's own operation behind the configuration guard, and what it does to a table is a fact about the lookups. -/

namespace Sys2Proof.Machine

/-! ### One table: what a write does to every lookup, and what a lookup finds -/

section
variable {V : Type} (tb : Table V) (k : Ip)

theorem lookup_put (v : V) (now : Nat) (k' : Ip) :
    (tb.put k v now).lookup k' = if k' = k then some ⟨k, v, now⟩ else tb.lookup k' := by
  split
  · next same => rw [same, lookup_put_self]
  · next other => exact lookup_put_of_ne tb v now (Ne.symm other)

/-- With the key absent there is no stored entry to filter out. -/
theorem erase_of_lookup_none (absent : tb.lookup k = none) : tb.erase k = tb := by
  have kept : tb.store.filter (fun e => e.key != k) = tb.store :=
    List.filter_eq_self.2 fun e he => by simpa using List.find?_eq_none.1 absent e he
  rw [Table.erase, kept]

/-- A found value in another type, such as the value a caller is given. -/
theorem map_get {W : Type} (f : V → W) (now : Nat) :
    (tb.get k now).map f = (tb.lookup k).bind fun e => if now - e.ts ≤ tb.horizon then some (f e.val) else none := by
  rw [get_eq, Option.map_bind]
  simp only [Function.comp_def, apply_ite (Option.map f), Option.map_some, Option.map_none]

end

/-! ### `CACHE` and `PENDING`, made or not -/

section
variable {s : State}

theorem cacheInit_unmade (h : s.cache.ready = false) (c : Option Nat) (e : Nat) :
    cacheInit c e s = .next { s with cache := Table.made Mac c e } := by simp [cacheInit, h]

theorem pendingInit_unmade (h : s.pending.ready = false) (c : Option Nat) (e : Nat) :
    pendingInit c e s = .next { s with pending := Table.made Bytes c e } := by simp [pendingInit, h]

theorem cacheInit_made (h : s.cache.ready = true) (c : Option Nat) (e : Nat) :
    cacheInit c e s = .refused .tableInUse := if_pos h

theorem pendingInit_made (h : s.pending.ready = true) (c : Option Nat) (e : Nat) :
    pendingInit c e s = .refused .tableInUse := if_pos h

theorem cacheDelete_ready (h : s.cache.ready = true) (k : Ip) : cacheDelete k s = .next (dropCache k s) := if_pos h

theorem pendingDelete_ready (h : s.pending.ready = true) (k : Ip) :
    pendingDelete k s = .next (dropPending k s) := if_pos h

theorem dropCache_absent {k : Ip} (absent : s.cache.lookup k = none) : dropCache k s = s := by
  rw [dropCache, erase_of_lookup_none _ _ absent]

theorem dropPending_absent {k : Ip} (absent : s.pending.lookup k = none) : dropPending k s = s := by
  rw [dropPending, erase_of_lookup_none _ _ absent]

end

/-! ### The operations under a well-formed configuration -/

section
variable {s : State} (hw : s.cfg.wf = true) (k : Ip)
include hw

theorem exec_mapInit_cache (ks vs : Nat) (c : Option Nat) (e : Nat) (f : Bool) :
    exec (.mapInit .cache ks vs c e f) s = cacheInit c e s := by
  rw [exec, execMapInit, whenConfigured_wf hw]

theorem exec_mapInit_pending (ks vs : Nat) (c : Option Nat) (e : Nat) (f : Bool) :
    exec (.mapInit .pending ks vs c e f) s = pendingInit c e s := by
  rw [exec, execMapInit, whenConfigured_wf hw]

theorem exec_mapGet_cache :
    exec (.mapGet .cache k) s = cacheGet k s fun v u => .next (giveBack (.found (v.map .cache)) u) := by
  rw [exec, execMapGet, whenConfigured_wf hw]

theorem exec_mapGet_pending :
    exec (.mapGet .pending k) s = pendingGet k s fun v u => .next (giveBack (.found (v.map .pending)) u) := by
  rw [exec, execMapGet, whenConfigured_wf hw]

theorem exec_mapSet_cache (mac : Mac) : exec (.mapSet k (.cache mac)) s = cacheSet k mac s := by
  rw [exec, execMapSet, whenConfigured_wf hw]

theorem exec_mapSet_pending (d : Bytes) : exec (.mapSet k (.pending d)) s = pendingSet k d s := by
  rw [exec, execMapSet, whenConfigured_wf hw]

theorem exec_mapDelete_cache : exec (.mapDelete .cache k) s = cacheDelete k s := by
  rw [exec, execMapDelete, whenConfigured_wf hw]

theorem exec_mapDelete_pending : exec (.mapDelete .pending k) s = pendingDelete k s := by
  rw [exec, execMapDelete, whenConfigured_wf hw]

end

section
variable {s : State} (hw : s.cfg.wf = true) {id : TableId} (made : tableReady id s = true)
include hw made

theorem exec_mapForEach_readOnly : exec (.mapForEach id .readOnly) s = .next s := by
  rw [exec, execMapForEach, whenConfigured_wf hw, if_pos made]

theorem exec_mapForEach_mutating : exec (.mapForEach id .mutating) s = .refused .mutatingVisitor := by
  rw [exec, execMapForEach, whenConfigured_wf hw, if_pos made]

end

/-- Settles O12: the one reading of the time decides whether the entry looked up is live, and only the reading and the
returned value are in the next state. -/
theorem mapGetFindsLiveEntries : Obligations.MapGetFindsLiveEntries := by
  intro k s hw
  refine ⟨fun ready => ⟨giveBack (.found ((s.cache.get k (nextTime s)).map .cache)) (tick s), ?_,
      clock_le_nextTime s, ?_⟩,
    fun ready => ⟨giveBack (.found ((s.pending.get k (nextTime s)).map .pending)) (tick s), ?_,
      clock_le_nextTime s, ?_⟩⟩
  · rw [exec_mapGet_cache hw, cacheGet_ready ready]
  · rw [map_get]
    cases s.cache.lookup k <;> rfl
  · rw [exec_mapGet_pending hw, pendingGet_ready ready]
  · rw [map_get]
    cases s.pending.lookup k <;> rfl

/-- Settles O13: with room the next state is the table's own write at the time just read, seen through its lookups. -/
theorem mapSetStoresOneKey : Obligations.MapSetStoresOneKey := by
  intro k s hw
  refine ⟨fun mac ready room => ⟨putCache k mac s, ?_, clock_le_nextTime s, rfl, lookup_put s.cache k mac _⟩,
    fun d ready room => ⟨putPending k d s, ?_, clock_le_nextTime s, rfl, lookup_put s.pending k d _⟩⟩
  · rw [exec_mapSet_cache hw, cacheSet_ready ready room]
  · rw [exec_mapSet_pending hw, pendingSet_ready ready room]

/-- Settles O15: the next state is the table's own erasure, which has nothing to filter out for an absent key. -/
theorem mapDeleteRemovesOneKey : Obligations.MapDeleteRemovesOneKey := by
  intro k s hw
  refine ⟨fun ready => ⟨dropCache k s, ?_, rfl, lookup_erase s.cache k, dropCache_absent⟩,
    fun ready => ⟨dropPending k s, ?_, rfl, lookup_erase s.pending k, dropPending_absent⟩⟩
  · rw [exec_mapDelete_cache hw, cacheDelete_ready ready]
  · rw [exec_mapDelete_pending hw, pendingDelete_ready ready]

/-- Settles O11: for each table the flag that MAP.INIT sets decides between the empty table and the refusal. -/
theorem mapInitMakesEmptyTable : Obligations.MapInitMakesEmptyTable := by
  intro ks vs c e f s hw
  rw [exec_mapInit_cache hw, exec_mapInit_pending hw]
  exact ⟨fun unmade => cacheInit_unmade unmade c e, fun unmade => pendingInit_unmade unmade c e,
    fun made => cacheInit_made made c e, fun made => pendingInit_made made c e⟩

/-- Settles O16: on a made table the visitor's kind alone decides. -/
theorem forEachChangesNothing : Obligations.ForEachChangesNothing := by
  intro id s hw made
  exact ⟨exec_mapForEach_readOnly hw made, exec_mapForEach_mutating hw made⟩

end Sys2Proof.Machine
end

section
/-! The Frame Dispatcher's own operations (42_frame_dispatcher.md R151 to R153). FD.POLL is FD.DELIVER of the frame that it
has taken, and a delivery reads and writes nothing of the Driver. -/

namespace Sys2Proof.Machine

variable {s : State}

/-! ### A delivery and the Driver -/

/-- The rows of FD.DELIVER are this operation on their own protocol numbers (30_encoding.md R102). -/
theorem exec_deliverRow (payload : Bytes) (p : Proto16) (src : Mac) (s : State) :
    exec (deliverRow payload p src) s = atPort s (deliver payload p) := by
  unfold deliverRow
  split
  case isTrue arp => rw [exec, execFdDeliverArp, arp]
  case isFalse =>
    split
    case isTrue ip => rw [exec, execFdDeliverIp, ip]
    case isFalse => rfl

theorem driver_closed (d : List Frame) : Closed fun u => u.driver = d where
  tick _ h := h
  draw _ _ h := h
  emit _ _ h := h
  dispose _ _ h := h
  putPending _ _ _ h := h

theorem deliver_driver (payload : Bytes) (p : Proto16) (s : State) :
    Holds (fun u => u.driver = s.driver) (deliver payload p s) :=
  holds_deliver (holds_onPacket rfl rfl (fun _ _ => rfl) fun _ => ⟨rfl, rfl⟩)
    ((driver_closed s.driver).onDatagram rfl rfl) rfl

/-! ### The operations under a well-formed configuration -/

section
variable (hw : s.cfg.wf = true)
include hw

theorem exec_fdPoll_nil (empty : s.driver = []) : exec .fdPoll s = .next s := by
  rw [exec, execFdPoll, whenConfigured_wf hw, poll, empty]

theorem exec_fdPoll_cons {f : Frame} {rest : List Frame} (waiting : s.driver = f :: rest) :
    exec .fdPoll s = atPort { s with driver := rest } (deliver f.payload f.protocolNumber) := by
  rw [exec, execFdPoll, whenConfigured_wf hw, poll, waiting]

theorem exec_fdTransmit (payload : Bytes) (link : Mac) (p : Proto16) :
    exec (.fdTransmit payload link p) s = .next (emit (.fdTransmit payload link p) s) := by
  rw [exec, execFdTransmit, whenConfigured_wf hw]

theorem exec_upDeliver (p : Proto8) (payload : Bytes) (source : Ip) :
    exec (.upDeliver p payload source) s = .next (emit (.upDeliver p payload source) s) := by
  rw [exec, execUpDeliver, whenConfigured_wf hw]

theorem exec_fdRegister (p : Proto16) : exec (.fdRegister p) s = .next (fdRegister p s) := by
  rw [exec, execFdRegister, whenConfigured_wf hw]

theorem exec_ipInit : exec .ipInit s = .next (fdRegister s.cfg.protoIp s) := by
  rw [exec, execIpInit, whenConfigured_wf hw, initIp]

end

/-- Settles O30: FD.POLL is the row's delivery from the state without the frame, which completes and keeps the rest of
the queue. -/
theorem pollDeliversOneFrame : Obligations.PollDeliversOneFrame := by
  intro s hw
  refine ⟨exec_fdPoll_nil hw, fun f rest waiting => ⟨?delivered, ?completes⟩⟩
  case delivered => rw [exec_fdPoll_cons hw waiting, exec_deliverRow]
  case completes =>
    rintro ⟨⟨-, hc, hp⟩, hrun⟩ hr
    obtain ⟨t, ht⟩ := deliver_completes (s := { s with driver := rest }) hw hc hp hr f.payload f.protocolNumber
    refine ⟨t, ?_, deliver_driver _ _ _ t ht⟩
    rw [exec_fdPoll_cons hw waiting, atPort_running (s := { s with driver := rest }) hw hrun, ht]

/-- Settles O31: each output port is one emission of its own transaction. -/
theorem outputPortsEmit : Obligations.OutputPortsEmit := by
  intro payload link p16 p8 source s hw
  exact ⟨exec_fdTransmit hw payload link p16, exec_upDeliver hw p8 payload source⟩

/-- Settles O32: IP.INIT is FD.REGISTER of `PROTO_IP`, and the insertion into the handler set adds its one member. -/
theorem frameRegistrationAddsOneNumber : Obligations.FrameRegistrationAddsOneNumber := by
  intro p s hw
  exact ⟨⟨fdRegister p s, exec_fdRegister hw p, rfl, fun _ => mem_insertNum⟩,
    ⟨fdRegister s.cfg.protoIp s, exec_ipInit hw, rfl, fun _ => mem_insertNum⟩⟩

end Sys2Proof.Machine
end

section
/-! The checksum operations (43_checksum.md R160 to R165). Modulo 65535 the checksum is the negated sum of the words, so
what a stored checksum tells of a string is the residue of its sum, field and all: a verifying string has the residue
0, and no single bit has the weight of a multiple of 65535. -/

namespace Sys2Proof.Machine

/-! ### The folded sum and its complement -/

/-- The one residue that two folded sums share is 0, and the folded sum is 0 for the sum 0 alone (R161). -/
theorem foldCarry_eq_max_iff (n : Nat) : foldCarry n n = 65535 ↔ n ≠ 0 ∧ n % 65535 = 0 := by
  obtain ⟨bound, residue, zero⟩ := foldCarry_spec (Nat.le_refl n)
  omega

/-- CKSUM16 is the one word that brings the sum to a multiple of 65535 and tells the zero sum from the others. -/
theorem checksum_eq_iff (b : Bytes) (c : Word16) :
    checksum b = c ↔ (c = 0xffff ↔ wordSum b = 0) ∧ (wordSum b + c.toNat) % 65535 = 0 := by
  obtain ⟨bound, residue, zero⟩ := foldCarry_spec (Nat.le_refl (wordSum b))
  have hc := c.isLt
  rw [← BitVec.toNat_inj, ← BitVec.toNat_inj, checksum_toNat, show (0xffff : Word16).toNat = 65535 from rfl]
  omega

/-! ### The field that VERIFY zeroes -/

/-- Zeroing a field at an even offset takes its value, as a word, off the sum. -/
theorem wordSum_zeroField {b : Bytes} {off : Nat} (even : off % 2 = 0) (inside : off + 2 ≤ b.length) :
    wordSum (putBytes b off [0, 0]) + (u16At b off).toNat = wordSum b := by
  have hi := wordSum_set b off 0 (by omega)
  have lo := wordSum_set (b.set off 0) (off + 1) 0 (by rw [List.length_set]; omega)
  have lowByte : byteAt (b.set off 0) (off + 1) = byteAt b (off + 1) := by simp [byteAt]
  rw [lowByte] at lo
  rw [putBytes_two inside, u16At, word16_toNat]
  simp only [weight, even, show (off + 1) % 2 ≠ 0 by omega, if_true, if_false, show (0 : Byte).toNat = 0 from rfl]
    at hi lo
  omega

theorem memWrite_zeroField {b z : Bytes} {off : Nat} :
    memWrite b off 2 0 = some z ↔ off + 2 ≤ b.length ∧ putBytes b off [0, 0] = z := by
  simp [memWrite, beBytes_two]

theorem verifyChecksum_outside {b : Bytes} {off : Nat} (outside : b.length < off + 2) : verifyChecksum b off = none := by
  rw [verifyChecksum, memRead, if_neg (Nat.not_le.2 outside)]
  rfl

/-- A string that verifies has a sum that is a multiple of 65535 (R163). -/
theorem wordSum_of_verifies {b : Bytes} {off : Nat} (even : off % 2 = 0) (inside : off + 2 ≤ b.length)
    (verifies : verifyChecksum b off = some true) : wordSum b % 65535 = 0 := by
  rw [verifyChecksum_eq inside, Option.some_inj, decide_eq_true_iff, checksum_eq_iff, wordSum_zeroField even inside]
    at verifies
  exact verifies.2

/-! ### One inverted bit -/

theorem toNat_xor_twoPow_of_clear {w k : Nat} {x : BitVec w} (hk : k < w) (clear : x.getLsbD k = false) :
    (x ^^^ BitVec.twoPow w k).toNat = x.toNat + 2 ^ k := by
  have disjoint : x &&& BitVec.twoPow w k = 0#w := by simp [BitVec.and_twoPow, clear]
  have sum : x ^^^ BitVec.twoPow w k = x + BitVec.twoPow w k := by
    rw [BitVec.add_eq_or_of_and_eq_zero _ _ disjoint]
    ext i hi
    by_cases at_k : i = k
    · subst at_k
      simp [← BitVec.getLsbD_eq_getElem, clear]
    · simp [BitVec.getElem_twoPow, at_k]
  rw [sum, BitVec.toNat_add_of_and_eq_zero disjoint, BitVec.toNat_twoPow_of_lt hk]

/-- Inverting bit `k` raises or lowers the value by `2 ^ k`. -/
theorem toNat_xor_twoPow {w k : Nat} (x : BitVec w) (hk : k < w) :
    (x ^^^ BitVec.twoPow w k).toNat = x.toNat + 2 ^ k ∨ (x ^^^ BitVec.twoPow w k).toNat + 2 ^ k = x.toNat := by
  cases bit : x.getLsbD k with
  | false => exact .inl (toNat_xor_twoPow_of_clear hk bit)
  | true =>
    have clear : (x ^^^ BitVec.twoPow w k).getLsbD k = false := by simp [bit, hk]
    have back := toNat_xor_twoPow_of_clear hk clear
    rw [BitVec.xor_assoc, BitVec.xor_self, BitVec.xor_zero] at back
    exact .inr back.symm

/-- One bit's share of the sum is at most 32768, so inverting it leaves no multiple of 65535 one. -/
theorem wordSum_flipBit {b : Bytes} {i k : Nat} (hi : i < b.length) (hk : k < 8) (multiple : wordSum b % 65535 = 0) :
    wordSum (b.set i (byteAt b i ^^^ BitVec.twoPow 8 k)) % 65535 ≠ 0 := by
  have share := wordSum_set b i (byteAt b i ^^^ BitVec.twoPow 8 k) hi
  have change := toNat_xor_twoPow (byteAt b i) hk
  have positive : 0 < 2 ^ k := Nat.two_pow_pos k
  have small : 2 ^ k ≤ 2 ^ 7 := Nat.pow_le_pow_right (by decide) (Nat.le_of_lt_succ hk)
  rw [weight] at share
  split at share <;> omega

/-! ### The statements of the family -/

/-- Settles O17: the checksum's characterization, with the zero sum being that of the zero strings. -/
theorem checksumComplementsTheSum : Obligations.ChecksumComplementsTheSum := by
  intro b s hw
  obtain ⟨max, multiple⟩ := (checksum_eq_iff b (checksum b)).1 rfl
  rw [wordSum_eq_zero] at max
  refine ⟨checksum b, ?_, max.2, fun ⟨x, hx, hne⟩ => ⟨fun isMax => hne (max.1 isMax x hx), multiple⟩⟩
  rw [exec, execCksum16, whenConfigured_wf hw, giveBack]

/-- Settles O18: the zeroed copy is the string with a two-byte write, and outside the string the read has no value. -/
theorem verifyComparesWithZeroedField : Obligations.VerifyComparesWithZeroedField := by
  intro b off s hw
  rw [exec, execCksum16Verify, whenConfigured_wf hw]
  refine ⟨fun inside => ?_, fun outside => ?_⟩
  · rw [verifyChecksum_eq inside, orFault_some]
    rfl
  · rw [verifyChecksum_outside outside, orFault_none]

/-- Settles O19: zeroing the field again undoes the write, and the field reads back what was written. -/
theorem checksumRoundTrip : Obligations.ChecksumRoundTrip := by
  intro b off inside
  refine ⟨putBytes b off [0, 0], _, memWrite_zeroField.2 ⟨inside, rfl⟩, memWrite_two inside (BitVec.isLt _), ?_⟩
  rw [verifyChecksum_eq (by rw [length_putBytes inside]; exact inside), putBytes_putBytes inside, u16At_putBytes inside,
    word16_split, decide_eq_true rfl]

/-- Settles O20: the string's sum is the zeroed string's and the field, and both tests are residues of these; they part
where the zeroed string has a sum other than 0 of the residue 0. -/
theorem sumTestIsNotVerify : Obligations.SumTestIsNotVerify := by
  intro b z off even hz
  obtain ⟨inside, rfl⟩ := memWrite_zeroField.1 hz
  have sum := wordSum_zeroField even inside
  rw [verifyChecksum_eq inside, Option.some_inj, decide_eq_decide, foldCarry_eq_max_iff, checksum_eq_iff,
    checksum_eq_iff, ← sum]
  simp only [← BitVec.toNat_inj, show (0xffff : Word16).toNat = 65535 from rfl, show (0 : Word16).toNat = 0 from rfl]
  omega

/-- Settles O21: both strings cannot have a sum that is a multiple of 65535, and a string that verifies has. -/
theorem oneFlippedBitIsCaught : Obligations.OneFlippedBitIsCaught := by
  intro b off i k even inside hi hk verifies
  have inside' : off + 2 ≤ (b.set i (byteAt b i ^^^ BitVec.twoPow 8 k)).length := by rw [List.length_set]; exact inside
  have multiple := wordSum_of_verifies even inside verifies
  have caught := mt (wordSum_of_verifies even inside') (wordSum_flipBit hi hk multiple)
  rw [verifyChecksum_eq inside'] at caught ⊢
  simpa using caught

end Sys2Proof.Machine
end

section
/-! Resolved and pending stay apart (44_arp.md R179). A table's entry for a key is written by two operations only:
ARP.RESOLVE_AND_SEND stores in `PENDING` what has just missed in `CACHE`, and ARP.ON_PACKET enters in `CACHE` what it then
takes out of `PENDING` or finds stale there. An entry that is stale stays stale, so "apart now" is "apart from now on". -/

namespace Sys2Proof.Machine

/-! ### Lookups of one table at a later time, or after a write -/

section
variable {V : Type} {tb : Table V} {k k' : Ip}

/-- A key with no live entry has none later: entries only grow older. -/
theorem get_none_of_le {now later : Nat} (none_now : tb.get k now = none) (le : now ≤ later) : tb.get k later = none := by
  rw [get_eq] at none_now ⊢
  cases found : tb.lookup k with
  | none => rfl
  | some e =>
    have stale : ¬ now - e.ts ≤ tb.horizon := by simpa [found] using none_now
    have stale_later : ¬ later - e.ts ≤ tb.horizon := by omega
    rw [Option.bind_some, if_neg stale_later]

theorem get_of_store_nil (empty : tb.store = []) (now : Nat) : tb.get k now = none := by
  simp [get_eq, Table.lookup, empty]

theorem get_put_of_ne (other : k' ≠ k) (v : V) (ts now : Nat) : (tb.put k v ts).get k' now = tb.get k' now :=
  get_congr (put_horizon tb k v ts) (lookup_put_of_ne tb v ts other.symm) now

theorem get_erase_self (now : Nat) : (tb.erase k).get k now = none := by
  rw [get_eq, lookup_erase, if_pos rfl, Option.bind_none]

theorem get_erase_of_ne (other : k' ≠ k) (now : Nat) : (tb.erase k).get k' now = tb.get k' now :=
  get_congr (erase_horizon tb k) (by rw [lookup_erase, if_neg other]) now

end

/-! ### The invariant -/

variable {s t : State}

theorem State.Exclusive.tick (h : s.Exclusive) : (tick s).Exclusive :=
  fun k now hn => h k now (Nat.le_trans (clock_le_nextTime s) hn)

/-- Where only `dst` has new entries, it is enough that one of the two tables holds no live one for it. -/
theorem State.Exclusive.of_key {dst : Ip} (h : s.Exclusive) (time : s.clock ≤ t.clock)
    (others : ∀ k, k ≠ dst → ∀ now, t.cache.get k now = s.cache.get k now ∧ t.pending.get k now = s.pending.get k now)
    (apart : t.cache.get dst t.clock = none ∨ t.pending.get dst t.clock = none) : t.Exclusive := by
  intro k now hn
  by_cases hk : k = dst
  · subst hk
    exact apart.imp (get_none_of_le · hn) (get_none_of_le · hn)
  · rw [(others k hk now).1, (others k hk now).2]
    exact h k now (Nat.le_trans time hn)

theorem exclusive_resolveAndSend (h : s.Exclusive) (d : Bytes) (dst : Ip) :
    Holds State.Exclusive (resolveAndSend d dst s) := by
  refine holds_resolveAndSend (fun _ _ => h.tick) (fun _ _ _ => h.tick.tick) fun miss _ => ?_
  have twice : nextTime s ≤ nextTime (tick (tick s)) :=
    Nat.le_trans (clock_le_nextTime (tick s)) (clock_le_nextTime (tick (tick s)))
  exact h.of_key (dst := dst) (Nat.le_trans (clock_le_nextTime s) twice)
    (fun k hk now => ⟨rfl, get_put_of_ne hk _ _ now⟩) (.inl (get_none_of_le miss twice))

/-- The mapping is entered and the pending datagram taken out. -/
theorem State.Exclusive.release (h : s.Exclusive) (k : Ip) (v : Mac) :
    (dropPending k (Machine.tick (putCache k v s))).Exclusive :=
  h.of_key (dst := k) (Nat.le_trans (clock_le_nextTime s) (clock_le_nextTime (Machine.tick s)))
    (fun _ hk now => ⟨get_put_of_ne hk _ _ now, get_erase_of_ne hk now⟩) (.inr (get_erase_self _))

/-- The mapping is entered with nothing live pending. -/
theorem State.Exclusive.learn (h : s.Exclusive) {k : Ip} (v : Mac)
    (notPending : s.pending.get k (nextTime (Machine.tick s)) = none) : (Machine.tick (putCache k v s)).Exclusive :=
  h.of_key (dst := k) (Nat.le_trans (clock_le_nextTime s) (clock_le_nextTime (Machine.tick s)))
    (fun _ hk now => ⟨get_put_of_ne hk _ _ now, rfl⟩) (.inr notPending)

theorem exclusive_onPacket (h : s.Exclusive) (packet : Bytes) : Holds State.Exclusive (onPacket packet s) :=
  holds_onPacket h h (fun _ _ => h.release _ _) fun notPending => ⟨h.learn _ notPending, h.learn _ notPending⟩

/-- The invariant is one of a running block with configuration `c`; RESET, which is no such input, is apart. -/
theorem exclusive_inputClosed (c : Config) : InputClosed c fun u => u.cfg = c ∧ u.Exclusive where
  cfg _ h := h.1
  resolveAndSend d dst _ _ h t ht :=
    ⟨(fullyClosed_unwritten fun c' _ _ _ => c' = c).resolveAndSend h.1 t ht, exclusive_resolveAndSend h.2 d dst t ht⟩
  onPacket packet _ h t ht :=
    ⟨(fullyClosed_unwritten fun c' _ _ _ => c' = c).onPacket h.1 t ht, exclusive_onPacket h.2 packet t ht⟩
  draw _ _ h := h
  drawId _ h := h
  emit _ _ h := h
  dispose _ _ h := h
  registerProtocol _ _ h := h
  takeFrame _ _ h := h

theorem State.Exclusive.exec {i : Instr} (h : s.Exclusive) (hin : i.isInput = true) (hx : exec i s = .next t) :
    t.Exclusive := by
  by_cases hr : i = .reset
  · subst hr
    exact fun _ now _ => .inr (get_of_store_nil (reset_pending_empty t hx) now)
  · exact ((exclusive_inputClosed s.cfg).exec hin hr ⟨rfl, h⟩ t hx).2

/-- Settles O58: an input that writes one table for a key leaves no live entry for it in the other; RESET leaves nothing
pending. -/
theorem stepKeepsResolvedAndPendingApart : Obligations.StepKeepsResolvedAndPendingApart := by
  intro s t hs he hst
  obtain ⟨ht, rfl | ⟨rest, i, hin, hx⟩⟩ := step_input hs hst
  · exact ⟨ht, he⟩
  · have taken : (s.taking rest).Exclusive := he
    exact ⟨ht, taken.exec hin hx⟩

end Sys2Proof.Machine
end

section
/-! The ARP Engine's operations, one equation a case (44_arp.md R170 to R176): on made tables with room each ends in one
next state, built from the updates of the state. -/

namespace Sys2Proof.Machine

variable {s : State}

/-! ### The packets -/

/-- The builder of R174 writes the layout of R87 with the constants of R89. -/
theorem arpBuild_eq (c : Config) (oper : Word16) (tha : Mac) (tpa : Ip) :
    arpBuild c oper tha tpa = (ArpPacket.fixed oper ⟨c.localMac, c.localIp, tha, tpa⟩).toBytes := by
  simp [arpBuild, ArpPacket.toBytes, ArpPacket.fixed]

theorem sendRequest_eq (target : Ip) (s : State) :
    sendRequest target s = { s with outbox := s.outbox ++
      [.fdTransmit (ArpPacket.fixed arpOpRequest ⟨s.cfg.localMac, s.cfg.localIp, Mac.zero, target⟩).toBytes
        Mac.broadcast s.cfg.protoArp] } := by
  rw [sendRequest, arpBuild_eq, emit]

theorem sendReply_eq (target : Ip) (link : Mac) (s : State) :
    sendReply target link s = { s with outbox := s.outbox ++
      [.fdTransmit (ArpPacket.fixed arpOpReply ⟨s.cfg.localMac, s.cfg.localIp, link, target⟩).toBytes
        link s.cfg.protoArp] } := by
  rw [sendReply, arpBuild_eq, emit]

/-! ### ARP.INIT -/

theorem initArp_unmade (hc : s.cache.ready = false) (hp : s.pending.ready = false) :
    initArp s = .next (fdRegister s.cfg.protoArp (sendRequest s.cfg.localIp { s with
      cache := Table.made Mac s.cfg.arpCapacity s.cfg.arpTimeout
      pending := Table.made Bytes s.cfg.pendingCapacity s.cfg.arpPendingInterval })) := by
  rw [initArp, cacheInit_unmade hc, andThen_next, pendingInit_unmade (by exact hp), andThen_next]

theorem initArp_made (h : s.cache.ready = true ∨ s.pending.ready = true) : initArp s = .refused .tableInUse := by
  rw [initArp]
  cases hc : s.cache.ready with
  | true => rw [cacheInit_made hc, andThen_refused]
  | false =>
    have hp : s.pending.ready = true := h.resolve_left (by simp [hc])
    rw [cacheInit_unmade hc, andThen_next, pendingInit_made (by exact hp), andThen_refused]

/-! ### ARP.RESOLVE_AND_SEND -/

section
variable (d : Bytes) {dst : Ip} (hc : s.cache.ready = true)
include hc

theorem resolveAndSend_hit {mac : Mac} (hit : s.cache.get dst (nextTime s) = some mac) :
    resolveAndSend d dst s = .next (emit (.fdTransmit d mac s.cfg.protoIp) (tick s)) := by
  rw [resolveAndSend, cacheGet_ready hc, hit]
  rfl

variable (hp : s.pending.ready = true) (miss : s.cache.get dst (nextTime s) = none)
include hp miss

theorem resolveAndSend_held {d' : Bytes} (held : s.pending.get dst (nextTime (tick s)) = some d') :
    resolveAndSend d dst s = .next (dispose .arpResolutionInFlight (tick (tick s))) := by
  rw [resolveAndSend, cacheGet_ready hc, miss]
  dsimp only
  rw [pendingGet_ready (s := tick s) hp, tick_pending, held, discard]

theorem resolveAndSend_miss (absent : s.pending.get dst (nextTime (tick s)) = none)
    (room : s.pending.hasRoom dst = true) :
    resolveAndSend d dst s = .next (sendRequest dst (putPending dst d (tick (tick s)))) := by
  rw [resolveAndSend, cacheGet_ready hc, miss]
  dsimp only
  rw [pendingGet_ready (s := tick s) hp, tick_pending, absent]
  dsimp only
  rw [pendingSet_ready (s := tick (tick s)) hp room, andThen_next]

end

/-! ### ARP.ON_PACKET of a row's packet -/

/-- Entering a mapping reads the time once. -/
theorem nextTime_putCache (k : Ip) (v : Mac) (s : State) : nextTime (putCache k v s) = nextTime (tick s) := rfl

/-- What ARP.ON_PACKET does after it has learned the mapping, by what it finds pending for the sender (R176). -/
def afterLearning (oper : Word16) (a : ArpAddresses) (s : State) : Option Bytes → State
  | some d => dropPending a.spa (emit (.fdTransmit d a.sha s.cfg.protoIp) s)
  | none => if oper = arpOpRequest ∧ a.tpa = s.cfg.localIp then sendReply a.spa a.sha s else s

theorem afterLearning_reply_absent (a : ArpAddresses) (s : State) : afterLearning arpOpReply a s none = s := by
  rw [afterLearning, if_neg]
  rintro ⟨isRequest, -⟩
  exact absurd isRequest (by decide)

/-- The packet of a row passes the checks; the mapping is entered, then `PENDING` is read. -/
theorem onPacket_row {oper : Word16} (valid : oper = arpOpRequest ∨ oper = arpOpReply) {a : ArpAddresses}
    (ready : s.TablesReady) (room : s.cache.hasRoom a.spa = true) (trailer : Bytes) :
    onPacket (arpRowBytes oper a trailer) s =
      .next (afterLearning oper a (tick (putCache a.spa a.sha s)) (s.pending.get a.spa (nextTime (tick s)))) := by
  obtain ⟨-, hc, hp⟩ := ready
  have long : ¬ (arpRowBytes oper a trailer).length < arpLen := by simp [arpRowBytes]
  have read : ArpPacket.read (arpRowBytes oper a trailer) = ArpPacket.fixed oper a := ArpPacket.read_toBytes _ _
  have checked : ¬ ((ArpPacket.fixed oper a).constantsOk = false ∨
      ((ArpPacket.fixed oper a).oper ≠ arpOpRequest ∧ (ArpPacket.fixed oper a).oper ≠ arpOpReply)) := by
    rintro (bad | ⟨notRequest, notReply⟩)
    · simp [ArpPacket.constantsOk, ArpPacket.fixed] at bad
    · exact valid.elim notRequest notReply
  rw [onPacket, if_neg long, read]
  dsimp only
  rw [if_neg checked, ArpPacket.fixed, cacheSet_ready hc room, andThen_next,
    pendingGet_ready (s := putCache a.spa a.sha s) hp, putCache_pending, nextTime_putCache]
  cases s.pending.get a.spa (nextTime (tick s)) with
  | some d => rfl
  | none => exact (apply_ite Host.Outcome.next _ _ _).symm

/-! ### The operations under a well-formed configuration -/

section
variable (hw : s.cfg.wf = true)
include hw

theorem exec_arpInit : exec .arpInit s = initArp s := by
  rw [exec, execArpInit, whenConfigured_wf hw]

theorem exec_arpSendRequest (target : Ip) : exec (.arpSendRequest target) s = .next (sendRequest target s) := by
  rw [exec, execArpSendRequest, whenConfigured_wf hw]

theorem exec_arpSendReply (target : Ip) (link : Mac) :
    exec (.arpSendReply target link) s = .next (sendReply target link s) := by
  rw [exec, execArpSendReply, whenConfigured_wf hw]

theorem exec_arpResolveAndSend (d : Bytes) (dst : Ip) :
    exec (.arpResolveAndSend d dst) s = resolveAndSend d dst s := by
  rw [exec, execArpResolveAndSend, whenConfigured_wf hw]

end

section
variable {a : ArpAddresses} (ready : s.TablesReady) (room : s.cache.hasRoom a.spa = true)
include ready room

theorem exec_arpOnPacketRequest (trailer : Bytes) (src : Mac) :
    exec (.arpOnPacketRequest a trailer src) s = .next (afterLearning arpOpRequest a (tick (putCache a.spa a.sha s))
      (s.pending.get a.spa (nextTime (tick s)))) := by
  rw [exec, execArpOnPacketRequest, whenConfigured_wf ready.1, onPacket_row (.inl rfl) ready room]

theorem exec_arpOnPacketReply (trailer : Bytes) (src : Mac) :
    exec (.arpOnPacketReply a trailer src) s = .next (afterLearning arpOpReply a (tick (putCache a.spa a.sha s))
      (s.pending.get a.spa (nextTime (tick s)))) := by
  rw [exec, execArpOnPacketReply, whenConfigured_wf ready.1, onPacket_row (.inr rfl) ready room]

end

/-! ### The statements of the family -/

/-- Settles O22: the operation is one emission of the built request. -/
theorem sendRequestBroadcasts : Obligations.SendRequestBroadcasts := by
  intro target s hw
  rw [exec_arpSendRequest hw, sendRequest_eq]

/-- Settles O23: the operation is one emission of the built reply. -/
theorem sendReplyUnicasts : Obligations.SendReplyUnicasts := by
  intro target link s hw
  rw [exec_arpSendReply hw, sendReply_eq]

/-- Settles O24: on unmade tables the four steps of R170 run in order; the first made table met stops them. -/
theorem arpInitMakesTablesAndProbes : Obligations.ArpInitMakesTablesAndProbes := by
  intro s hw
  rw [exec_arpInit hw]
  refine ⟨fun hc hp => ⟨_, initArp_unmade hc hp, ?_, fun _ => mem_insertNum⟩, initArp_made⟩
  rw [sendRequest_eq, fdRegister, emit, List.append_assoc]
  rfl

/-- Settles O25: one clause for each way in which the two lookups can end. -/
theorem resolveAndSendByCases : Obligations.ResolveAndSendByCases := by
  rintro d dst s ⟨hw, hc, hp⟩
  rw [exec_arpResolveAndSend hw]
  refine ⟨fun mac hit => ⟨_, resolveAndSend_hit d hc hit, rfl, rfl⟩,
    fun d' miss held => ⟨_, resolveAndSend_held d hc hp miss held, rfl, rfl⟩,
    fun miss absent room => ⟨_, resolveAndSend_miss d hc hp miss absent room, ?_, rfl⟩⟩
  rw [sendRequest_eq]
  rfl

/-- Settles O26: a pending datagram is released before the opcode is looked at. -/
theorem onPacketReleasesPending : Obligations.OnPacketReleasesPending := by
  intro a trailer d src s ready room pending
  rw [exec_arpOnPacketRequest ready room, exec_arpOnPacketReply ready room, pending]
  exact ⟨_, rfl, rfl, rfl⟩

/-- Settles O27: with nothing pending the opcode and the target address decide whether there is a reply. -/
theorem onPacketLearnsAndAnswers : Obligations.OnPacketLearnsAndAnswers := by
  intro a trailer src s ready room absent
  rw [exec_arpOnPacketRequest ready room, exec_arpOnPacketReply ready room, absent,
    afterLearning_reply_absent, afterLearning]
  refine ⟨⟨_, rfl, rfl⟩, ⟨_, rfl, ?_⟩⟩
  by_cases forUs : a.tpa = s.cfg.localIp
  · rw [if_pos ⟨rfl, forUs⟩, if_pos forUs, sendReply_eq]
    rfl
  · rw [if_neg (fun h => forUs h.2), if_neg forUs, List.append_nil]
    rfl

end Sys2Proof.Machine
end

section
/-! IP.ON_DATAGRAM and the registrations of the IP and ICMP Engines (45_ip_inbound.md R190 to R199, 47_icmp.md R230).
The inbound checks of a datagram end at the first one that fails; a datagram that passes them all is dispatched by its
protocol. None of this, nor what it calls, writes the ARP cache. -/

namespace Sys2Proof.Machine

variable {s : State}

/-! ### The registrations -/

section
variable (hw : s.cfg.wf = true)
include hw

theorem exec_ipRegister (running : s.phase = .running) (p : Proto8) :
    exec (.ipRegister p) s = .next (registerProtocol p s) := by
  rw [exec, execIpRegister, atPort_running hw running]

theorem exec_icmpInit : exec .icmpInit s = .next (registerProtocol ipProtoIcmp s) := by
  rw [exec, execIcmpInit, whenConfigured_wf hw, initIcmp]

end

/-- Settles O33: both operations are one insertion into the handler set, which adds its one member. -/
theorem protocolRegistrationAddsOneNumber : Obligations.ProtocolRegistrationAddsOneNumber := by
  intro p s hw
  exact ⟨fun running => ⟨registerProtocol p s, exec_ipRegister hw running p, rfl, fun _ => mem_insertNum⟩,
    ⟨registerProtocol ipProtoIcmp s, exec_icmpInit hw, rfl, fun _ => mem_insertNum⟩⟩

/-! ### The rows of IP.ON_DATAGRAM and ICMP.ON_MESSAGE are these operations on the packet itself -/

section
variable (hw : s.cfg.wf = true)
include hw

theorem exec_ipOnDatagram (b : Bytes) (src : Mac) : exec (.ipOnDatagram b src) s = onDatagram b s := by
  rw [exec, execIpOnDatagram, whenConfigured_wf hw]

theorem exec_ipOnDatagramV4 (p : Proto8) (f : Ipv4Fields) (rest : Bytes) (src : Mac) :
    exec (.ipOnDatagramV4 p f rest src) s = onDatagram (datagramRowBytes p f rest) s := by
  rw [exec, execIpOnDatagramV4, whenConfigured_wf hw]

theorem exec_ipOnDatagramProtoIcmp (f : Ipv4Fields) (rest : Bytes) (src : Mac) :
    exec (.ipOnDatagramProtoIcmp f rest src) s = onDatagram (datagramRowBytes ipProtoIcmp f rest) s := by
  rw [exec, execIpOnDatagramProtoIcmp, whenConfigured_wf hw]

theorem exec_ipOnDatagramProtoOther (f : Ipv4Fields) (rest : Bytes) (src : Mac) :
    exec (.ipOnDatagramProtoOther f rest src) s = onDatagram (datagramRowBytes ipProtoOther f rest) s := by
  rw [exec, execIpOnDatagramProtoOther, whenConfigured_wf hw]

theorem exec_icmpSendUnreachableCall (o : Bytes) (dst : Ip) (code : Byte) :
    exec (.icmpSendUnreachableCall o dst code) s = sendUnreachable o dst code s := by
  rw [exec, execIcmpSendUnreachableCall, whenConfigured_wf hw]

end

theorem exec_messageRow (m : Bytes) (source : Ip) (s : State) :
    exec (messageRow m source) s = whenConfigured s (onMessage m source) := by
  unfold messageRow
  split
  case isTrue h => rw [exec, execIcmpOnMessageEchoRequest, echoRequestBytes_read h.1 h.2]
  case isFalse => rfl

/-! ### The header of a row's datagram -/

@[simp] theorem read_datagramRowBytes (p : Proto8) (f : Ipv4Fields) (rest : Bytes) :
    Ipv4Header.read (datagramRowBytes p f rest) = ⟨4, p, f⟩ :=
  Ipv4Header.read_toBytes _ rest

@[simp] theorem length_datagramRowBytes (p : Proto8) (f : Ipv4Fields) (rest : Bytes) :
    (datagramRowBytes p f rest).length = ipHdrLen + rest.length := by
  rw [datagramRowBytes, List.length_append, Ipv4Header.length_toBytes]

/-- Settles O36: the row's header is read back from its bytes, and R193 is a case split on its field. -/
theorem headerLengthFollowsPolicy : Obligations.HeaderLengthFollowsPolicy := by
  intro p f rest policy
  have field : f.ihl.toNat = 5 ↔ f.ihl = 5 := BitVec.toNat_inj (y := 5)
  unfold inHdrLen
  dsimp only
  simp only [read_datagramRowBytes, length_datagramRowBytes, field]
  by_cases five : f.ihl = 5
  · simp only [five, true_or, if_true]
  · cases policy with
    | fixed20 => simp only [five, or_true, if_true, if_false]
    | ihl => simp only [five, reduceCtorEq, or_self, if_false]

/-! ### The inbound checks -/

theorem onDatagram_rejected {b : Bytes} {k : Cause} (h : inspect s.cfg b = .reject k) :
    onDatagram b s = discard k s := by
  rw [onDatagram, h]

theorem inspect_notSelected {b : Bytes} (h : selectsDatagramRow b = false) (c : Config) :
    inspect c b = .reject (if b.length < ipHdrLen then .ipTooShort else .ipBadVersion) := by
  unfold inspect
  split
  case isTrue => rfl
  case isFalse long =>
    have bad : (Ipv4Header.read b).ver ≠ 4 := by simpa [selectsDatagramRow, Nat.not_lt.1 long] using h
    dsimp only
    rw [if_pos bad]

/-- Settles O34: the first two checks are the ones that select an IPv4 row. -/
theorem unselectedDatagramIsDiscarded : Obligations.UnselectedDatagramIsDiscarded := by
  intro b src s hw hg
  have notSelected : selectsDatagramRow b = false := by simpa [Instr.wellFormed] using hg
  rw [exec_ipOnDatagram hw, onDatagram_rejected (inspect_notSelected notSelected s.cfg)]
  rfl

section
variable {c : Config} {p : Proto8} {f : Ipv4Fields} {rest : Bytes}

theorem inspect_badHeaderLength (bad : inHdrLen c.ihlPolicy (datagramRowBytes p f rest) = none) :
    inspect c (datagramRowBytes p f rest) = .reject .ipBadHeaderLength := by
  simp [inspect, bad]

variable {hl : Nat} (header : inHdrLen c.ihlPolicy (datagramRowBytes p f rest) = some hl)
include header

theorem inspect_badChecksum (bad : verifyChecksum (slice (datagramRowBytes p f rest) 0 hl) 10 = some false) :
    inspect c (datagramRowBytes p f rest) = .reject .ipBadChecksum := by
  simp [inspect, header, bad]

variable (verified : verifyChecksum (slice (datagramRowBytes p f rest) 0 hl) 10 = some true)
include verified

theorem inspect_notForUs (other : f.dst ≠ c.localIp) :
    inspect c (datagramRowBytes p f rest) = .reject .ipNotForUs := by
  simp [inspect, header, verified, other]

theorem inspect_badTotalLength (forUs : f.dst = c.localIp) (short : f.tlen.toNat < hl) :
    inspect c (datagramRowBytes p f rest) = .reject .ipBadTotalLength := by
  simp [inspect, header, verified, forUs, short]

end

/-- Settles O35: the three rows are IP.ON_DATAGRAM of the row's bytes, whose inspection ends at the failing check. -/
theorem firstFailingCheckDecides : Obligations.FirstFailingCheckDecides := by
  intro p f rest src s i hw row b
  have run : exec i s = onDatagram b s := by
    rcases row with rfl | ⟨rfl, rfl⟩ | ⟨rfl, rfl⟩
    · exact exec_ipOnDatagramV4 hw p f rest src
    · exact exec_ipOnDatagramProtoIcmp hw f rest src
    · exact exec_ipOnDatagramProtoOther hw f rest src
  rw [run]
  exact ⟨fun bad => onDatagram_rejected (inspect_badHeaderLength bad),
    fun hl header => ⟨fun bad => onDatagram_rejected (inspect_badChecksum header bad),
      fun verified => ⟨fun other => onDatagram_rejected (inspect_notForUs header verified other),
        fun forUs short => onDatagram_rejected (inspect_badTotalLength header verified forUs short)⟩⟩⟩

/-! ### The dispatch of an accepted datagram -/

theorem onDatagram_accepted {b : Bytes} {hl : Nat} (h : Accepts s.cfg b hl) :
    onDatagram b s = dispatchDatagram hl (trimmed b) s := by
  rw [onDatagram, inspect_accepts h]

/-- Cutting the padding off leaves the header as it is. -/
theorem Accepts.read_trimmed {c : Config} {b : Bytes} {hl : Nat} (h : Accepts c b hl) :
    Ipv4Header.read (trimmed b) = Ipv4Header.read b :=
  Ipv4Header.read_take (Nat.le_trans (inHdrLen_bounds h.long h.header).1 h.total)

section
variable {p : Proto8} {f : Ipv4Fields} {rest : Bytes} {hl : Nat}
  (accepted : Accepts s.cfg (datagramRowBytes p f rest) hl)
include accepted

theorem trimmed_proto : byteAt (trimmed (datagramRowBytes p f rest)) 9 = p := by
  have read := accepted.read_trimmed
  rw [read_datagramRowBytes] at read
  exact congrArg Ipv4Header.proto read

theorem trimmed_source : ipAt (trimmed (datagramRowBytes p f rest)) 12 = f.src := by
  have read := accepted.read_trimmed
  rw [read_datagramRowBytes] at read
  exact congrArg (·.fields.src) read

theorem onDatagram_unregistered (absent : p ∉ s.registered) :
    onDatagram (datagramRowBytes p f rest) s =
      andThen (sendUnreachable (trimmed (datagramRowBytes p f rest)) f.src s.cfg.codeProtoUnreach s)
        (discard .ipProtoUnreachable) := by
  rw [onDatagram_accepted accepted, dispatchDatagram, trimmed_proto accepted, trimmed_source accepted, if_pos absent]

theorem onDatagram_registered (member : p ∈ s.registered) :
    onDatagram (datagramRowBytes p f rest) s =
      if p = ipProtoIcmp then onMessage ((trimmed (datagramRowBytes p f rest)).drop hl) f.src s
      else .next (emit (.upDeliver p ((trimmed (datagramRowBytes p f rest)).drop hl) f.src) s) := by
  rw [onDatagram_accepted accepted, dispatchDatagram, trimmed_proto accepted, trimmed_source accepted,
    if_neg (not_not.2 member), removeHeader, if_pos accepted.le_trimmed.2, orFault_some]

end

/-- Settles O37: a registered protocol other than ICMP has one emission, of the trimmed datagram behind its header. -/
theorem acceptedDatagramIsDelivered : Obligations.AcceptedDatagramIsDelivered := by
  intro p f rest src hl s hw accepted member notIcmp t
  have run : onDatagram (datagramRowBytes p f rest) s = .next t := by
    rw [onDatagram_registered accepted member, if_neg notIcmp, emit]
  refine ⟨(exec_ipOnDatagramV4 hw p f rest src).trans run, ?_⟩
  rintro rfl
  exact (exec_ipOnDatagramProtoOther hw f rest src).trans run

/-- Settles O38: with ICMP registered the datagram is ICMP.ON_MESSAGE of its payload, which the payload's row is too. -/
theorem acceptedIcmpReachesTheEngine : Obligations.AcceptedIcmpReachesTheEngine := by
  rintro f rest src hl s ⟨hw, hc, hp⟩ room accepted member
  have run := onDatagram_registered accepted member
  rw [if_pos rfl] at run
  obtain ⟨t, ht⟩ := onDatagram_completes hw (fun dst => ⟨hc, hp, (room dst).2⟩) (datagramRowBytes ipProtoIcmp f rest)
  refine ⟨t, (exec_ipOnDatagramProtoIcmp hw f rest src).trans ht, ?_⟩
  rw [exec_messageRow, whenConfigured_wf hw, ← run, ht]

theorem sendUnreachable_idctr (o : Bytes) (dst : Ip) (code : Byte) (s : State) :
    Holds (fun u => u.idctr = s.idctr + 1) (sendUnreachable o dst code s) :=
  (fullyClosed_unwritten fun _ _ n _ => n = s.idctr + 1).sendUnreachable rfl

/-- Settles O39: an unregistered protocol is ICMP.SEND_UNREACHABLE about the trimmed datagram, which still holds its
header, and then a disposition. -/
theorem unregisteredProtocolIsAnswered : Obligations.UnregisteredProtocolIsAnswered := by
  rintro p f rest src hl s ⟨hw, hc, hp⟩ room accepted absent
  obtain ⟨headerLong, inside⟩ := accepted.le_trimmed
  obtain ⟨u, hu⟩ := sendUnreachable_completes hw (Nat.le_trans headerLong inside)
    (inHdrLen_take accepted.header headerLong inside) ⟨hc, hp, (room f.src).2⟩ s.cfg.codeProtoUnreach
  have run : onDatagram (datagramRowBytes p f rest) s = .next (dispose .ipProtoUnreachable u) := by
    rw [onDatagram_unregistered accepted absent, hu]
    rfl
  refine ⟨u, (exec_icmpSendUnreachableCall hw _ _ _).trans hu, sendUnreachable_idctr _ _ _ s u hu,
    (exec_ipOnDatagramV4 hw p f rest src).trans run, ?_, ?_⟩
  · rintro rfl
    exact (exec_ipOnDatagramProtoIcmp hw f rest src).trans run
  · rintro rfl
    exact (exec_ipOnDatagramProtoOther hw f rest src).trans run

/-! ### The ARP cache -/

/-- `CACHE` is the table `c`. -/
def State.CacheIs (c : Table Mac) (s : State) : Prop := s.cache = c

theorem State.CacheIs.refl (s : State) : s.CacheIs s.cache := rfl

section
variable {c : Table Mac} (h : s.CacheIs c)
include h

theorem State.CacheIs.tick : (tick s).CacheIs c := h
theorem State.CacheIs.draw (n : Nat) : (draw n s).CacheIs c := h
theorem State.CacheIs.emit (o : Output) : (emit o s).CacheIs c := h
theorem State.CacheIs.dispose (k : Cause) : (dispose k s).CacheIs c := h
theorem State.CacheIs.putPending (k : Ip) (v : Bytes) : (putPending k v s).CacheIs c := h
theorem State.CacheIs.giveBack (r : Ret) : (giveBack r s).CacheIs c := h
theorem State.CacheIs.registerProtocol (p : Proto8) : (registerProtocol p s).CacheIs c := h
theorem State.CacheIs.fdRegister (p : Proto16) : (fdRegister p s).CacheIs c := h

end

theorem cacheIs_closed (c : Table Mac) : Closed (State.CacheIs c) where
  tick _ h := h.tick
  draw n _ h := h.draw n
  emit o _ h := h.emit o
  dispose k _ h := h.dispose k
  putPending k v _ h := h.putPending k v

/-- Settles O55: the sending and answering paths are closed under the updates that keep `CACHE`; of the deliveries the
IP row reaches ARP.ON_PACKET only where its number is `PROTO_ARP` too. -/
theorem onlyArpTeachesTheCache : Obligations.OnlyArpTeachesTheCache := by
  intro i s t h covered
  have closed := cacheIs_closed s.cache
  have here := State.CacheIs.refl s
  suffices kept : Holds (State.CacheIs s.cache) (exec i s) from kept t h
  cases i with
  | reset | fdDeliver | fdDeliverArp | fdPoll | mapInit | mapSet | mapDelete | arpInit | arpOnPacket
  | arpOnPacketRequest | arpOnPacketReply => exact covered.elim
  | fdDeliverIp payload =>
    refine holds_atPort fun _ _ => ?_
    rw [deliver, if_neg fun isArp => covered isArp.1.symm]
    split
    · exact closed.onDatagram here here
    · exact holds_next.2 here
  | ipOnDatagram | ipOnDatagramV4 | ipOnDatagramProtoIcmp | ipOnDatagramProtoOther =>
    exact holds_whenConfigured fun _ => closed.onDatagram here here
  | icmpOnMessage | icmpOnMessageEchoRequest => exact holds_whenConfigured fun _ => closed.onMessage here here
  | icmpSendUnreachable => exact holds_atPort fun _ _ => closed.sendUnreachable here
  | icmpSendUnreachableCall => exact holds_whenConfigured fun _ => closed.sendUnreachable here
  | ipSend => exact holds_atPort fun _ _ => closed.sendDatagram here
  | ipSendCall => exact holds_whenConfigured fun _ => closed.sendDatagram here
  | ipEncapsulateAndResolve => exact holds_whenConfigured fun _ => closed.encapsulateAndResolve here
  | arpResolveAndSend => exact holds_whenConfigured fun _ => closed.resolveAndSend here
  | fdTransmit | upDeliver | arpSendRequest | arpSendReply =>
    exact holds_whenConfigured fun _ => holds_next.2 (here.emit _)
  | ipRegister => exact holds_atPort fun _ _ => holds_next.2 (here.registerProtocol _)
  | icmpInit => exact holds_whenConfigured fun _ => holds_next.2 (here.registerProtocol _)
  | fdRegister | ipInit => exact holds_whenConfigured fun _ => holds_next.2 (here.fdRegister _)
  | bufAddHeader | bufAddPadding => exact holds_whenConfigured fun _ => holds_next.2 ((here.draw _).giveBack _)
  | bufRemoveHeader | bufRemovePadding | cksum16Verify =>
    simp only [exec, execBufRemoveHeader, execBufRemovePadding, execCksum16Verify]
    exact holds_whenConfigured fun _ => holds_orFault fun _ _ => holds_next.2 (here.giveBack _)
  | cksum16 =>
    rw [exec, execCksum16]
    exact holds_whenConfigured fun _ => holds_next.2 (here.giveBack _)
  | mapGet table =>
    rw [exec, execMapGet]
    refine holds_whenConfigured fun _ => ?_
    cases table
    · exact holds_cacheGet (holds_next.2 (here.tick.giveBack _))
    · exact holds_pendingGet (holds_next.2 (here.tick.giveBack _))
  | mapForEach _ visitor =>
    rw [exec, execMapForEach]
    refine holds_whenConfigured fun _ => ?_
    split
    · cases visitor
      · exact holds_next.2 here
      · exact holds_refused _
    · exact holds_refused _

end Sys2Proof.Machine
end

section
/-! IP.SEND (46_ip_outbound.md R211 to R217). Its fragment plan is as many full fragments as end before the buffer does,
and one with the rest. What the fragment loop does is decided by the tables: with the destination's mapping live to the
end every fragment goes out; with neither a mapping nor a pending datagram the first one is stored, and while it stays
live the later ones are dropped. -/

namespace Sys2Proof.Machine

/-! ### The fragment plan -/

/-- `n` full fragments of `m` bytes, from byte offset `boff` on. -/
def fullFragments (n boff m : Nat) : List Fragment := (List.range n).map fun k => ⟨boff + k * m, m, true⟩

theorem fullFragments_succ (n boff m : Nat) :
    fullFragments (n + 1) boff m = ⟨boff, m, true⟩ :: fullFragments n (boff + m) m := by
  simp only [fullFragments, List.range_succ_eq_map, List.map_cons, List.map_map, Nat.zero_mul, Nat.add_zero]
  congr 2
  funext k
  simp only [Function.comp_apply, Nat.succ_mul, Fragment.mk.injEq, and_self, and_true]
  omega

/-- How many full fragments come before the last one, which is never empty unless the payload is. -/
def fullCount (len m : Nat) : Nat := (len - 1) / m

theorem fullCount_of_le {len m : Nat} (hm : 0 < m) (h : len ≤ m) : fullCount len m = 0 :=
  Nat.div_eq_of_lt (by omega)

theorem fullCount_of_lt {len m : Nat} (hm : 0 < m) (h : m < len) : fullCount len m = fullCount (len - m) m + 1 := by
  have split : len - 1 = (len - m - 1) + m := by omega
  rw [fullCount, split, Nat.add_div_right _ hm, fullCount]

theorem fragPlanFrom_eq {fuel boff len m : Nat} (hm : 0 < m) (enough : len - boff ≤ fuel) :
    fragPlanFrom fuel boff len m = fullFragments (fullCount (len - boff) m) boff m ++
      [⟨boff + fullCount (len - boff) m * m, len - (boff + fullCount (len - boff) m * m), false⟩] := by
  induction fuel generalizing boff with
  | zero => simp [fragPlanFrom, fullFragments, fullCount_of_le hm (show len - boff ≤ m by omega)]
  | succ fuel ih =>
    rw [fragPlanFrom]
    split
    case isTrue more =>
      rw [ih (by omega), fullCount_of_lt hm more, fullFragments_succ, Nat.sub_sub, Nat.succ_mul, List.cons_append,
        Nat.add_right_comm, Nat.add_assoc boff]
    case isFalse rest => simp [fullFragments, fullCount_of_le hm (Nat.not_lt.1 rest)]

/-- The plan is full fragments and then the rest (R213). -/
theorem fragPlan_eq (len : Nat) {m : Nat} (hm : 0 < m) :
    fragPlan len m = fullFragments (fullCount len m) 0 m ++
      [⟨fullCount len m * m, len - fullCount len m * m, false⟩] := by
  simpa [fragPlan] using fragPlanFrom_eq (boff := 0) hm (Nat.le_refl len)

theorem length_fragPlan (len : Nat) {m : Nat} (hm : 0 < m) : (fragPlan len m).length = fullCount len m + 1 := by
  simp [fragPlan_eq len hm, fullFragments]

/-- The number of fragments as R213(a) has it; one for an empty payload (D14). -/
theorem fullCount_succ_eq (len : Nat) {m : Nat} (hm : 0 < m) : fullCount len m + 1 = max 1 ((len + m - 1) / m) := by
  cases len with
  | zero => simp [fullCount, Nat.div_eq_of_lt (Nat.sub_lt hm Nat.one_pos)]
  | succ n =>
    rw [fullCount, Nat.add_right_comm, Nat.add_sub_cancel, Nat.add_sub_cancel, Nat.add_div_right n hm]
    exact (Nat.max_eq_right (Nat.le_add_left 1 _)).symm

/-- The full fragments do not reach the end of the buffer, and at most one more frame's worth is left. -/
theorem fullCount_mul_bounds (len : Nat) {m : Nat} (hm : 0 < m) :
    len - fullCount len m * m ≤ m ∧ (0 < len → fullCount len m * m < len) := by
  have below : fullCount len m * m ≤ len - 1 := Nat.div_mul_le_self _ _
  have above : len - 1 < (fullCount len m + 1) * m := (Nat.div_lt_iff_lt_mul hm).1 (Nat.lt_succ_self _)
  rw [Nat.succ_mul] at above
  omega

theorem fragPlan_full {len m k : Nat} (hm : 0 < m) (hk : k < fullCount len m) :
    (fragPlan len m)[k]? = some ⟨k * m, m, true⟩ := by
  simp [fragPlan_eq len hm, fullFragments, List.getElem?_append_left, hk]

theorem fragPlan_last (len : Nat) {m : Nat} (hm : 0 < m) :
    (fragPlan len m)[fullCount len m]? = some ⟨fullCount len m * m, len - fullCount len m * m, false⟩ := by
  simp [fragPlan_eq len hm, fullFragments]

/-- Settles O40: an index into the plan is that of a full fragment or that of the last one. -/
theorem fragmentPlanLaw : Obligations.FragmentPlanLaw := by
  intro len m hm
  rw [length_fragPlan len hm]
  refine ⟨fullCount_succ_eq len hm, fun k f hk => ?_⟩
  obtain ⟨inside, -⟩ := List.getElem?_eq_some_iff.1 hk
  rw [length_fragPlan len hm] at inside
  rcases Nat.lt_succ_iff_lt_or_eq.1 inside with full | rfl
  · rw [fragPlan_full hm full, Option.some.injEq] at hk
    subst hk
    exact ⟨rfl, fun _ => ⟨rfl, rfl⟩, fun isLast => by omega⟩
  · rw [fragPlan_last len hm, Option.some.injEq] at hk
    subst hk
    obtain ⟨atMost, notAll⟩ := fullCount_mul_bounds len hm
    exact ⟨rfl, fun notLast => by omega,
      fun _ => ⟨rfl, atMost, fun nonempty => Nat.sub_pos_of_lt (notAll nonempty), rfl⟩⟩

theorem slice_rest (b : Bytes) (boff : Nat) : slice b boff (boff + (b.length - boff)) = b.drop boff := by
  rw [slice, Nat.add_sub_cancel_left, ← List.length_drop, List.take_length]

/-- Whatever the fuel, the slices of a plan from `boff` on are what is there of the buffer. -/
theorem fragPlanFrom_slices (fuel boff m : Nat) (b : Bytes) :
    ((fragPlanFrom fuel boff b.length m).map fun f => slice b f.boff (f.boff + f.n)).flatten = b.drop boff := by
  induction fuel generalizing boff with
  | zero => simp [fragPlanFrom, slice_rest]
  | succ fuel ih =>
    rw [fragPlanFrom]
    split
    case isTrue =>
      rw [List.map_cons, List.flatten_cons, ih, slice, Nat.add_sub_cancel_left, ← List.drop_drop,
        List.take_append_drop]
    case isFalse => simp [slice_rest]

/-- Settles O41: the slices from offset 0 on. -/
theorem fragmentsCoverTheBuffer : Obligations.FragmentsCoverTheBuffer :=
  fun buffer m _ => fragPlanFrom_slices buffer.length 0 m buffer

/-- The plan begins with the first `m` bytes, flagged where there are more. -/
theorem fragPlan_first (len m : Nat) :
    ∃ rest, fragPlan len m = ⟨0, min m len, decide (m < len)⟩ :: rest := by
  rw [fragPlan]
  cases len with
  | zero => exact ⟨[], by simp [fragPlanFrom]⟩
  | succ n =>
    rw [fragPlanFrom, Nat.sub_zero]
    split
    case isTrue more => exact ⟨_, by rw [Nat.min_eq_left more.le, decide_eq_true more]⟩
    case isFalse rest => exact ⟨[], by rw [Nat.min_eq_right (Nat.not_lt.1 rest), decide_eq_false rest]⟩

theorem slice_first (b : Bytes) (m : Nat) : slice b 0 (0 + min m b.length) = b.take m := by
  rw [slice, List.drop_zero, Nat.zero_add, Nat.sub_zero, ← List.take_take, List.take_length]

variable {s t : State}

/-! ### The operations under a well-formed configuration -/

section
variable (hw : s.cfg.wf = true)
include hw

theorem exec_ipSendCall (buffer : Bytes) (dst : Ip) (proto : Proto8) :
    exec (.ipSendCall buffer dst proto) s = sendDatagram buffer dst proto s := by
  rw [exec, execIpSendCall, whenConfigured_wf hw]

theorem exec_ipSend (running : s.phase = .running) (buffer : Bytes) (dst : Ip) (proto : Proto8) :
    exec (.ipSend buffer dst proto) s = sendDatagram buffer dst proto s := by
  rw [exec, execIpSend, atPort_running hw running]

theorem exec_icmpSendUnreachable (running : s.phase = .running) (o : Bytes) (dst : Ip) (code : Byte) :
    exec (.icmpSendUnreachable o dst code) s = sendUnreachable o dst code s := by
  rw [exec, execIcmpSendUnreachable, atPort_running hw running]

end

/-! ### What is refused -/

theorem sendDatagram_tooLong {buffer : Bytes} (long : maxSend < buffer.length) (dst : Ip) (proto : Proto8) :
    sendDatagram buffer dst proto s = .refused .payloadTooLong := if_pos long

theorem sendUnreachable_noHeader {o : Bytes} (h : o.length < ipHdrLen ∨ inHdrLen s.cfg.ihlPolicy o = none) (dst : Ip)
    (code : Byte) : sendUnreachable o dst code s = .refused .noCompleteHeader := by
  unfold sendUnreachable
  split
  case isTrue => rfl
  case isFalse long => rw [h.resolve_left long]

/-- Settles O44: both guards stand before anything is sent, at the port and in the call. -/
theorem unspecifiedCallsAreRefused : Obligations.UnspecifiedCallsAreRefused := by
  intro dst s hw
  refine ⟨fun buffer proto long => ?_, fun o code bad => ?_⟩
  · have refused : sendDatagram buffer dst proto s = .refused .payloadTooLong := sendDatagram_tooLong long dst proto
    exact ⟨(exec_ipSendCall hw buffer dst proto).trans refused,
      fun running => (exec_ipSend hw running buffer dst proto).trans refused⟩
  · have refused := sendUnreachable_noHeader bad dst code
    exact ⟨(exec_icmpSendUnreachableCall hw o dst code).trans refused,
      fun running => (exec_icmpSendUnreachable hw running o dst code).trans refused⟩

/-! ### The fragment loop -/

/-- What the loop is run on: the fragments lie inside a buffer that IP.SEND takes. -/
structure PlanFits (buffer : Bytes) (plan : List Fragment) : Prop where
  short : buffer.length ≤ maxSend
  inside : ∀ f ∈ plan, f.boff + f.n ≤ buffer.length

theorem PlanFits.of_fragPlan {c : Config} {buffer : Bytes} (hw : c.wf = true) (hb : buffer.length ≤ maxSend) :
    PlanFits buffer (fragPlan buffer.length c.maxPayload) :=
  ⟨hb, fun _ hf => (mem_fragPlan (Nat.lt_of_lt_of_le (by decide) (maxPayload_bounds hw).1) hf).1⟩

section
variable {buffer : Bytes} {dst : Ip} {proto : Proto8} {ident : Nat} {f : Fragment} {fs plan : List Fragment}

theorem PlanFits.tail (h : PlanFits buffer (f :: fs)) : PlanFits buffer fs :=
  ⟨h.short, fun g hg => h.inside g (List.mem_cons_of_mem f hg)⟩

/-- Each fragment of the loop is handed to ARP.RESOLVE_AND_SEND as its datagram (R211, R214). -/
theorem sendFragments_cons (h : PlanFits buffer (f :: fs)) (dst : Ip) (proto : Proto8) (ident : Nat) (s : State) :
    ∃ d, FragmentDatagram s.cfg dst proto ident f.boff f.mf (slice buffer f.boff (f.boff + f.n)) d ∧
      sendFragments buffer dst proto ident (f :: fs) s =
        andThen (resolveAndSend d dst (draw ipHdrLen s)) (sendFragments buffer dst proto ident fs) := by
  have inside : f.boff + f.n ≤ buffer.length := h.inside f List.mem_cons_self
  have short : buffer.length ≤ 65515 := h.short
  have hlen : ipHdrLen + (slice buffer f.boff (f.boff + f.n)).length < 65536 := by
    rw [length_slice inside]
    simp only [ipHdrLen]
    omega
  have hoff : flagsOffset s.cfg.mfBit f.mf f.boff < 65536 := flagsOffset_lt (by omega)
  obtain ⟨d, hd, run⟩ := encapsulateAndResolve_eq hlen hoff dst proto ident
  exact ⟨d, hd, by rw [sendFragments, run]⟩

theorem sendDatagram_eq (hb : buffer.length ≤ maxSend) (dst : Ip) (proto : Proto8) (s : State) :
    sendDatagram buffer dst proto s = sendFragments buffer dst proto s.idctr
      (fragPlan buffer.length s.cfg.maxPayload) { s with idctr := s.idctr + 1 } := if_neg (Nat.not_lt.2 hb)

theorem sendFragments_grown {now : Nat} {out : List Output} (h : s.GrownFrom now out) :
    Holds (State.GrownFrom now out) (sendFragments buffer dst proto ident plan s) :=
  holds_sendFragments plan (fun _ _ _ hu => (grownFrom_fullyClosed now out).encapsulateAndResolve hu) h

theorem State.SentTo.refl (dst : Ip) (s : State) : s.SentTo dst s := ⟨rfl, fun _ _ => rfl⟩

theorem State.SentTo.trans {u : State} (h : s.SentTo dst u) (h' : u.SentTo dst t) : s.SentTo dst t := by
  obtain ⟨hu, pu⟩ := h
  obtain ⟨ht, pt⟩ := h'
  exact ⟨ht.trans (congrArg (fun v : State => { v.atTimeOf t with
    pending := t.pending, outbox := t.outbox, causes := t.causes }) hu), fun k hk => (pt k hk).trans (pu k hk)⟩

theorem sendFragments_sentTo : Holds (s.SentTo dst) (sendFragments buffer dst proto ident plan s) :=
  holds_sendFragments plan
    (fun _ _ u hu => (encapsulateAndResolve_sentTo _ dst proto ident _ _ u).mono fun _ => hu.trans)
    (.refl dst s)

/-! ### A destination whose mapping stays live -/

/-- The clock after the coming fragments is a matter of the time input and the free values only. -/
theorem clockAfterHits_congr {u : State} (n : Nat) (hc : s.clock = u.clock) (ht : s.ticks = u.ticks)
    (hd : s.draws = u.draws) : clockAfterHits n s = clockAfterHits n u := by
  induction n generalizing s u with
  | zero => exact hc
  | succ n ih => exact ih (by simp [nextTime, hc, ht, hd]) (by simp [ht]) (by simp [hd])

theorem clockAfterHits_emit (n : Nat) (o : Output) (s : State) : clockAfterHits n (emit o s) = clockAfterHits n s :=
  clockAfterHits_congr n rfl rfl rfl

theorem clockAfterHits_drawId (n i : Nat) (s : State) : clockAfterHits n { s with idctr := i } = clockAfterHits n s :=
  clockAfterHits_congr n rfl rfl rfl

theorem clock_le_clockAfterHits (n : Nat) (s : State) : s.clock ≤ clockAfterHits n s := by
  induction n generalizing s with
  | zero => exact Nat.le_refl _
  | succ n ih => exact Nat.le_trans (clock_le_nextTime (draw ipHdrLen s)) (ih (tick (draw ipHdrLen s)))

theorem get_of_live {V : Type} {tb : Table V} {k : Ip} {e : Entry V} {now : Nat} (found : tb.lookup k = some e)
    (live : now - e.ts ≤ tb.horizon) : tb.get k now = some e.val := by
  rw [get_eq, found, Option.bind_some, if_pos live]

/-- While the mapping stays live, every fragment of the loop goes out to its link address (R217). -/
theorem sendFragments_resolved {e : Entry Mac} (fits : PlanFits buffer plan) (hc : s.cache.ready = true)
    (found : s.cache.lookup dst = some e) (live : clockAfterHits plan.length s - e.ts ≤ s.cache.horizon) :
    ∃ (t : State) (ds : List Bytes), sendFragments buffer dst proto ident plan s = .next t ∧
      t = { s.atTimeOf t with outbox := s.outbox ++ ds.map fun d => .fdTransmit d e.val s.cfg.protoIp } ∧
      List.Forall₂ (fun (f : Fragment) d => FragmentDatagram s.cfg dst proto ident f.boff f.mf
        (slice buffer f.boff (f.boff + f.n)) d) plan ds := by
  induction plan generalizing s with
  | nil => exact ⟨s, [], rfl, by simp [State.atTimeOf], .nil⟩
  | cons f fs ih =>
    obtain ⟨d, hd, run⟩ := sendFragments_cons fits dst proto ident s
    have notLater := clock_le_clockAfterHits fs.length (tick (draw ipHdrLen s))
    have hit : s.cache.get dst (nextTime (draw ipHdrLen s)) = some e.val :=
      get_of_live found (Nat.le_trans (Nat.sub_le_sub_right notLater _) live)
    rw [resolveAndSend_hit (s := draw ipHdrLen s) d hc hit, andThen_next] at run
    obtain ⟨t, ds, ht, rest, hds⟩ := ih (s := emit (.fdTransmit d e.val s.cfg.protoIp) (tick (draw ipHdrLen s)))
      fits.tail hc found (by rwa [clockAfterHits_emit])
    refine ⟨t, d :: ds, run.trans ht, ?_, .cons hd hds⟩
    rw [emit_outbox, List.append_assoc] at rest
    exact rest

/-! ### A destination that is not resolved -/

/-- Without a mapping, ARP.RESOLVE_AND_SEND reads the time at least twice. -/
theorem resolveAndSend_reads_twice (miss : s.cache.get dst (nextTime s) = none) (d : Bytes) :
    Holds (fun t => nextTime (tick s) ≤ t.clock) (resolveAndSend d dst s) :=
  holds_resolveAndSend (fun mac hit => by simp [miss] at hit) (fun _ _ _ => Nat.le_refl _)
    fun _ _ => clock_le_nextTime (tick (tick s))

/-- While the pending datagram stays live, every fragment of the loop is dropped (70_reset_and_hazards.md R290). -/
theorem sendFragments_inFlight {e : Entry Bytes} (fits : PlanFits buffer plan) (hc : s.cache.ready = true)
    (hp : s.pending.ready = true) (miss : s.cache.get dst s.clock = none) (stored : s.pending.lookup dst = some e) :
    Holds (fun t => t.clock - e.ts ≤ s.pending.horizon →
        t = { s.atTimeOf t with causes := s.causes ++ List.replicate plan.length .arpResolutionInFlight })
      (sendFragments buffer dst proto ident plan s) := by
  induction plan generalizing s with
  | nil => exact holds_next.2 fun _ => by simp [State.atTimeOf]
  | cons f fs ih =>
    intro t ht live
    obtain ⟨d, -, run⟩ := sendFragments_cons fits dst proto ident s
    rw [run] at ht
    obtain ⟨u, hu, hrest⟩ := andThen_eq_next ht
    have stillMiss : s.cache.get dst (nextTime (draw ipHdrLen s)) = none :=
      get_none_of_le miss (clock_le_nextTime (draw ipHdrLen s))
    have notLater : nextTime (tick (draw ipHdrLen s)) ≤ t.clock :=
      Nat.le_trans (resolveAndSend_reads_twice (s := draw ipHdrLen s) stillMiss d u hu)
        (sendFragments_grown (.refl u) t hrest).1
    have held : s.pending.get dst (nextTime (tick (draw ipHdrLen s))) = some e.val :=
      get_of_live stored (Nat.le_trans (Nat.sub_le_sub_right notLater _) live)
    rw [resolveAndSend_held (s := draw ipHdrLen s) d hc hp stillMiss held] at hu
    cases hu
    have later := get_none_of_le stillMiss (clock_le_nextTime (tick (draw ipHdrLen s)))
    have rest := ih (s := dispose .arpResolutionInFlight (tick (tick (draw ipHdrLen s)))) fits.tail hc hp later stored
      t hrest live
    rw [dispose_causes, List.append_assoc] at rest
    exact rest

/-- The first fragment is stored, and while its entry is live it is what the later ones meet. -/
theorem sendFragments_unresolved (fits : PlanFits buffer (f :: fs)) (ready : s.CanSend dst)
    (miss : s.cache.get dst (nextTime (draw ipHdrLen s)) = none)
    (absent : s.pending.get dst (nextTime (tick (draw ipHdrLen s))) = none) :
    ∃ (t : State) (d : Bytes), sendFragments buffer dst proto ident (f :: fs) s = .next t ∧
      FragmentDatagram s.cfg dst proto ident f.boff f.mf (slice buffer f.boff (f.boff + f.n)) d ∧
      (t.clock - nextTime (tick (tick (draw ipHdrLen s))) ≤ s.pending.horizon →
        t = { s.atTimeOf t with
          pending := s.pending.put dst d (nextTime (tick (tick (draw ipHdrLen s))))
          outbox := s.outbox ++
            [.fdTransmit (ArpPacket.fixed arpOpRequest ⟨s.cfg.localMac, s.cfg.localIp, Mac.zero, dst⟩).toBytes
              Mac.broadcast s.cfg.protoArp]
          causes := s.causes ++ List.replicate fs.length .arpResolutionInFlight }) := by
  obtain ⟨hc, hp, room⟩ := ready
  obtain ⟨d, hd, run⟩ := sendFragments_cons fits dst proto ident s
  rw [resolveAndSend_miss (s := draw ipHdrLen s) d hc hp miss absent room, andThen_next] at run
  have stillReady : (sendRequest dst (putPending dst d (tick (tick (draw ipHdrLen s))))).CanSend dst :=
    ⟨hc, hp, hasRoom_put_self _ _ _ _⟩
  obtain ⟨t, ht⟩ := sendFragments_completes (proto := proto) (ident := ident) fits.short fits.tail.inside stillReady
  have later := Nat.le_trans (clock_le_nextTime (tick (draw ipHdrLen s)))
    (clock_le_nextTime (tick (tick (draw ipHdrLen s))))
  refine ⟨t, d, run.trans ht, hd, fun live => ?_⟩
  have dropped := sendFragments_inFlight fits.tail stillReady.cacheReady stillReady.pendingReady
    (get_none_of_le miss later) (lookup_put_self _ _ _ _) t ht live
  rw [sendRequest_eq] at dropped
  simpa [State.atTimeOf] using dropped

end

/-! ### IP.SEND -/

/-- Settles O43: the identifier is drawn before the loop, which then writes time, outputs, notes and one pending key. -/
theorem sendTakesOneIdentifier : Obligations.SendTakesOneIdentifier := by
  rintro buffer dst proto s ⟨hw, hc, hp⟩ room short
  obtain ⟨t, ht⟩ := sendDatagram_completes hw short ⟨hc, hp, room⟩ proto
  refine ⟨t, (exec_ipSendCall hw buffer dst proto).trans ht,
    fun running => (exec_ipSend hw running buffer dst proto).trans ht, ?_⟩
  rw [sendDatagram_eq short] at ht
  obtain ⟨rest, others⟩ := sendFragments_sentTo t ht
  exact ⟨rest, (sendFragments_grown (.refl _) t ht).2, others⟩

/-- Settles O45: the loop over the plan, after the identifier is drawn. -/
theorem sendTransmitsEveryFragment : Obligations.SendTransmitsEveryFragment := by
  rintro buffer dst proto e s ⟨hw, hc, -⟩ short found live
  rw [exec_ipSendCall hw, sendDatagram_eq short]
  exact sendFragments_resolved (s := { s with idctr := s.idctr + 1 }) (.of_fragPlan hw short) hc found
    (by rwa [clockAfterHits_drawId])

/-- Settles O46: the plan begins with the first frame's worth of the buffer; all its other fragments are
dropped. -/
theorem unresolvedSendKeepsFirstFragment : Obligations.UnresolvedSendKeepsFirstFragment := by
  rintro buffer dst proto s ⟨hw, hc, hp⟩ room short miss absent
  have fits : PlanFits buffer (fragPlan buffer.length s.cfg.maxPayload) := .of_fragPlan hw short
  rw [exec_ipSendCall hw, sendDatagram_eq short]
  obtain ⟨rest, plan⟩ := fragPlan_first buffer.length s.cfg.maxPayload
  rw [plan] at fits ⊢
  rw [← slice_first buffer s.cfg.maxPayload]
  exact sendFragments_unresolved (s := { s with idctr := s.idctr + 1 }) fits ⟨hc, hp, room⟩ miss absent

end Sys2Proof.Machine
end

section
/-! RESET, what it sets up and what it excludes (70_reset_and_hazards.md R280 to R284). RESET of an awaiting block ends in
one state; the inputs of a running block write nothing of what it has set up there but the handlers of the IP Engine, to
which they only add. -/

namespace Sys2Proof.Machine

variable {s t : State}

/-! ### RESET -/

/-- The state that RESET of the awaiting block `s` ends in (R280 to R282). -/
def afterReset (s : State) : State :=
  { s with
    phase := .running
    idctr := s.cfg.idInit
    cache := Table.made Mac s.cfg.arpCapacity s.cfg.arpTimeout
    pending := Table.made Bytes s.cfg.pendingCapacity s.cfg.arpPendingInterval
    registered := [ipProtoIcmp]
    fdRegistered := insertNum s.cfg.protoIp [s.cfg.protoArp]
    outbox := s.outbox ++
      [.fdTransmit (ArpPacket.fixed arpOpRequest ⟨s.cfg.localMac, s.cfg.localIp, Mac.zero, s.cfg.localIp⟩).toBytes
        Mac.broadcast s.cfg.protoArp,
       .fdRegister s.cfg.protoArp, .fdRegister s.cfg.protoIp] }

/-- ARP.INIT finds both tables unmade, since RESET has cleared them; the three outputs are emitted one by one. -/
theorem initialise_clearState (s : State) :
    initialise (clearState s) = .next { afterReset s with phase := s.phase } := by
  rw [initialise, initArp_unmade rfl rfl, andThen_next, sendRequest_eq]
  simp [initIcmp, initIp, fdRegister, registerProtocol, emit, insertNum, afterReset, clearState]

theorem exec_reset_awaiting (hw : s.cfg.wf = true) (awaiting : s.phase = .awaitingReset) :
    exec .reset s = .next (afterReset s) := by
  rw [exec, execReset, whenConfigured_wf hw, resetBlock, awaiting]
  dsimp only
  rw [initialise_clearState, andThen_next]
  rfl

theorem exec_reset_running (hw : s.cfg.wf = true) (running : s.phase = .running) :
    exec .reset s = .refused .secondReset := by
  rw [exec, execReset, whenConfigured_wf hw, resetBlock, running]

theorem mem_afterReset_fdRegistered {p : Proto16} :
    p ∈ (afterReset s).fdRegistered ↔ p = s.cfg.protoArp ∨ p = s.cfg.protoIp := by
  rw [afterReset, mem_insertNum, List.mem_singleton, or_comm]

/-- Settles O6: the cleared tables let the initialisation run to its end, and the two sets are read off the state. -/
theorem resetRunsInitialisation : Obligations.ResetRunsInitialisation := fun s hw awaiting =>
  ⟨afterReset s, exec_reset_awaiting hw awaiting, rfl, fun _ => List.mem_singleton, fun _ => mem_afterReset_fdRegistered⟩

/-! ### Inputs outside their phase -/

theorem atPort_awaiting (hw : s.cfg.wf = true) (awaiting : s.phase = .awaitingReset) (k : State → Run) :
    atPort s k = .refused .beforeReset := by
  rw [atPort, whenConfigured_wf hw, awaiting]

/-- Settles O7: the six input ports and the delivery of FD.POLL are behind `atPort`, and RESET asks for the phase. -/
theorem inputsRefusedOutsideTheirPhase : Obligations.InputsRefusedOutsideTheirPhase := by
  refine ⟨fun i s input notReset notPoll hw awaiting => ?ports, fun s f rest hw awaiting waiting => ?poll,
    fun s hw running => exec_reset_running hw running⟩
  case ports =>
    cases i with
    | reset => exact absurd rfl notReset
    | fdPoll => exact absurd rfl notPoll
    | fdDeliver | fdDeliverArp | fdDeliverIp | ipSend | icmpSendUnreachable | ipRegister =>
      apply atPort_awaiting hw awaiting
    | _ => cases input
  case poll =>
    rw [exec_fdPoll_cons hw waiting]
    exact atPort_awaiting (s := { s with driver := rest }) hw awaiting _

/-! ### What stays set up -/

theorem setUp_afterReset (s : State) : (afterReset s).SetUp :=
  fun _ => ⟨rfl, rfl, rfl, rfl, rfl, rfl, List.mem_singleton_self _, fun _ => mem_afterReset_fdRegistered⟩

/-- IP.REGISTER adds to the handlers of the IP Engine, among which ICMP stays. -/
theorem State.SetUp.registerProtocol (h : s.SetUp) (p : Proto8) : (registerProtocol p s).SetUp := by
  intro running
  obtain ⟨hc, hp, cacheHorizon, pendingHorizon, cacheCapacity, pendingCapacity, icmp, frames⟩ := h running
  exact ⟨hc, hp, cacheHorizon, pendingHorizon, cacheCapacity, pendingCapacity, mem_insertNum.2 (.inr icmp), frames⟩

/-- A write or an erasure of an entry leaves the flag, the horizon and the capacity of its table as they were, and no
input but IP.REGISTER writes a handler set. -/
theorem setUp_inputClosed (c : Config) : InputClosed c fun u => u.cfg = c ∧ u.SetUp where
  cfg _ h := h.1
  resolveAndSend _ _ _ _ h := holds_resolveAndSend (fun _ _ => h) (fun _ _ _ => h) fun _ _ => h
  onPacket _ _ h := holds_onPacket h h (fun _ _ => h) fun _ => ⟨h, h⟩
  draw _ _ h := h
  drawId _ h := h
  emit _ _ h := h
  dispose _ _ h := h
  registerProtocol p _ h := ⟨h.1, h.2.registerProtocol p⟩
  takeFrame _ _ h := h

/-- RESET, where it ends in a next state, has set the block up. -/
theorem reset_setUp : Holds State.SetUp (exec .reset s) := by
  cases hw : s.cfg.wf with
  | false => simp [illFormedConfigurationIsRefused .reset s hw]
  | true =>
    cases phase : s.phase with
    | running => simp [exec_reset_running hw phase]
    | awaitingReset =>
      rw [exec_reset_awaiting hw phase]
      exact holds_next.2 (setUp_afterReset s)

theorem State.SetUp.exec {i : Instr} (h : s.SetUp) (hin : i.isInput = true) (hx : exec i s = .next t) : t.SetUp := by
  by_cases hr : i = .reset
  · subst hr
    exact reset_setUp t hx
  · exact ((setUp_inputClosed s.cfg).exec hin hr ⟨rfl, h⟩ t hx).2

/-- Settles O60: RESET sets the block up and every other input keeps it so. -/
theorem stepKeepsWhatResetSetUp : Obligations.StepKeepsWhatResetSetUp := by
  intro s t hs h hst
  obtain ⟨ht, rfl | ⟨rest, i, hin, hx⟩⟩ := step_input hs hst
  · exact ⟨ht, h⟩
  · have taken : (s.taking rest).SetUp := h
    exact ⟨ht, taken.exec hin hx⟩

end Sys2Proof.Machine
end

section
/-! What the Expiring Map refuses by name (41_expiring_map.md R140, R142; 93_implementation_defined.md U1): an unmade table
whatever the operation, and a new key where a bounded table is full. -/

namespace Sys2Proof.Machine

/-- A bounded table with no free slot has no room for a key that it does not hold. -/
theorem hasRoom_full {V : Type} {tb : Table V} {k : Ip} {c : Nat} (bounded : tb.capacity = some c)
    (absent : tb.lookup k = none) (full : c ≤ tb.store.length) : tb.hasRoom k = false := by
  simp [Table.hasRoom, bounded, absent, full]

variable {s : State} {k : Ip}

theorem cacheSet_full (ready : s.cache.ready = true) (noRoom : s.cache.hasRoom k = false) (v : Mac) :
    cacheSet k v s = .refused .tableFull := by simp [cacheSet, ready, noRoom]

theorem pendingSet_full (ready : s.pending.ready = true) (noRoom : s.pending.hasRoom k = false) (v : Bytes) :
    pendingSet k v s = .refused .tableFull := by simp [pendingSet, ready, noRoom]

section
variable (unmade : s.cache.ready = false) (k : Ip)
include unmade

theorem cacheGet_unmade (cont : Option Mac → State → Run) : cacheGet k s cont = .refused .tableNotReady := by
  simp [cacheGet, unmade]

theorem cacheSet_unmade (v : Mac) : cacheSet k v s = .refused .tableNotReady := by simp [cacheSet, unmade]

theorem cacheDelete_unmade : cacheDelete k s = .refused .tableNotReady := by simp [cacheDelete, unmade]

end

section
variable (unmade : s.pending.ready = false) (k : Ip)
include unmade

theorem pendingGet_unmade (cont : Option Bytes → State → Run) : pendingGet k s cont = .refused .tableNotReady := by
  simp [pendingGet, unmade]

theorem pendingSet_unmade (v : Bytes) : pendingSet k v s = .refused .tableNotReady := by simp [pendingSet, unmade]

theorem pendingDelete_unmade : pendingDelete k s = .refused .tableNotReady := by simp [pendingDelete, unmade]

end

/-- Settles O14: for each table the flag that MAP.INIT sets is asked for first, and then, by MAP.SET only, room. -/
theorem mapRefusalsAreNamed : Obligations.MapRefusalsAreNamed := by
  intro k s hw
  simp only [exec_mapSet_cache hw, exec_mapSet_pending hw, exec_mapGet_cache hw, exec_mapGet_pending hw,
    exec_mapDelete_cache hw, exec_mapDelete_pending hw]
  exact ⟨fun mac _ ready bounded absent full => cacheSet_full ready (hasRoom_full bounded absent full) mac,
    fun d _ ready bounded absent full => pendingSet_full ready (hasRoom_full bounded absent full) d,
    fun mac unmade => ⟨cacheSet_unmade unmade k mac, cacheGet_unmade unmade k _, cacheDelete_unmade unmade k⟩,
    fun d unmade => ⟨pendingSet_unmade unmade k d, pendingGet_unmade unmade k _, pendingDelete_unmade unmade k⟩⟩

end Sys2Proof.Machine
end

section
/-! The ICMP Engine (47_icmp.md R230 to R235). Its two messages, the echo reply and the unreachable message, are sent by
IP.SEND; the echo law follows a request from FD.DELIVER to the one frame that carries the reply. -/

namespace Sys2Proof.Machine

variable {s : State}

/-! ### The messages that it sends -/

/-- An echo request is IP.SEND of its reply, which does not depend on the request's code and checksum (R232, R233). -/
theorem onMessage_echoRequest (ident seq : Word16) (payload : Bytes) :
    ∃ ck, verifyChecksum (icmpHeaderBytes icmpEchoReply 0 ck ident seq ++ payload) 2 = some true ∧
      ∀ code ics source s, onMessage (echoRequestBytes code ics ident seq payload) source s =
        sendDatagram (icmpHeaderBytes icmpEchoReply 0 ck ident seq ++ payload) source ipProtoIcmp s := by
  refine ⟨_, icmp_verifies icmpEchoReply 0 ident seq payload, fun code ics source s => ?_⟩
  have long : ¬ (echoRequestBytes code ics ident seq payload).length < icmpHdrLen := by simp [echoRequestBytes]
  have isEcho : byteAt (echoRequestBytes code ics ident seq payload) 0 = icmpEchoRequest := rfl
  rw [onMessage, if_neg long, if_neg (not_not.2 isEcho), echoReply_eq, orFault_some]

/-- A message that does not select the row of echo requests ends at one of the two checks. -/
theorem onMessage_notSelected {m : Bytes} (h : selectsMessageRow m = false) (source : Ip) (s : State) :
    onMessage m source s = discard (if m.length < icmpHdrLen then .icmpTooShort else .icmpIgnoredType) s := by
  unfold onMessage
  split
  case isTrue => rfl
  case isFalse long =>
    have ignored : byteAt m 0 ≠ icmpEchoRequest := by simpa [selectsMessageRow, Nat.not_lt.1 long] using h
    rw [if_pos ignored]

/-- Where the header is complete ICMP.SEND_UNREACHABLE is IP.SEND of a message that quotes it (R235). -/
theorem sendUnreachable_eq {o : Bytes} {hl : Nat} (long : ipHdrLen ≤ o.length)
    (header : inHdrLen s.cfg.ihlPolicy o = some hl) (dst : Ip) (code : Byte) :
    ∃ ck, verifyChecksum (icmpHeaderBytes icmpUnreach code ck 0 0 ++ o.take (hl + 8)) 2 = some true ∧
      sendUnreachable o dst code s =
        sendDatagram (icmpHeaderBytes icmpUnreach code ck 0 0 ++ o.take (hl + 8)) dst ipProtoIcmp s := by
  refine ⟨_, icmp_verifies icmpUnreach code 0 0 (o.take (hl + 8)), ?_⟩
  rw [sendUnreachable, if_neg (Nat.not_lt.2 long), header]
  dsimp only
  rw [unreachableMessage_eq, orFault_some]

section
variable (hw : s.cfg.wf = true)
include hw

theorem exec_icmpOnMessage (m : Bytes) (source : Ip) : exec (.icmpOnMessage m source) s = onMessage m source s := by
  rw [exec, execIcmpOnMessage, whenConfigured_wf hw]

theorem exec_icmpOnMessageEchoRequest (code : Byte) (ics ident seq : Word16) (payload : Bytes) (source : Ip) :
    exec (.icmpOnMessageEchoRequest code ics ident seq payload source) s =
      onMessage (echoRequestBytes code ics ident seq payload) source s := by
  rw [exec, execIcmpOnMessageEchoRequest, whenConfigured_wf hw]

end

/-- Settles O47: the request's row is IP.SEND of the reply, which completes. -/
theorem echoRequestIsAnswered : Obligations.EchoRequestIsAnswered := by
  rintro code ics ident seq payload source s ⟨hw, hc, hp⟩ room short
  obtain ⟨ck, verifies, answer⟩ := onMessage_echoRequest ident seq payload
  have fits : (icmpHeaderBytes icmpEchoReply 0 ck ident seq ++ payload).length ≤ maxSend := by
    rw [List.length_append, length_icmpHeaderBytes]
    exact short
  obtain ⟨t, ht⟩ := sendDatagram_completes hw fits ⟨hc, hp, room⟩ ipProtoIcmp
  refine ⟨ck, t, verifies, (exec_ipSendCall hw _ _ _).trans ht, ?_⟩
  rw [exec_icmpOnMessageEchoRequest hw, answer, ht]

/-- Settles O48: the two checks are the ones that select the row of echo requests. -/
theorem otherIcmpIsIgnored : Obligations.OtherIcmpIsIgnored := by
  intro m source s hw hg
  have notSelected : selectsMessageRow m = false := by simpa [Instr.wellFormed] using hg
  rw [exec_icmpOnMessage hw, onMessage_notSelected notSelected]
  rfl

/-- Settles O49: port and call are IP.SEND of the message, which completes since a header has at most 60 bytes. -/
theorem unreachableQuotesTheHeader : Obligations.UnreachableQuotesTheHeader := by
  rintro o dst code hl s ⟨hw, hc, hp⟩ room long header
  obtain ⟨ck, verifies, send⟩ := sendUnreachable_eq long header dst code
  obtain ⟨t, ht⟩ := sendUnreachable_completes hw long header ⟨hc, hp, room⟩ code
  exact ⟨ck, t, verifies, (exec_ipSendCall hw _ _ _).trans (send.symm.trans ht),
    (exec_icmpSendUnreachableCall hw o dst code).trans ht,
    fun running => (exec_icmpSendUnreachable hw running o dst code).trans ht⟩

/-! ### The echo law -/

/-- A frame under `PROTO_IP`, which is not `PROTO_ARP`, is handed to IP.ON_DATAGRAM (42_frame_dispatcher.md R150). -/
theorem deliver_ip (notArp : s.cfg.protoArp ≠ s.cfg.protoIp) (handled : s.cfg.protoIp ∈ s.fdRegistered)
    (payload : Bytes) : deliver payload s.cfg.protoIp s = onDatagram payload s := by
  rw [deliver, if_neg fun h => notArp h.1.symm, if_pos ⟨rfl, handled⟩]

section
variable {p : Proto8} {f : Ipv4Fields}

/-- The header of a row's datagram, without options, is what it is of the row with nothing behind it. -/
theorem slice_datagramRowBytes (rest : Bytes) : slice (datagramRowBytes p f rest) 0 20 = datagramRowBytes p f [] := by
  rw [slice, List.drop_zero, datagramRowBytes, List.take_left' (Ipv4Header.length_toBytes _), datagramRowBytes,
    List.append_nil]

/-- A valid header without options, to the local address, is accepted (R192). -/
theorem accepts_datagramRowBytes {c : Config} (noOptions : f.ihl = 5) (forUs : f.dst = c.localIp)
    (total : 20 ≤ f.tlen.toNat) (verifies : verifyChecksum (datagramRowBytes p f []) 10 = some true) (rest : Bytes) :
    Accepts c (datagramRowBytes p f rest) 20 where
  long := by simp
  version := by simp
  header := by rw [headerLengthFollowsPolicy, if_pos (.inl noOptions)]
  checksum := by rw [slice_datagramRowBytes, verifies]
  forUs := by simp [forUs]
  total := by simpa using total

/-- Behind the header of the trimmed datagram stands what the total length declares (R195). -/
theorem drop_trimmed_datagramRowBytes {m : Bytes} (total : f.tlen.toNat = 20 + m.length) (padding : Bytes) :
    (trimmed (datagramRowBytes p f (m ++ padding))).drop 20 = m := by
  have behindHeader : (datagramRowBytes p f (m ++ padding)).drop 20 = m ++ padding :=
    List.drop_left' (Ipv4Header.length_toBytes _)
  rw [trimmed, read_datagramRowBytes, total, List.drop_take, behindHeader, Nat.add_sub_cancel_left, List.take_left]

end

/-- IP.SEND of what fits one frame, to a destination with a live mapping, is one transmission (46_ip_outbound.md R213). -/
theorem sendDatagram_oneFrame {buffer : Bytes} {dst : Ip} {e : Entry Mac} (ready : s.TablesReady)
    (fits : buffer.length ≤ s.cfg.maxPayload) (found : s.cache.lookup dst = some e)
    (live : nextTime (draw ipHdrLen s) - e.ts ≤ s.cache.horizon) (proto : Proto8) :
    ∃ t d, sendDatagram buffer dst proto s = .next t ∧
      t = { s.atTimeOf t with
        idctr := s.idctr + 1
        outbox := s.outbox ++ [.fdTransmit d e.val s.cfg.protoIp] } ∧
      FragmentDatagram s.cfg dst proto s.idctr 0 false buffer d := by
  obtain ⟨least, most⟩ := maxPayload_bounds ready.1
  have positive : 0 < s.cfg.maxPayload := by omega
  have plan : fragPlan buffer.length s.cfg.maxPayload = [⟨0, buffer.length, false⟩] := by
    rw [fragPlan_eq _ positive, fullCount_of_le positive fits, Nat.zero_mul]
    rfl
  have whole : slice buffer 0 (0 + buffer.length) = buffer := by simp [slice]
  obtain ⟨t, ds, ht, rest, sent⟩ := sendTransmitsEveryFragment buffer dst proto e s ready (by omega) found
    (by rw [plan]; exact live)
  rw [exec_ipSendCall ready.1] at ht
  rw [plan, List.forall₂_cons_left_iff] at sent
  obtain ⟨d, tail, hd, noMore, rfl⟩ := sent
  rw [List.forall₂_nil_left_iff] at noMore
  subst noMore
  rw [whole] at hd
  exact ⟨t, d, ht, rest, hd⟩

/-- Settles O50: the frame is an accepted datagram, whose payload is the request; its reply is one IP.SEND of one
fragment. -/
theorem endToEndEcho : Obligations.EndToEndEcho := by
  intro f code ics ident seq payload padding src e s ⟨ready, running⟩ notArp handled registered noOptions forUs total
    fits verifies found live
  obtain ⟨ck, replyVerifies, answer⟩ := onMessage_echoRequest ident seq payload
  have oneFrame : (icmpHeaderBytes icmpEchoReply 0 ck ident seq ++ payload).length ≤ s.cfg.maxPayload := by
    simp only [List.length_append, length_icmpHeaderBytes, Config.maxPayload, icmpHdrLen, ipHdrLen]
    omega
  obtain ⟨t, d, ht, rest, hd⟩ := sendDatagram_oneFrame ready oneFrame found live ipProtoIcmp
  have message : f.tlen.toNat = 20 + (echoRequestBytes code ics ident seq payload).length := by
    simp only [echoRequestBytes, List.length_append, length_icmpHeaderBytes, icmpHdrLen]
    omega
  have delivered : deliver (datagramRowBytes ipProtoIcmp f (echoRequestBytes code ics ident seq payload ++ padding))
      s.cfg.protoIp s = .next t := by
    rw [deliver_ip notArp handled,
      onDatagram_registered (accepts_datagramRowBytes noOptions forUs (by omega) verifies _) registered, if_pos rfl,
      drop_trimmed_datagramRowBytes message, answer, ht]
  refine ⟨t, d, ck, (atPort_running ready.1 running _).trans delivered, fun isIp => ?_, rest, hd, replyVerifies⟩
  rw [isIp] at delivered
  exact (atPort_running ready.1 running _).trans delivered

end Sys2Proof.Machine
end
